-- ==== Sys2Proof/Word.lean ====
section
/-! DEFINITION. The two kinds of bits the block knows: a 32-bit register value (R7) and a bit word of a stated
length and role (R8, R14). The algebra over words is in `Machine/Words.lean`. -/

namespace Sys2Proof

/-- A register of the window: 32 bits, bit 0 the least significant (R7). -/
abbrev Reg := BitVec 32

/-- The role the source gives every word "to prevent mixing them" (R14). -/
inductive Role where
  | information
  | code
  | syndrome
  deriving DecidableEq, Repr

/-- `Word L` of R8 with its role (R14): `L` bits; position 0, the leftmost, is bit `L - 1` of `bits`, so
`bits.toNat` is `int(w)` and `bits.getMsbD i` is the bit at position `i`. Role and length stand in the type, so an
operation between words of different roles or lengths does not typecheck (R9: "never silent truncation/padding"). -/
structure BitWord (role : Role) (L : Nat) where
  bits : BitVec L
  deriving DecidableEq, Repr

end Sys2Proof
end

