-- ==== Sys2Proof/Syntax.lean ====
section
/-! DEFINITION. The commands of the LCE command interface, one constructor per row of the opcode table (R85). -/

namespace Sys2Proof

/-- A command. Its only immediate is LEN (R82), the number of bits of its operand words, carried by the opcodes that
use it (R86); every other operand comes from the OPA and OPB values latched at acceptance (R55). The strategy bit of
DECODE (R83) is the choice between `decodeSa` and `decodeSt`. -/
inductive Instr where
  /-- NOP (R210). -/
  | nop
  /-- GROW (R121): `len` is the row's length. -/
  | grow (len : Nat)
  /-- GLOAD (R124): `len` is the code length n. -/
  | gload (len : Nat)
  /-- ENCODE (R130): `len` is the information word's length. -/
  | encode (len : Nat)
  /-- SYND (R153). -/
  | synd (len : Nat)
  /-- CONTAINS (R154). -/
  | contains (len : Nat)
  /-- DECODE with STRAT = 0, the standard array (R175). -/
  | decodeSa (len : Nat)
  /-- DECODE with STRAT = 1, the syndrome table (R194). -/
  | decodeSt (len : Nat)
  /-- PROPS (R128). -/
  | props
  /-- RDG (R129). -/
  | rdg
  /-- RDH (R152). -/
  | rdh
  /-- RDCW (R131). -/
  | rdcw
  /-- RDSA (R174). -/
  | rdsa
  /-- RDST (R193). -/
  | rdst
  /-- WEIGHT (R102). -/
  | weight (len : Nat)
  /-- HDIST (R103). -/
  | hdist (len : Nat)
  deriving DecidableEq, Repr

/-- The LEN field a command carries, 0 for the commands that do not use it (R84, R86). -/
def Instr.len : Instr → Nat
  | .grow len => len
  | .gload len => len
  | .encode len => len
  | .synd len => len
  | .contains len => len
  | .decodeSa len => len
  | .decodeSt len => len
  | .weight len => len
  | .hdist len => len
  | .nop => 0
  | .props => 0
  | .rdg => 0
  | .rdh => 0
  | .rdcw => 0
  | .rdsa => 0
  | .rdst => 0

end Sys2Proof
end

