-- ==== Sys2Proof/WellFormed.lean ====
section
/-! DEFINITION. Which commands have a command word: LEN is a 5-bit field (R80, R82). -/

namespace Sys2Proof

/-- A command is well formed when its LEN fits the field `c[12:8]`, "word length L in bits (0..31)" (R80). -/
abbrev Instr.WellFormed (i : Instr) : Prop := i.len ≤ 31

end Sys2Proof
end

