-- ==== Sys2Proof/Decode.lean ====
section
/-! DEFINITION. The command word: the fields of CMD32 (R80), the legality check (R84), the decoder (R85, R87) and the
encoder written from the same tables. -/

namespace Sys2Proof

/-- OPC, `c[7:0]` (R80). -/
def opcOf (c : Reg) : BitVec 8 := c.extractLsb' 0 8

/-- LEN, `c[12:8]`, an unsigned 5-bit count (R80, R82). -/
def lenOf (c : Reg) : Nat := (c.extractLsb' 8 5).toNat

/-- RSV0, `c[15:13]` (R80). -/
def rsv0Of (c : Reg) : BitVec 3 := c.extractLsb' 13 3

/-- STRAT, `c[16]`: 0 = StandardArray, 1 = SyndromeTable (R80, R83). -/
def stratOf (c : Reg) : Bool := c.getLsbD 16

/-- RSV1, `c[31:17]` (R80). -/
def rsv1Of (c : Reg) : BitVec 15 := c.extractLsb' 17 15

/-- The opcodes that use LEN: GROW, GLOAD, ENCODE, SYND, CONTAINS, DECODE, WEIGHT and HDIST (R86). -/
def usesLen (opc : BitVec 8) : Bool :=
  opc == 0x01 || opc == 0x02 || opc == 0x03 || opc == 0x04 || opc == 0x05 || opc == 0x06 || opc == 0x0D || opc == 0x0E

/-- `legal(c)` of R84, clause by clause. -/
def legal (c : Reg) : Bool :=
  (rsv1Of c == 0 && rsv0Of c == 0) && decide ((opcOf c).toNat ≤ 0x0E)
    && (!stratOf c || opcOf c == 0x06) && (lenOf c == 0 || usesLen (opcOf c))

/-- Why a word is no command (R87). Each of them completes with IllegalCommand. -/
inductive DecodeError where
  /-- a nonzero bit in RSV1 or RSV0 -/
  | reservedBits
  /-- OPC in 0x0F..0xFF -/
  | reservedOpcode
  /-- STRAT = 1 on an opcode other than DECODE -/
  | strayStrategy
  /-- LEN ≠ 0 on an opcode that does not use LEN -/
  | strayLength
  deriving DecidableEq, Repr

/-- A command that carries no LEN: the field must be 0 (R84). -/
def decodePlain (i : Instr) (len : Nat) : Except DecodeError Instr :=
  if len = 0 then .ok i else .error .strayLength

/-- The opcode map of R85 for a word whose reserved bits are 0. -/
def decodeOpcode (opc : BitVec 8) (strat : Bool) (len : Nat) : Except DecodeError Instr :=
  match strat, opc.toNat with
  | false, 0x00 => decodePlain .nop len
  | false, 0x01 => .ok (.grow len)
  | false, 0x02 => .ok (.gload len)
  | false, 0x03 => .ok (.encode len)
  | false, 0x04 => .ok (.synd len)
  | false, 0x05 => .ok (.contains len)
  | false, 0x06 => .ok (.decodeSa len)
  | true, 0x06 => .ok (.decodeSt len)
  | false, 0x07 => decodePlain .props len
  | false, 0x08 => decodePlain .rdg len
  | false, 0x09 => decodePlain .rdh len
  | false, 0x0A => decodePlain .rdcw len
  | false, 0x0B => decodePlain .rdsa len
  | false, 0x0C => decodePlain .rdst len
  | false, 0x0D => .ok (.weight len)
  | false, 0x0E => .ok (.hdist len)
  | false, _ => .error .reservedOpcode
  | true, _ => .error .strayStrategy

/-- The decoder, total on every 32-bit word (R84): the one row of R85 that matches, or the reason there is none. -/
def decode (c : Reg) : Except DecodeError Instr :=
  if rsv1Of c = 0 ∧ rsv0Of c = 0 then decodeOpcode (opcOf c) (stratOf c) (lenOf c)
  else .error .reservedBits

/-- OPC of a command (R85). -/
def opcode : Instr → BitVec 8
  | .nop => 0x00
  | .grow _ => 0x01
  | .gload _ => 0x02
  | .encode _ => 0x03
  | .synd _ => 0x04
  | .contains _ => 0x05
  | .decodeSa _ => 0x06
  | .decodeSt _ => 0x06
  | .props => 0x07
  | .rdg => 0x08
  | .rdh => 0x09
  | .rdcw => 0x0A
  | .rdsa => 0x0B
  | .rdst => 0x0C
  | .weight _ => 0x0D
  | .hdist _ => 0x0E

/-- STRAT of a command: 1 for DECODE.ST alone (R80, R83). -/
def strategy : Instr → BitVec 1
  | .decodeSt _ => 1
  | .nop => 0
  | .grow _ => 0
  | .gload _ => 0
  | .encode _ => 0
  | .synd _ => 0
  | .contains _ => 0
  | .decodeSa _ => 0
  | .props => 0
  | .rdg => 0
  | .rdh => 0
  | .rdcw => 0
  | .rdsa => 0
  | .rdst => 0
  | .weight _ => 0
  | .hdist _ => 0

/-- The command word, fields in the order of R80's pattern `RRRRRRRRRRRRRRR S RRR LLLLL OOOOOOOO`. -/
def encode (i : Instr) : Reg :=
  (0 : BitVec 15) ++ strategy i ++ (0 : BitVec 3) ++ BitVec.ofNat 5 i.len ++ opcode i

/-- The command the decoder reads from a word of `nbits` bits, the bits above them 0. -/
def decodeTableWord (nbits w : Nat) : Option Instr :=
  match decode (BitVec.ofNat 32 (w % 2 ^ nbits)) with
  | .ok i => some i
  | .error _ => none

end Sys2Proof
end

