-- ==== Sys2Proof/Config.lean ====
section
/-! DEFINITION. What one implementation fixes (R5, R37) and the values the spec leaves free (R60, R57). -/

namespace Sys2Proof

/-- The implementation parameters a model takes as arguments (R5): the largest length N_MAX, and the two switches
P_SF_CHECK and P_ST_CHECK. They never change during the life of a block (R37). -/
structure Params where
  nMax : Nat
  sfCheck : Bool
  stCheck : Bool
  deriving DecidableEq, Repr

/-- This spec's values: N_MAX = 16, P_SF_CHECK = 1, P_ST_CHECK = 1 (R5; decisions D2, D3, D4). -/
def Params.spec : Params := ⟨16, true, true⟩

/-- The values R5 allows: N_MAX is one of 1..24. -/
abbrev Params.Allowed (p : Params) : Prop := 1 ≤ p.nMax ∧ p.nMax ≤ 24

/-- FREE VALUE (assumption 1). The number of host steps between the acceptance of the `t`-th command and its
completion: R60 and U13 allow "any finite number", so nothing is known of it. -/
opaque Config.latency : Nat → Nat

/-- FREE VALUE (assumption 2). The register window's place, in units of 256 bytes: BASE is OPEN (R5). -/
opaque Config.baseBlock : Nat

/-- BASE, the byte address of the register window, "any 256-byte-aligned address" (R5). -/
def Config.base : Nat := 256 * Config.baseBlock

end Sys2Proof
end

