-- ==== Sys2Proof/Machine/State.lean ====
section
/-! DEFINITION. The state of the block (10_state.md) as plain data, the model's own fields beside it, the reasons a
step can stop, and the state after reset (R38). -/

namespace Sys2Proof.Machine

/-- The error kinds of R221 a completed command can report; OK is the absence of one. -/
inductive ErrorKind where
  | malformedInput
  | dimensionMismatch
  | invalidCode
  | propertyDerivationFailed
  | uncorrectableError
  | lookupTableCorrupt
  | notLoaded
  | notStandardForm
  | indexOutOfRange
  | illegalCommand
  deriving DecidableEq, Repr

/-- One valid staging row `S.gs[r]` (R30): its length and its word. -/
structure StagedRow where
  len : Nat
  row : BitVec len
  deriving DecidableEq, Repr

/-- The code instance (R31) with the caches derived from it (R33). A matrix is the list of its rows (R11). A cache
whose valid bit is 0 holds no value (R34) and is `none`; the codeword list is valid whenever a code is loaded (R25). -/
structure Code where
  /-- S.n, word_size -/
  n : Nat
  /-- S.k, basis_size -/
  k : Nat
  /-- S.G, k rows of n bits -/
  G : List (BitVec n)
  /-- S.d, min_distance -/
  d : Nat
  /-- S.det, max_errors_detect -/
  det : Nat
  /-- S.cor, max_errors_correct -/
  cor : Nat
  /-- S.cw, the sorted list of all codewords (R126) -/
  cw : List (BitWord .code n)
  /-- S.H with H_VALID (R150) -/
  H : Option (List (BitVec n))
  /-- S.sa with SA_VALID (R170): the rows, each its leader and then its columns -/
  sa : Option (List (List (BitWord .code n)))
  /-- S.st with ST_VALID (R190): the entries (syndrome, leader) in the order of insertion -/
  st : Option (List (BitWord .syndrome (n - k) × BitWord .code n))
  deriving DecidableEq, Repr

/-- S.eng (R35): idle, or busy with the accepted command word and the OPA and OPB values latched at acceptance. -/
inductive Engine where
  | idle
  | busy (c a b : Reg)
  deriving DecidableEq, Repr

/-- What reaches the block from outside: the host's accesses at an offset of the window (R50, R89), the host's
`wait` loop (R91), and the two edges of the reset input driven by the platform (R250). `bytes` is the width of an
access. -/
inductive Input where
  | read (off : BitVec 8) (bytes : Nat)
  | write (off : BitVec 8) (bytes : Nat) (v : Reg)
  | wait
  | assertReset
  | releaseReset
  deriving DecidableEq, Repr

/-- Why the machine stops. -/
inductive Fault where
  /-- Raised by a host access that is not 32 bits wide or not at a multiple of 4: a bus error (R53, V3), "a model
  treats such an access as a fault of the host's run". Safe. -/
  | busError
  /-- Raised by a command's meaning asked for when no command is in flight: the engine "has a step only when
  `S.eng = Busy(c, a, b)`" (R60). No step of the machine raises it. Safe. -/
  | engineIdle
  /-- Raised by a command that finds no entry in a table that should hold one; only a state outside the invariant of
  `Safety.lean` has such a table (U9: "`fault` if read. No rule reads them"). Safe. -/
  | tableEntryMissing
  deriving DecidableEq, Repr

/-- Why the model gives a command no meaning. -/
inductive Refusal where
  /-- Raised by `exec` for a constructor whose arm has no meaning yet. Safe. -/
  | notModelled (mnemonic : String)
  /-- Raised by RDSA and DECODE.SA where the standard array is needed and the codeword list repeats a word: "a model
  refuses RDSA and DECODE.SA for such a G" (R134, U4); possible only with P_SF_CHECK = 0. Safe. -/
  | dependentRows
  deriving DecidableEq, Repr

/-- The state: every piece of architectural state of 10_state.md, then the model's own fields. -/
structure State where
  /-- the parameters N_MAX, P_SF_CHECK, P_ST_CHECK (R5); configuration, carried here so that a model takes them as an
  argument (assumption 3); read through ID (R23) -/
  cfg : Params
  /-- CTRL.IE (R24) -/
  ie : Bool
  /-- STATUS.DONE (R25) -/
  done : Bool
  /-- STATUS.OVERRUN (R25) -/
  overrun : Bool
  /-- STATUS.ERR (R25, R221); `none` is OK -/
  err : Option ErrorKind
  /-- S.lastcmd, read at CMD (R26) -/
  lastcmd : Reg
  /-- OPA (R27) -/
  opa : Reg
  /-- OPB (R27) -/
  opb : Reg
  /-- RES0 (R28) -/
  res0 : Reg
  /-- RES1 (R28) -/
  res1 : Reg
  /-- CMDCNT (R29) -/
  cmdcnt : Reg
  /-- the staging rows S.gs[0 .. N_MAX - 1] (R30); `none` is valid = 0 -/
  gs : List (Option StagedRow)
  /-- S.loaded with the code instance and its caches (R31, R33); `none` is S.loaded = 0 -/
  code : Option Code
  /-- S.eng (R35) -/
  eng : Engine
  /-- the level of the reset input, which the platform drives: whether it is held asserted (R250) -/
  inReset : Bool
  /-- model's own: how many host steps may still come before the command in flight completes (assumption 1) -/
  delay : Nat
  /-- model's own: how many commands have been accepted, the argument of the free value `Config.latency` -/
  tick : Nat
  /-- model's own: what is still to reach the block from outside, in program order (assumption 4) -/
  inputs : List Input
  /-- model's own: the value the host's last read returned (R89) -/
  lastRead : Option Reg
  deriving DecidableEq, Repr

/-- The reset state of a block with the parameters `p`: the table of R38, the reset input released (assumption 12), with
nothing to come from outside. -/
def State.resetWith (p : Params) : State where
  cfg := p
  ie := false
  done := false
  overrun := false
  err := none
  lastcmd := 0
  opa := 0
  opb := 0
  res0 := 0
  res1 := 0
  cmdcnt := 0
  gs := List.replicate p.nMax none
  code := none
  eng := .idle
  inReset := false
  delay := 0
  tick := 0
  inputs := []
  lastRead := none

/-- The machine right after reset (R38), with this spec's parameter values (R5). -/
def State.reset : State := State.resetWith Params.spec

end Sys2Proof.Machine
end

