-- ==== Sys2Proof/Machine/Flags.lean ====
section
/-! DEFINITION. The flags: the fields of STATUS (R25), CTRL (R24), ID (R23), the error codes (R221) and the interrupt
output (R230). -/

namespace Sys2Proof.Machine

/-- The error code of an outcome, STATUS.ERR (R221). -/
def errorCode : Option ErrorKind → BitVec 4
  | none => 0
  | some .malformedInput => 1
  | some .dimensionMismatch => 2
  | some .invalidCode => 3
  | some .propertyDerivationFailed => 4
  | some .uncorrectableError => 5
  | some .lookupTableCorrupt => 6
  | some .notLoaded => 7
  | some .notStandardForm => 8
  | some .indexOutOfRange => 9
  | some .illegalCommand => 10

/-- STATUS.BUSY: 1 exactly when the engine is not idle (R35). -/
def busyFlag (s : State) : Bool :=
  match s.eng with
  | .idle => false
  | .busy _ _ _ => true

/-- STATUS.LOADED, S.loaded (R31). -/
def loadedFlag (s : State) : Bool := s.code.isSome

/-- STATUS.CW_VALID: "1 exactly when LOADED is 1" (R25). -/
def cwValid (s : State) : Bool := s.code.isSome

/-- STATUS.H_VALID (R25, R33). -/
def hValid (s : State) : Bool :=
  match s.code with
  | none => false
  | some c => c.H.isSome

/-- STATUS.SA_VALID (R25, R33). -/
def saValid (s : State) : Bool :=
  match s.code with
  | none => false
  | some c => c.sa.isSome

/-- STATUS.ST_VALID (R25, R33). -/
def stValid (s : State) : Bool :=
  match s.code with
  | none => false
  | some c => c.st.isSome

/-- The STATUS register, bit 31 first (R25). -/
def statusWord (s : State) : Reg :=
  (0 : BitVec 12) ++ BitVec.ofBool (stValid s) ++ BitVec.ofBool (saValid s) ++ BitVec.ofBool (hValid s)
    ++ BitVec.ofBool (cwValid s) ++ (0 : BitVec 4) ++ errorCode s.err ++ (0 : BitVec 4) ++ BitVec.ofBool (loadedFlag s)
    ++ BitVec.ofBool s.overrun ++ BitVec.ofBool s.done ++ BitVec.ofBool (busyFlag s)

/-- The CTRL register as it reads: IE, and SRST reads 0 (R24). -/
def ctrlWord (s : State) : Reg := (0 : BitVec 31) ++ BitVec.ofBool s.ie

/-- The ID register (R23). -/
def idWord (p : Params) : Reg :=
  (0x4C43 : BitVec 16) ++ BitVec.ofNat 8 p.nMax ++ (0 : BitVec 6) ++ BitVec.ofBool p.stCheck ++ BitVec.ofBool p.sfCheck

/-- The interrupt output `IRQ = CTRL.IE AND STATUS.DONE`, a function of the state (R230, R37). -/
def irq (s : State) : Bool := s.ie && s.done

end Sys2Proof.Machine
end

