-- ==== Sys2Proof/Machine/Words.lean ====
section
/-! DEFINITION. The word and matrix algebra of 00_scope.md (R8 to R11): weight, distance, the order ≺ and its scan,
row vector times matrix. -/

namespace Sys2Proof.Machine

/-- The weight `wt` of R9, "|{ i : w⟨i⟩ = 1 }|"; position i of a word is `getMsbD i` (R8). -/
def weight {L : Nat} (w : BitVec L) : Nat := (List.range L).countP fun i => w.getMsbD i

/-- `dist(a, b) = wt(a ⊕ b)` (R9). -/
def distance {L : Nat} (a b : BitVec L) : Nat := weight (a ^^^ b)

/-- `a ⊕ b` of R9 for words of one role. -/
def addWord {role : Role} {L : Nat} (a b : BitWord role L) : BitWord role L := ⟨a.bits ^^^ b.bits⟩

/-- `0^L` (R8). -/
def zeroWord (role : Role) (L : Nat) : BitWord role L := ⟨0⟩

/-- `a ≺ b` of R10: smaller weight first, then smaller integer. -/
def precedes {L : Nat} (a b : BitVec L) : Bool :=
  weight a < weight b || (weight a == weight b && a.toNat < b.toNat)

/-- `left_k(w)` of R9: the word of length k with the leftmost k bits of w, `int(w) >> (L − k)`. -/
def leftBits {L : Nat} (k : Nat) (w : BitVec L) : BitVec k := BitVec.ofNat k (w.toNat >>> (L - k))

/-- A word put in front of an ascending (by `int`) list, at its place. -/
def insertByInt {role : Role} {L : Nat} (w : BitWord role L) : List (BitWord role L) → List (BitWord role L)
  | [] => [w]
  | v :: vs => if v.bits.toNat < w.bits.toNat then v :: insertByInt w vs else w :: v :: vs

/-- The list in ascending `int` order. -/
def sortByInt {role : Role} {L : Nat} (ws : List (BitWord role L)) : List (BitWord role L) := ws.foldr insertByInt []

/-- The list in ascending ≺ order (R10): by weight, and the words of one weight by `int`. -/
def sortWords {role : Role} {L : Nat} (ws : List (BitWord role L)) : List (BitWord role L) :=
  (List.range (L + 1)).flatMap fun n => sortByInt (ws.filter fun w => weight w.bits == n)

/-- The words `word_L(0), word_L(1), … word_L(2^L − 1)` (R8). -/
def allWords (role : Role) (L : Nat) : List (BitWord role L) := (List.range (2 ^ L)).map fun v => ⟨BitVec.ofNat L v⟩

/-- `scan_L` of R10: all words of length L in ascending ≺ order. -/
def scanWords (role : Role) (L : Nat) : List (BitWord role L) := sortWords (allWords role L)

/-- The word whose bits, position 0 first, are the list (R8: `int(w) = Σ w⟨i⟩ · 2^(L−1−i)`). -/
def wordOfBits (L : Nat) (bs : List Bool) : BitVec L := BitVec.ofNat L (bs.foldl (fun v b => 2 * v + b.toNat) 0)

/-- The XOR over j of `a⟨j⟩ AND b⟨j⟩`, one entry of a product over GF(2) (R11). -/
def dotProduct {L : Nat} (a b : BitVec L) : Bool :=
  (List.range L).foldl (fun acc j => acc ^^ (a.getMsbD j && b.getMsbD j)) false

/-- The XOR of the rows selected by the 1 bits of `u` from position r on (R122). -/
def combineRows {k n : Nat} (u : BitVec k) : Nat → List (BitVec n) → BitVec n
  | _, [] => 0
  | r, g :: rest => (if u.getMsbD r then g else 0) ^^^ combineRows u (r + 1) rest

/-- The row vector `u` times the matrix with the given rows, `u · M` (R11). -/
def vecMul {k n : Nat} (u : BitVec k) (rows : List (BitVec n)) : BitVec n := combineRows u 0 rows

/-- The entry `M⟨r, j⟩` of a matrix given by its rows (R11); a position outside the matrix reads 0. -/
def matEntry {n : Nat} (rows : List (BitVec n)) (r j : Nat) : Bool :=
  match rows[r]? with
  | some row => row.getMsbD j
  | none => false

end Sys2Proof.Machine
end

