-- ==== Sys2Proof/Machine/Operands.lean ====
section
/-! DEFINITION. The operand forms of R82 and the way a word travels in a register (R12, R100). -/

namespace Sys2Proof.Machine

/-- `operand(v, L)` of R100: the word of length L with value v, or nothing (MalformedInput) if L > N_MAX or v has a 1
bit at or above position L. -/
def operand (role : Role) (nMax : Nat) (v : Reg) (L : Nat) : Option (BitWord role L) :=
  if nMax < L then none
  else if 2 ^ L ≤ v.toNat then none
  else some ⟨BitVec.ofNat L v.toNat⟩

/-- The index or dimension form of R82: the latched value read as an unsigned 32-bit integer. -/
def indexOperand (v : Reg) : Nat := v.toNat

/-- `zext_32(int(w))`, a word result in a register (R12, R28). -/
def toReg {L : Nat} (w : BitVec L) : Reg := BitVec.ofNat 32 w.toNat

end Sys2Proof.Machine
end

