-- ==== Sys2Proof/Machine/Tables.lean ====
section
/-! DEFINITION. What the five units compute from a generator matrix: standard form (R120), encoding (R122), the
codeword list and the properties (R126, R127), the parity-check matrix and the syndrome (R150, R151), the standard
array (R170, R173) and the syndrome table (R190). Each is a function of the generator alone (R34). -/

namespace Sys2Proof.Machine

/-- `sf(G)` of R120: the first k columns of the k rows are the identity. -/
def standardForm {n : Nat} (k : Nat) (G : List (BitVec n)) : Bool :=
  (List.range k).all fun r => (List.range k).all fun j => matEntry G r j == decide (j = r)

/-- `G⟨r, j⟩ = 0 for all r, j` (R124). -/
def allZeroRows {n : Nat} (G : List (BitVec n)) : Bool := G.all fun g => g == 0

/-- `enc(u) = u · G` (R122): an information word to a code word. -/
def encodeWord {n k : Nat} (G : List (BitVec n)) (u : BitWord .information k) : BitWord .code n := ⟨vecMul u.bits G⟩

/-- `codeword_list(G)` of R126: the encodings of `word_k(0) .. word_k(2^k − 1)` in ascending (weight, int) order. -/
def codewordList {n : Nat} (k : Nat) (G : List (BitVec n)) : List (BitWord .code n) :=
  sortWords ((allWords .information k).map (encodeWord G))

/-- `min_distance(cw)` of R127: the weight of the first word of weight > 0, if there is one. -/
def minDistance {n : Nat} : List (BitWord .code n) → Option Nat
  | [] => none
  | c :: rest => if 0 < weight c.bits then some (weight c.bits) else minDistance rest

/-- The parity-check matrix `H = [Aᵗ | I_{n−k}]` of R150; row i is column k + i of G and then row i of the identity. -/
def parityMatrix {n : Nat} (k : Nat) (G : List (BitVec n)) : List (BitVec n) :=
  (List.range (n - k)).map fun i =>
    wordOfBits n ((List.range n).map fun j => if j < k then matEntry G j (k + i) else decide (j - k = i))

/-- The syndrome function `syn(r)` of R151 for a matrix of m rows. -/
def syndromeWord {n : Nat} (m : Nat) (H : List (BitVec n)) (r : BitWord .code n) : BitWord .syndrome m :=
  ⟨wordOfBits m (H.map fun h => dotProduct r.bits h)⟩

/-- Whether a word occurs twice in the list; in a codeword list, whether G has dependent rows (R134, D31). -/
def hasRepeat {n : Nat} : List (BitWord .code n) → Bool
  | [] => false
  | w :: rest => rest.contains w || hasRepeat rest

/-- The nonzero codewords in codeword-list order, `row0` of R170. -/
def rowZeroColumns {n : Nat} (cw : List (BitWord .code n)) : List (BitWord .code n) :=
  cw.filter fun c => c != zeroWord .code n

/-- The row of leader L: `[L] ++ [ L ⊕ c for c in row0 ]` (R170). -/
def cosetRow {n : Nat} (row0 : List (BitWord .code n)) (L : BitWord .code n) : List (BitWord .code n) :=
  L :: row0.map (addWord L)

/-- The words of the list that are not in the row. -/
def dropUsed {n : Nat} (row unused : List (BitWord .code n)) : List (BitWord .code n) :=
  unused.filter fun x => !row.contains x

/-- The rows still to build, at most the given number: each leader is the ≺-least unused word, which is the first of
`unused` because that list stays in ≺ order (R170). -/
def cosetRows {n : Nat} (row0 : List (BitWord .code n)) : Nat → List (BitWord .code n) → List (List (BitWord .code n))
  | 0, _ => []
  | _ + 1, [] => []
  | rows + 1, L :: unused => cosetRow row0 L :: cosetRows row0 rows (dropUsed (cosetRow row0 L) (L :: unused))

/-- The standard array of R170: row 0 has the zero word as its leader, then 2^(n−k) − 1 more rows. -/
def standardArray {n : Nat} (k : Nat) (cw : List (BitWord .code n)) : List (List (BitWord .code n)) :=
  let first := zeroWord .code n :: rowZeroColumns cw
  first :: cosetRows (rowZeroColumns cw) (2 ^ (n - k) - 1) (dropUsed first (scanWords .code n))

/-- `S.sa[j][p]` (R170), if the array has it. -/
def arrayEntry {n : Nat} (sa : List (List (BitWord .code n))) (j p : Nat) : Option (BitWord .code n) :=
  match sa[j]? with
  | some row => row[p]?
  | none => none

/-- `locate(r)` of R173 among the rows from row j on: the pair (row, position) where r stands. -/
def locateFrom {n : Nat} (r : BitWord .code n) : Nat → List (List (BitWord .code n)) → Option (Nat × Nat)
  | _, [] => none
  | j, row :: rest => if row.contains r then some (j, row.idxOf r) else locateFrom r (j + 1) rest

/-- `locate(r)` of R173. -/
def locate {n : Nat} (sa : List (List (BitWord .code n))) (r : BitWord .code n) : Option (Nat × Nat) :=
  locateFrom r 0 sa

/-- `S.st[s]`, if s is in `dom(S.st)` (R190, R192). -/
def tableLookup {n m : Nat} (st : List (BitWord .syndrome m × BitWord .code n)) (s : BitWord .syndrome m) :
    Option (BitWord .code n) :=
  match st with
  | [] => none
  | (t, x) :: rest => if t = s then some x else tableLookup rest s

/-- The loop of R190 over the words still to scan: a word enters the table when its syndrome is new, and the loop
stops at `rows` entries. -/
def fillTable {n m : Nat} (H : List (BitVec n)) (rows : Nat) :
    List (BitWord .code n) → List (BitWord .syndrome m × BitWord .code n) → List (BitWord .syndrome m × BitWord .code n)
  | [], st => st
  | x :: rest, st =>
    if st.length = rows then st
    else if (tableLookup st (syndromeWord m H x)).isSome then fillTable H rows rest st
    else fillTable H rows rest (st ++ [(syndromeWord m H x, x)])

/-- The syndrome table of R190 for a matrix H of m rows. -/
def syndromeTable {n : Nat} (m : Nat) (H : List (BitVec n)) : List (BitWord .syndrome m × BitWord .code n) :=
  fillTable H (2 ^ m) (scanWords .code n) []

end Sys2Proof.Machine
end

