-- ==== Sys2Proof/Machine/Ops.lean ====
section
/-! DEFINITION. The named operations over the state: completion and errors (R220, R222), the checks every command
shares (R100, R223, R224), the caches (R34), the registers of the window (R22 to R29), acceptance (R55, R56) and
reset (R250, R251). -/

namespace Sys2Proof.Machine

/-! ### Writes of one piece of state -/

/-- RES0 (R28). -/
def setRes0 (v : Reg) (s : State) : State := { s with res0 := v }

/-- RES1 (R28). -/
def setRes1 (v : Reg) (s : State) : State := { s with res1 := v }

/-- The code instance with its caches (R31, R33). -/
def setCode (c : Code) (s : State) : State := { s with code := some c }

/-- One staging row (R30, R121). -/
def setStaged (r : Nat) (row : StagedRow) (s : State) : State := { s with gs := s.gs.set r (some row) }

/-! ### Completion -/

/-- The bookkeeping of a completion (R220): ERR, DONE, CMDCNT and the engine. -/
def finish (e : Option ErrorKind) (s : State) : State :=
  { s with err := e, done := true, cmdcnt := s.cmdcnt + 1, eng := .idle }

/-- The command completes with OK in the state its result writes left (R220). -/
def succeed (s : State) : Host.Outcome State Fault Refusal := .next (finish none s)

/-- `raise E` (R222): the command completes with the error kind E; `s` differs from the state the command found by at
most the caches it built. This is the block's whole exception entry: it takes no traps (R232). -/
def raise (e : ErrorKind) (s : State) : Host.Outcome State Fault Refusal := .next (finish (some e) s)

/-! ### The shared checks, in the order of R223 -/

/-- The values of OPA and OPB latched at acceptance (R35, R55), given to a command's rule. -/
def withLatched (s : State) (f : Reg → Reg → Host.Outcome State Fault Refusal) : Host.Outcome State Fault Refusal :=
  match s.eng with
  | .busy _ a b => f a b
  | .idle => .fault .engineIdle

/-- The code instance, or NotLoaded (R224). -/
def withCode (s : State) (f : Code → Host.Outcome State Fault Refusal) : Host.Outcome State Fault Refusal :=
  match s.code with
  | some c => f c
  | none => raise .notLoaded s

/-- The operand word of length L, or MalformedInput (R100). -/
def withWord (role : Role) (v : Reg) (L : Nat) (s : State) (f : BitWord role L → Host.Outcome State Fault Refusal) :
    Host.Outcome State Fault Refusal :=
  match operand role s.cfg.nMax v L with
  | some w => f w
  | none => raise .malformedInput s

/-- The operand word again once its length is known to be the one the command requires, or DimensionMismatch
(R223 step 4). -/
def withLength {role : Role} {L : Nat} (w : BitWord role L) (required : Nat) (s : State)
    (f : BitWord role required → Host.Outcome State Fault Refusal) : Host.Outcome State Fault Refusal :=
  if h : L = required then f ⟨w.bits.cast h⟩ else raise .dimensionMismatch s

/-- The command goes on unless an index is outside its table: IndexOutOfRange (R223 step 5). -/
def withinRange (inRange : Bool) (s : State) (k : Host.Outcome State Fault Refusal) : Host.Outcome State Fault Refusal :=
  if inRange then k else raise .indexOutOfRange s

/-- An entry of an internal table that the checks before it have put in range (U9). -/
def withEntry {α : Type} (entry : Option α) (f : α → Host.Outcome State Fault Refusal) :
    Host.Outcome State Fault Refusal :=
  match entry with
  | some x => f x
  | none => .fault .tableEntryMissing

/-! ### The lazily built caches (R34) -/

/-- S.H: the cached matrix, or the one the build of R150 gives. -/
def parityOf (c : Code) : List (BitVec c.n) :=
  match c.H with
  | some H => H
  | none => parityMatrix c.k c.G

/-- `if S.h_valid = 0: build H` (R150). -/
def withParity (c : Code) : Code := { c with H := some (parityOf c) }

/-- S.sa: the cached array, or the one the build of R170 gives. -/
def arrayOf (c : Code) : List (List (BitWord .code c.n)) :=
  match c.sa with
  | some sa => sa
  | none => standardArray c.k c.cw

/-- `if S.sa_valid = 0: build the standard array` (R170). -/
def withArray (c : Code) : Code := { c with sa := some (arrayOf c) }

/-- S.st: the cached table, or the one the build of R190 gives. -/
def tableOf (c : Code) : List (BitWord .syndrome (c.n - c.k) × BitWord .code c.n) :=
  match c.st with
  | some st => st
  | none => syndromeTable (c.n - c.k) (parityOf c)

/-- `if S.st_valid = 0: build the syndrome table`, which builds H first if it is not valid (R190). -/
def withTable (c : Code) : Code :=
  match c.st with
  | some _ => c
  | none => { c with H := some (parityOf c), st := some (tableOf c) }

/-- The standard array is needed: refused for a generator with dependent rows (R134, D31). -/
def withStandardArray (c : Code) (k : Host.Outcome State Fault Refusal) : Host.Outcome State Fault Refusal :=
  if hasRepeat c.cw then .refused .dependentRows else k

/-! ### The register window -/

/-- The registers of the window (R22). -/
inductive RegName where
  | id
  | ctrl
  | status
  | cmd
  | opa
  | opb
  | res0
  | res1
  | cmdcnt
  | reserved
  deriving DecidableEq, Repr

/-- The register at a 4-byte-aligned offset (R22); 0x24 to 0xFC are reserved (R29). -/
def regAt (off : BitVec 8) : RegName :=
  match off.toNat with
  | 0x00 => .id
  | 0x04 => .ctrl
  | 0x08 => .status
  | 0x0C => .cmd
  | 0x10 => .opa
  | 0x14 => .opb
  | 0x18 => .res0
  | 0x1C => .res1
  | 0x20 => .cmdcnt
  | _ => .reserved

/-- The only access the block admits: 32 bits, at a multiple of 4 (R53). -/
def admitted (off : BitVec 8) (bytes : Nat) : Bool := bytes == 4 && off.toNat % 4 == 0

/-- The offset in the window of a byte address of the host's space, if it lies there (R50, R57). -/
def windowOffset (addr : Nat) : Option (BitVec 8) :=
  if Config.base ≤ addr ∧ addr < Config.base + 256 then some (BitVec.ofNat 8 (addr - Config.base)) else none

/-- Byte i of a register on the host's byte lanes: bits `[8i+7 : 8i]`, little-endian (R52). -/
def byteLane (v : Reg) (i : Fin 4) : BitVec 8 := v.extractLsb' (8 * i.val) 8

/-- The value a host read returns; a read has no side effect (R54). -/
def readReg (s : State) : RegName → Reg
  | .id => idWord s.cfg
  | .ctrl => ctrlWord s
  | .status => statusWord s
  | .cmd => s.lastcmd
  | .opa => s.opa
  | .opb => s.opb
  | .res0 => s.res0
  | .res1 => s.res1
  | .cmdcnt => s.cmdcnt
  | .reserved => 0

/-- Every piece of the block's state takes its reset value (R250, R251, R38). The parameters stay (R37), and what is
outside the block (the level of the reset input, the host's program, its last read) is not reset. A command in flight is
aborted. -/
def resetBlock (s : State) : State :=
  { State.resetWith s.cfg with inReset := s.inReset, tick := s.tick, inputs := s.inputs, lastRead := s.lastRead }

/-- The platform asserts the reset input: the reset of R38, held until the release (R250). -/
def assertReset (s : State) : State := { resetBlock s with inReset := true }

/-- The platform releases the reset input: every piece of state takes the value of R38 again (R250). A release of an
input that is not asserted is no event (assumption 12). -/
def releaseReset (s : State) : State := if s.inReset then { resetBlock s with inReset := false } else s

/-- A CMD write: acceptance when the engine is idle (R55), OVERRUN and nothing else when it is busy (R56). -/
def submit (v : Reg) (s : State) : State :=
  match s.eng with
  | .idle =>
    { s with eng := .busy v s.opa s.opb, lastcmd := v, delay := Config.latency s.tick, tick := s.tick + 1 }
  | .busy _ _ _ => { s with overrun := true }

/-- A STATUS write: 1 clears DONE (bit 1) and OVERRUN (bit 2), nothing else changes (R25). -/
def acknowledge (v : Reg) (s : State) : State :=
  { s with done := s.done && !v.getLsbD 1, overrun := s.overrun && !v.getLsbD 2 }

/-- A CTRL write: SRST = 1 is the soft reset, SRST = 0 only writes IE (R24, R251). -/
def writeCtrl (v : Reg) (s : State) : State := if v.getLsbD 1 then resetBlock s else { s with ie := v.getLsbD 0 }

/-- A host write of a register (R22, R54): writes to read-only registers and reserved offsets are ignored. -/
def writeReg (r : RegName) (v : Reg) (s : State) : State :=
  match r with
  | .id => s
  | .ctrl => writeCtrl v s
  | .status => acknowledge v s
  | .cmd => submit v s
  | .opa => { s with opa := v }
  | .opb => { s with opb := v }
  | .res0 => s
  | .res1 => s
  | .cmdcnt => s
  | .reserved => s

/-- A host write as the block takes it: while the reset input is asserted every piece of state keeps the value of R38
(R250), so the write leaves nothing. -/
def hostWrite (r : RegName) (v : Reg) (s : State) : State := if s.inReset then s else writeReg r v s

/-! ### The host's turn -/

/-- What one input does (R53 to R56, R91, R250). A `wait` reads STATUS and stays first in line while BUSY reads 1. -/
def perform (op : Input) (s : State) : Host.Outcome State Fault Refusal :=
  match op with
  | .read off bytes =>
    if admitted off bytes then .next { s with lastRead := some (readReg s (regAt off)) } else .fault .busError
  | .write off bytes v => if admitted off bytes then .next (hostWrite (regAt off) v s) else .fault .busError
  | .wait =>
    .next { s with
      lastRead := some (statusWord s)
      inputs := if busyFlag s then .wait :: s.inputs else s.inputs }
  | .assertReset => .next (assertReset s)
  | .releaseReset => .next (releaseReset s)

/-- The host's step: its next access in program order; with nothing to come the block does nothing (R240). -/
def hostTurn (s : State) : Host.Outcome State Fault Refusal :=
  match s.inputs with
  | [] => .next s
  | op :: rest => perform op { s with inputs := rest, delay := s.delay - 1 }

/-- Whether the engine takes the next step (R60): a command is in flight, and no host step is to come before its
completion. -/
def engineMoves (s : State) : Bool := busyFlag s && (s.delay == 0 || s.inputs.isEmpty)

end Sys2Proof.Machine
end

