-- ==== Sys2Proof/Machine/BitWordUnit.lean ====
section
/-! DEFINITION. The hamming_distance_lut unit: WEIGHT and HDIST (40_bit_word.md). The unit sees no role (R102: "a word
of any role may be given"); its operands are typed as code words. -/

namespace Sys2Proof.Machine

/-- WEIGHT (R102): RES0 is the Hamming weight of the OPA word. -/
def execWeight (len : Nat) (s : State) : Host.Outcome State Fault Refusal :=
  withLatched s fun a _ =>
  withWord .code a len s fun w =>
  succeed (setRes0 (BitVec.ofNat 32 (weight w.bits)) s)

/-- HDIST (R103): RES0 is the Hamming distance of the OPA and OPB words; the OPA word is checked first. -/
def execHdist (len : Nat) (s : State) : Host.Outcome State Fault Refusal :=
  withLatched s fun a b =>
  withWord .code a len s fun x =>
  withWord .code b len s fun y =>
  succeed (setRes0 (BitVec.ofNat 32 (distance x.bits y.bits)) s)

end Sys2Proof.Machine
end

