-- ==== Sys2Proof/Machine/LinearCode.lean ====
section
/-! DEFINITION. The linear_code_encoder unit: GROW, GLOAD, PROPS, RDG, ENCODE and RDCW (41_linear_code.md). -/

namespace Sys2Proof.Machine

/-- GROW (R121): stage the OPA word as row OPB; the code instance does not change (R32). DESIGN CHOICE (assumption 13,
safe): R121 and R86 give the row word no role, and the model types it as a code word, being a row of n bits. -/
def execGrow (len : Nat) (s : State) : Host.Outcome State Fault Refusal :=
  withLatched s fun a b =>
  withWord .code a len s fun w =>
  withinRange (indexOperand b < s.cfg.nMax) s <|
  succeed (setStaged (indexOperand b) ⟨len, w.bits⟩ s)

/-- A staged row as a row of n columns, if it is valid and has that length (R124). -/
def stagedRow (n : Nat) : Option StagedRow → Option (BitVec n)
  | none => none
  | some g => if h : g.len = n then some (g.row.cast h) else none

/-- The first k staged rows as a matrix of n columns, if each is present with that length (R124). -/
def stagedMatrix (n : Nat) : Nat → List (Option StagedRow) → Option (List (BitVec n))
  | 0, _ => some []
  | _ + 1, [] => none
  | k + 1, g :: gs =>
    match stagedRow n g, stagedMatrix n k gs with
    | some row, some rows => some (row :: rows)
    | _, _ => none

/-- The instance a GLOAD installs (R124): only the codeword list is valid. -/
def newCode (n k : Nat) (G : List (BitVec n)) (cw : List (BitWord .code n)) (d : Nat) : Code where
  n := n
  k := k
  G := G
  d := d
  det := d - 1
  cor := (d - 1) / 2
  cw := cw
  H := none
  sa := none
  st := none

/-- `from_generator(G)` on the k×n matrix of staged rows: the last checks of R124 and the commit. -/
def installCode (n k : Nat) (G : List (BitVec n)) (s : State) : Host.Outcome State Fault Refusal :=
  if allZeroRows G then raise .invalidCode s
  else if s.cfg.sfCheck && !standardForm k G then raise .notStandardForm s
  else
    match minDistance (codewordList k G) with
    | none => raise .propertyDerivationFailed s
    | some d => succeed (setCode (newCode n k G (codewordList k G) d) s)

/-- GLOAD (R124): LEN is n, OPA is k; every check precedes the commit, in the order of R223. -/
def execGload (len : Nat) (s : State) : Host.Outcome State Fault Refusal :=
  withLatched s fun a _ =>
  if s.cfg.nMax < len then raise .dimensionMismatch s
  else if len < indexOperand a then raise .dimensionMismatch s
  else if indexOperand a = 0 then raise .invalidCode s
  else
    match stagedMatrix len (indexOperand a) s.gs with
    | none => raise .dimensionMismatch s
    | some G => installCode len (indexOperand a) G s

/-- PROPS (R128): RES0 = {0, d, k, n} and RES1 = {0, max_correct, max_detect} in byte fields. -/
def execProps (s : State) : Host.Outcome State Fault Refusal :=
  withLatched s fun _ _ =>
  withCode s fun c =>
  succeed (setRes1 ((0 : BitVec 16) ++ BitVec.ofNat 8 c.cor ++ BitVec.ofNat 8 c.det)
    (setRes0 ((0 : BitVec 8) ++ BitVec.ofNat 8 c.d ++ BitVec.ofNat 8 c.k ++ BitVec.ofNat 8 c.n) s))

/-- RDG (R129): RES0 is row OPA of the installed generator. -/
def execRdg (s : State) : Host.Outcome State Fault Refusal :=
  withLatched s fun a _ =>
  withCode s fun c =>
  withinRange (indexOperand a < c.k) s <|
  withEntry c.G[indexOperand a]? fun row =>
  succeed (setRes0 (toReg row) s)

/-- ENCODE (R130): RES0 is the codeword of the OPA information word; no cache is built. -/
def execEncode (len : Nat) (s : State) : Host.Outcome State Fault Refusal :=
  withLatched s fun a _ =>
  withCode s fun c =>
  withWord .information a len s fun w =>
  withLength w c.k s fun u =>
  succeed (setRes0 (toReg (encodeWord c.G u).bits) s)

/-- RDCW (R131): RES0 is the codeword at position OPA of the sorted list. -/
def execRdcw (s : State) : Host.Outcome State Fault Refusal :=
  withLatched s fun a _ =>
  withCode s fun c =>
  withinRange (indexOperand a < 2 ^ c.k) s <|
  withEntry c.cw[indexOperand a]? fun w =>
  succeed (setRes0 (toReg w.bits) s)

end Sys2Proof.Machine
end

