-- ==== Sys2Proof/Machine/StandardArray.lean ====
section
/-! DEFINITION. The standard_array_constructor unit: RDSA and DECODE.SA (43_standard_array.md). -/

namespace Sys2Proof.Machine

/-- RDSA (R174): RES0 is the word at row OPA and position OPB of the standard array, built if need be. -/
def execRdsa (s : State) : Host.Outcome State Fault Refusal :=
  withLatched s fun a b =>
  withCode s fun c =>
  withinRange (indexOperand a < 2 ^ (c.n - c.k) && indexOperand b < 2 ^ c.k) s <|
  withStandardArray c <|
  withEntry (arrayEntry (arrayOf c) (indexOperand a) (indexOperand b)) fun w =>
  succeed (setRes0 (toReg w.bits) (setCode (withArray c) s))

/-- What standard-array decoding finds for r (R173): the leader `S.sa[j][0]` of its row, and the corrected codeword,
`0^n` for a leader (C2) and `S.sa[0][p]` for column p. -/
def arrayDecode {n : Nat} (sa : List (List (BitWord .code n))) (r : BitWord .code n) :
    Option (BitWord .code n × BitWord .code n) :=
  match locate sa r with
  | none => none
  | some (j, p) =>
    match arrayEntry sa j 0, (if p = 0 then some (zeroWord .code n) else arrayEntry sa 0 p) with
    | some e, some c => some (e, c)
    | _, _ => none

/-- DECODE.SA (R175, R176): RES0 is the information word of the corrected codeword and RES1 the error pattern, unless
the leader's weight exceeds max_errors_detect. The array is kept either way. -/
def execDecodeSa (len : Nat) (s : State) : Host.Outcome State Fault Refusal :=
  withLatched s fun a _ =>
  withCode s fun c =>
  withWord .code a len s fun w =>
  withLength w c.n s fun r =>
  withStandardArray c <|
  withEntry (arrayDecode (arrayOf c) r) fun found =>
  if c.det < weight found.1.bits then raise .uncorrectableError (setCode (withArray c) s)
  else
    succeed (setRes1 (toReg found.1.bits)
      (setRes0 (toReg (leftBits c.k found.2.bits)) (setCode (withArray c) s)))

end Sys2Proof.Machine
end

