-- ==== Sys2Proof/Machine/ParityCheck.lean ====
section
/-! DEFINITION. The parity_check_matrix_gen unit: RDH, SYND and CONTAINS (42_parity_syndrome.md). -/

namespace Sys2Proof.Machine

/-- The syndrome of a word under the installed code (R151). -/
def syndromeOf (c : Code) (r : BitWord .code c.n) : BitWord .syndrome (c.n - c.k) :=
  syndromeWord (c.n - c.k) (parityOf c) r

/-- RDH (R152): RES0 is row OPA of H, built if need be. -/
def execRdh (s : State) : Host.Outcome State Fault Refusal :=
  withLatched s fun a _ =>
  withCode s fun c =>
  withinRange (indexOperand a < c.n - c.k) s <|
  withEntry (parityOf c)[indexOperand a]? fun row =>
  succeed (setRes0 (toReg row) (setCode (withParity c) s))

/-- SYND (R153): RES0 is the syndrome of the OPA word. -/
def execSynd (len : Nat) (s : State) : Host.Outcome State Fault Refusal :=
  withLatched s fun a _ =>
  withCode s fun c =>
  withWord .code a len s fun w =>
  withLength w c.n s fun r =>
  succeed (setRes0 (toReg (syndromeOf c r).bits) (setCode (withParity c) s))

/-- CONTAINS (R154): RES0 is 1 if the OPA word is in the code and 0 if not; a word of another length is "not
contained" and builds nothing. -/
def execContains (len : Nat) (s : State) : Host.Outcome State Fault Refusal :=
  withLatched s fun a _ =>
  withCode s fun c =>
  withWord .code a len s fun w =>
  if h : len = c.n then
    succeed (setRes0 (if syndromeOf c ⟨w.bits.cast h⟩ = zeroWord .syndrome (c.n - c.k) then 1 else 0)
      (setCode (withParity c) s))
  else succeed (setRes0 0 s)

end Sys2Proof.Machine
end

