-- ==== Sys2Proof/Machine/SyndromeDecoder.lean ====
section
/-! DEFINITION. The syndrome_decoder unit: RDST and DECODE.ST (44_syndrome_decoder.md). -/

namespace Sys2Proof.Machine

/-- RDST (R193): RES0 is the leader of the syndrome whose integer value is OPA; the table is built if need be. -/
def execRdst (s : State) : Host.Outcome State Fault Refusal :=
  withLatched s fun a _ =>
  withCode s fun c =>
  withinRange (indexOperand a < 2 ^ (c.n - c.k)) s <|
  withEntry (tableLookup (tableOf c) ⟨BitVec.ofNat (c.n - c.k) (indexOperand a)⟩) fun x =>
  succeed (setRes0 (toReg x.bits) (setCode (withTable c) s))

/-- DECODE.ST (R194, R195): RES0 is the leftmost k bits of r ⊕ e and RES1 is e, the entry of r's syndrome; with
P_ST_CHECK = 1 a leader heavier than max_errors_detect is UncorrectableError. The table is kept either way. -/
def execDecodeSt (len : Nat) (s : State) : Host.Outcome State Fault Refusal :=
  withLatched s fun a _ =>
  withCode s fun c =>
  withWord .code a len s fun w =>
  withLength w c.n s fun r =>
  match tableLookup (tableOf c) (syndromeOf c r) with
  | none => raise .lookupTableCorrupt (setCode (withTable c) s)
  | some e =>
    if s.cfg.stCheck && c.det < weight e.bits then raise .uncorrectableError (setCode (withTable c) s)
    else
      succeed (setRes1 (toReg e.bits)
        (setRes0 (toReg (leftBits c.k (addWord r e).bits)) (setCode (withTable c) s)))

end Sys2Proof.Machine
end

