-- ==== Sys2Proof/Machine/System.lean ====
section
/-! DEFINITION. The system commands: NOP alone (45_system.md). -/

namespace Sys2Proof.Machine

/-- NOP (R210): the command completes with OK and nothing else. -/
def execNop (s : State) : Host.Outcome State Fault Refusal :=
  withLatched s fun _ _ => succeed s

end Sys2Proof.Machine
end

