-- ==== Sys2Proof/Machine/Dispatch.lean ====
section
/-! DEFINITION. Which meaning each command has (R85). -/

namespace Sys2Proof.Machine

def exec (i : Instr) (s : State) : Host.Outcome State Fault Refusal :=
  match i with
  | .nop => Sys2Proof.Machine.execNop s
  | .grow len => Sys2Proof.Machine.execGrow len s
  | .gload len => Sys2Proof.Machine.execGload len s
  | .encode len => Sys2Proof.Machine.execEncode len s
  | .synd len => Sys2Proof.Machine.execSynd len s
  | .contains len => Sys2Proof.Machine.execContains len s
  | .decodeSa len => Sys2Proof.Machine.execDecodeSa len s
  | .decodeSt len => Sys2Proof.Machine.execDecodeSt len s
  | .props => Sys2Proof.Machine.execProps s
  | .rdg => Sys2Proof.Machine.execRdg s
  | .rdh => Sys2Proof.Machine.execRdh s
  | .rdcw => Sys2Proof.Machine.execRdcw s
  | .rdsa => Sys2Proof.Machine.execRdsa s
  | .rdst => Sys2Proof.Machine.execRdst s
  | .weight len => Sys2Proof.Machine.execWeight len s
  | .hdist len => Sys2Proof.Machine.execHdist len s

end Sys2Proof.Machine
end

