-- ==== Sys2Proof/Machine/Engine.lean ====
section
/-! DEFINITION. The engine's step (R60, R220): the latched command word is decoded, and its command runs. -/

namespace Sys2Proof.Machine

/-- The completion of the command word c: IllegalCommand if it does not decode (R84, R87), else the command's rule. -/
def complete (c : Reg) (s : State) : Host.Outcome State Fault Refusal :=
  match decode c with
  | .ok i => exec i s
  | .error _ => raise .illegalCommand s

/-- The engine's step: the completion of the command in flight (R220). -/
def engineTurn (s : State) : Host.Outcome State Fault Refusal :=
  match s.eng with
  | .busy c _ _ => complete c s
  | .idle => .fault .engineIdle

/-- The state with the command word c accepted (R55) and due to complete in the very next step. -/
def acceptNow (c : Reg) (s : State) : State :=
  { s with eng := .busy c s.opa s.opb, lastcmd := c, delay := 0 }

end Sys2Proof.Machine
end

