-- ==== Sys2Proof/Machine/Step.lean ====
section
/-! DEFINITION. One step of the machine: one event of R61's total order, the engine's completion or the host's next
access. -/

namespace Sys2Proof.Machine

/-- One step (R60): the engine's if it moves, else the host's. -/
def step (s : State) : Host.Outcome State Fault Refusal :=
  if engineMoves s then engineTurn s else hostTurn s

/-- `s` with the command word w accepted and next to complete, so that the next step runs exactly it: the block fetches
nothing (R21), a command comes from the host's CMD write (R55). -/
def State.withFetchWord (s : State) (nbits w : Nat) : State := acceptNow (BitVec.ofNat 32 (w % 2 ^ nbits)) s

end Sys2Proof.Machine
end

