-- ==== Sys2Proof/Machine/HostAsm.lean ====
section
/-! DEFINITION. The host's assembly language: word literals (R88), statements (R89), the expansion of command
statements (R90) and pseudo-instructions (R91) into the accesses the block sees. -/

namespace Sys2Proof.Machine

/-- A word literal `w"b0b1…"`: its bits, position 0 first (R88). -/
abbrev WordLit := List Bool

/-- The literal of a string of '0' and '1'; any other character is rejected (R88, MalformedInput at string level). -/
def parseLit : List Char → Option WordLit
  | [] => some []
  | ch :: rest =>
    match ch, parseLit rest with
    | '0', some bs => some (false :: bs)
    | '1', some bs => some (true :: bs)
    | _, _ => none

/-- `int(x)` of a literal (R8). -/
def litInt (x : WordLit) : Nat := x.foldl (fun v b => 2 * v + b.toNat) 0

/-- The command statements of R90. -/
inductive CmdStmt where
  | nop
  | grow (r : Nat) (x : WordLit)
  | gload (n k : Nat)
  | encode (x : WordLit)
  | synd (x : WordLit)
  | contains (x : WordLit)
  | decodeSa (x : WordLit)
  | decodeSt (x : WordLit)
  | props
  | rdg (r : Nat)
  | rdh (r : Nat)
  | rdcw (i : Nat)
  | rdsa (j p : Nat)
  | rdst (s : Nat)
  | weight (x : WordLit)
  | hdist (x y : WordLit)
  deriving DecidableEq, Repr

/-- The statements of R89 and the pseudo-instructions of R91. -/
inductive Stmt where
  | sw (r : RegName) (v : Nat)
  | lw (r : RegName)
  | cmd (c : CmdStmt)
  | wait
  | ack
  | run (c : CmdStmt)
  | loadcode (n : Nat) (rows : List WordLit)
  | reset
  deriving DecidableEq, Repr

/-- The offset of a register that has a name in the language (R22, R89). -/
def regOffset : RegName → Option (BitVec 8)
  | .id => some 0x00
  | .ctrl => some 0x04
  | .status => some 0x08
  | .cmd => some 0x0C
  | .opa => some 0x10
  | .opb => some 0x14
  | .res0 => some 0x18
  | .res1 => some 0x1C
  | .cmdcnt => some 0x20
  | .reserved => none

/-- `sw` of an integer at an offset; an integer above 2^32 − 1 is rejected (R90). -/
def storeWord (off : BitVec 8) (v : Nat) : Option (List Input) :=
  if v < 2 ^ 32 then some [.write off 4 (BitVec.ofNat 32 v)] else none

/-- The command word `strat | (len << 8) | opc` written to CMD; a LEN above 31 is rejected (R90). -/
def storeCommand (strat len opc : Nat) : Option (List Input) :=
  if len ≤ 31 then storeWord 0x0C (strat ||| (len <<< 8) ||| opc) else none

/-- One list of accesses after another, unless either is rejected. -/
def andThen (x y : Option (List Input)) : Option (List Input) :=
  match x, y with
  | some xs, some ys => some (xs ++ ys)
  | _, _ => none

/-- The expansion of a command statement: its operands, then the command word (R90); `none` is a rejected statement. -/
def assembleCmd : CmdStmt → Option (List Input)
  | .nop => storeCommand 0 0 0x00
  | .grow r x => andThen (storeWord 0x10 (litInt x)) (andThen (storeWord 0x14 r) (storeCommand 0 x.length 0x01))
  | .gload n k => andThen (storeWord 0x10 k) (storeCommand 0 n 0x02)
  | .encode x => andThen (storeWord 0x10 (litInt x)) (storeCommand 0 x.length 0x03)
  | .synd x => andThen (storeWord 0x10 (litInt x)) (storeCommand 0 x.length 0x04)
  | .contains x => andThen (storeWord 0x10 (litInt x)) (storeCommand 0 x.length 0x05)
  | .decodeSa x => andThen (storeWord 0x10 (litInt x)) (storeCommand 0 x.length 0x06)
  | .decodeSt x => andThen (storeWord 0x10 (litInt x)) (storeCommand 0x00010000 x.length 0x06)
  | .props => storeCommand 0 0 0x07
  | .rdg r => andThen (storeWord 0x10 r) (storeCommand 0 0 0x08)
  | .rdh r => andThen (storeWord 0x10 r) (storeCommand 0 0 0x09)
  | .rdcw i => andThen (storeWord 0x10 i) (storeCommand 0 0 0x0A)
  | .rdsa j p => andThen (storeWord 0x10 j) (andThen (storeWord 0x14 p) (storeCommand 0 0 0x0B))
  | .rdst s => andThen (storeWord 0x10 s) (storeCommand 0 0 0x0C)
  | .weight x => andThen (storeWord 0x10 (litInt x)) (storeCommand 0 x.length 0x0D)
  | .hdist x y =>
    if x.length = y.length then
      andThen (storeWord 0x10 (litInt x)) (andThen (storeWord 0x14 (litInt y)) (storeCommand 0 x.length 0x0E))
    else none

/-- The value a statement writes to OPA, if it writes OPA (R90). -/
def opaWritten : CmdStmt → Option Nat
  | .nop => none
  | .grow _ x => some (litInt x)
  | .gload _ k => some k
  | .encode x => some (litInt x)
  | .synd x => some (litInt x)
  | .contains x => some (litInt x)
  | .decodeSa x => some (litInt x)
  | .decodeSt x => some (litInt x)
  | .props => none
  | .rdg r => some r
  | .rdh r => some r
  | .rdcw i => some i
  | .rdsa j _ => some j
  | .rdst s => some s
  | .weight x => some (litInt x)
  | .hdist x _ => some (litInt x)

/-- The value a statement writes to OPB, if it writes OPB (R90). -/
def opbWritten : CmdStmt → Option Nat
  | .nop => none
  | .grow r _ => some r
  | .gload _ _ => none
  | .encode _ => none
  | .synd _ => none
  | .contains _ => none
  | .decodeSa _ => none
  | .decodeSt _ => none
  | .props => none
  | .rdg _ => none
  | .rdh _ => none
  | .rdcw _ => none
  | .rdsa _ p => some p
  | .rdst _ => none
  | .weight _ => none
  | .hdist _ y => some (litInt y)

/-- The command a statement submits (R85, R90). -/
def commandOf : CmdStmt → Instr
  | .nop => .nop
  | .grow _ x => .grow x.length
  | .gload n _ => .gload n
  | .encode x => .encode x.length
  | .synd x => .synd x.length
  | .contains x => .contains x.length
  | .decodeSa x => .decodeSa x.length
  | .decodeSt x => .decodeSt x.length
  | .props => .props
  | .rdg _ => .rdg
  | .rdh _ => .rdh
  | .rdcw _ => .rdcw
  | .rdsa _ _ => .rdsa
  | .rdst _ => .rdst
  | .weight x => .weight x.length
  | .hdist x _ => .hdist x.length

/-- `run`: the command statement, then `wait` (R91). -/
def assembleRun (c : CmdStmt) : Option (List Input) := andThen (assembleCmd c) (some [.wait])

/-- The GROWs of `loadcode` from row r on (R91). -/
def assembleRows : Nat → List WordLit → Option (List Input)
  | _, [] => some []
  | r, x :: rest => andThen (assembleRun (.grow r x)) (assembleRows (r + 1) rest)

/-- The accesses of one statement (R89 to R91); `none` is a statement the assembler rejects. -/
def assemble : Stmt → Option (List Input)
  | .sw r v =>
    match regOffset r with
    | some off => storeWord off v
    | none => none
  | .lw r =>
    match regOffset r with
    | some off => some [.read off 4]
    | none => none
  | .cmd c => assembleCmd c
  | .wait => some [.wait]
  | .ack => storeWord 0x08 0x00000006
  | .run c => assembleRun c
  | .loadcode n rows => andThen (assembleRows 0 rows) (assembleRun (.gload n rows.length))
  | .reset => storeWord 0x04 0x00000002

/-- The accesses of a program, a sequence of statements (R89). -/
def assembleProgram : List Stmt → Option (List Input)
  | [] => some []
  | st :: rest => andThen (assemble st) (assembleProgram rest)

end Sys2Proof.Machine
end

