-- ==== Sys2Proof/Safety.lean ====
section
/-! DEFINITION. The terms claims use: the invariant of the block's state, completion written out from R220, the host's
duties and the end of a run (R241, R268). -/

namespace Sys2Proof.Machine

/-! ### The reset state -/

/-- The table of R38, row by row, for a block with the parameters the state carries. -/
structure IsResetState (s : State) : Prop where
  id : s.cfg.Allowed → (readReg s .id).toNat =
    0x4C43 * 65536 + s.cfg.nMax * 256 + 2 * s.cfg.stCheck.toNat + s.cfg.sfCheck.toNat
  ie : s.ie = false
  status : readReg s .status = 0
  lastcmd : s.lastcmd = 0
  opa : s.opa = 0
  opb : s.opb = 0
  res0 : s.res0 = 0
  res1 : s.res1 = 0
  cmdcnt : s.cmdcnt = 0
  gs : s.gs.length = s.cfg.nMax ∧ ∀ r < s.cfg.nMax, s.gs[r]? = some none
  code : s.code = none
  eng : s.eng = .idle
  irq : irq s = false

/-! ### The invariant -/

/-- What R31, R33 and R34 say of an installed code: its dimensions, its generator, its properties, and every valid
cache holding the value its build rule defines from the generator alone. -/
structure CodeInv (c : Code) : Prop where
  k_pos : 1 ≤ c.k
  k_le_n : c.k ≤ c.n
  rows : c.G.length = c.k
  nonzero : allZeroRows c.G = false
  cw_eq : c.cw = codewordList c.k c.G
  d_eq : minDistance c.cw = some c.d
  det_eq : c.det = c.d - 1
  cor_eq : c.cor = (c.d - 1) / 2
  H_eq : ∀ H, c.H = some H → H = parityMatrix c.k c.G
  sa_eq : ∀ sa, c.sa = some sa → sa = standardArray c.k c.cw ∧ hasRepeat c.cw = false
  st_eq : ∀ st, c.st = some st → st = syndromeTable (c.n - c.k) (parityMatrix c.k c.G) ∧ c.H.isSome = true

/-- The invariant of the machine: allowed parameters (R5), N_MAX staging rows of at most N_MAX bits (R30), and an
installed code that satisfies `CodeInv`, fits N_MAX (R31) and, under P_SF_CHECK, is in standard form (R124); while the
reset input is asserted, every piece of state has its value of R38 (R250). -/
structure StateInv (s : State) : Prop where
  params : s.cfg.Allowed
  staged_count : s.gs.length = s.cfg.nMax
  staged_len : ∀ g, some g ∈ s.gs → g.len ≤ s.cfg.nMax
  code_inv : ∀ c, s.code = some c → CodeInv c
  code_fits : ∀ c, s.code = some c → c.n ≤ s.cfg.nMax
  code_standard : ∀ c, s.code = some c → s.cfg.sfCheck = true → standardForm c.k c.G = true
  held : s.inReset = true → IsResetState s

/-! ### Completion, written out -/

/-- The bookkeeping of a completion with outcome `e`, as R220 lists it: ERR, DONE, CMDCNT modulo 2^32, engine idle;
nothing else changes. -/
def completion (e : Option ErrorKind) (s : State) : State :=
  { s with err := e, done := true, cmdcnt := s.cmdcnt + 1, eng := .idle }

/-- The operand check of R100 fails for the value v and the length L. -/
abbrev Malformed (s : State) (L : Nat) (v : Reg) : Prop := s.cfg.nMax < L ∨ 2 ^ L ≤ v.toNat

/-- The XOR of `f 0 .. f (n − 1)`, a sum over GF(2) (R11). -/
def xorSum (n : Nat) (f : Nat → Bool) : Bool := (List.range n).foldl (fun x j => x ^^ f j) false

/-- Entry ⟨i, j⟩ of `H = [Aᵗ | I_{n−k}]` as R150 defines it from G. -/
def parityEntry {n : Nat} (k : Nat) (G : List (BitVec n)) (i j : Nat) : Bool :=
  if j < k then matEntry G j (k + i) else decide (j - k = i)

/-- Bit i of `syn(r)` as R151 defines it: the XOR over j of `r⟨j⟩ AND H⟨i, j⟩`. -/
def syndromeBit {n : Nat} (k : Nat) (G : List (BitVec n)) (r : BitVec n) (i : Nat) : Bool :=
  xorSum n fun j => r.getMsbD j && parityEntry k G i j

/-- The code with its parity-check matrix built (R150). -/
def Code.parityBuilt (c : Code) : Code := { c with H := some (parityMatrix c.k c.G) }

/-- The code with its standard array built (R170). -/
def Code.arrayBuilt (c : Code) : Code := { c with sa := some (standardArray c.k c.cw) }

/-- The code with its syndrome table built, and H with it (R190). -/
def Code.tableBuilt (c : Code) : Code :=
  { c with
    H := some (parityMatrix c.k c.G)
    st := some (syndromeTable (c.n - c.k) (parityMatrix c.k c.G)) }

/-- The code instance without its caches: what R32 calls immutable. -/
structure Instance where
  n : Nat
  k : Nat
  G : List (BitVec n)
  d : Nat
  det : Nat
  cor : Nat
  deriving DecidableEq, Repr

/-- The code instance of a state (R31), if one is loaded. -/
def instanceOf (s : State) : Option Instance :=
  match s.code with
  | none => none
  | some c => some ⟨c.n, c.k, c.G, c.d, c.det, c.cor⟩

/-! ### Agreement of two states -/

/-- A code without its lazily built caches. -/
def Code.bare (c : Code) : Code := { c with H := none, sa := none, st := none }

/-- A state whose code, if any, is without its lazily built caches. -/
def bareState (s : State) : State := { s with code := s.code.map Code.bare }

/-- Two states that differ at most in which lazily built caches are valid, and in what they hold. -/
def sameButCaches (s s' : State) : Prop := bareState s = bareState s'

/-- Two outcomes report the same: the same error code and the same result registers (R225). -/
def sameReport (t t' : State) : Prop := t.err = t'.err ∧ t.res0 = t'.res0 ∧ t.res1 = t'.res1

/-! ### The host's duties and the end of a run -/

/-- An input that is an admitted access and resets nothing. -/
def quietInput : Input → Prop
  | .read off bytes => admitted off bytes = true
  | .write off bytes v => admitted off bytes = true ∧ ¬(regAt off = .ctrl ∧ v.getLsbD 1 = true)
  | .wait => True
  | .assertReset => False
  | .releaseReset => False

/-- The end of a run (R268): the host has performed its last access and the engine is idle. -/
def runEnded (s : State) : Prop := s.inputs = [] ∧ s.eng = .idle

/-- A run that ended with no command lost: the check R260 gives a host claim. -/
def safeEnd (s : State) : Prop := runEnded s ∧ s.overrun = false

end Sys2Proof.Machine
end

