-- ==== Sys2Proof/Certificates/Slice0/Obligations.lean ====
section
/-! DEFINITION. The statements for the provers, from the numbered rules of spec/. A command's statement gives the whole
next state, so it is its result, its completion and its frame in one: a field that the record does not name is
unchanged, and the block has no memory beside these fields. -/

open Sys2Proof Sys2Proof.Machine

/-! ### The command word (30_encoding.md) -/

/-- Decode and encode agree, for every command with every LEN it can carry (R80, R85, R86). -/
def Obligations.DecodeOfEncodeIsTheCommand : Prop :=
  ∀ i : Instr, i.WellFormed → decode (encode i) = .ok i

/-- A word that decodes is the word of its command: no bit is dropped, and no two words have one meaning (R84). -/
def Obligations.EncodeOfDecodeIsTheWord : Prop :=
  ∀ (c : Reg) (i : Instr), decode c = .ok i → i.WellFormed ∧ encode i = c

/-- The legality check on the word's own bits (R84, R87): legal words, and only they, decode, and each to exactly one
command; every other word completes with IllegalCommand and no other effect than completion bookkeeping, whatever the
state of the block. -/
def Obligations.LegalWordsDecodeAndOthersAreIllegal : Prop :=
  (∀ c : Reg,
    ((c.toNat / 131072 = 0 ∧ c.toNat / 8192 % 8 = 0 ∧ c.toNat % 256 ≤ 0x0E ∧
        (c.toNat / 65536 % 2 = 0 ∨ c.toNat % 256 = 0x06) ∧
        (c.toNat / 256 % 32 = 0 ∨ c.toNat % 256 ∈ [0x01, 0x02, 0x03, 0x04, 0x05, 0x06, 0x0D, 0x0E])) ↔
      legal c = true) ∧
      (legal c = true → ∃! i : Instr, i.WellFormed ∧ encode i = c ∧ decode c = .ok i)) ∧
    ∀ (s : State) (c a b : Reg), s.eng = .busy c a b → legal c = false →
      engineTurn s = .next (completion (some .illegalCommand) s)

/-- Sample words of the spec's tables decode to the commands they stand for (R85, 95_test_vectors.md). -/
def Obligations.SampleWordsDecodeAsTheTableSays : Prop :=
  decode 0x00000000 = .ok .nop ∧ decode 0x00000701 = .ok (.grow 7) ∧ decode 0x00001002 = .ok (.gload 16) ∧
    decode 0x00000403 = .ok (.encode 4) ∧ decode 0x00000604 = .ok (.synd 6) ∧ decode 0x00001F05 = .ok (.contains 31) ∧
    decode 0x00000706 = .ok (.decodeSa 7) ∧ decode 0x00010706 = .ok (.decodeSt 7) ∧ decode 0x00000007 = .ok .props ∧
    decode 0x0000000B = .ok .rdsa ∧ decode 0x0000000D = .ok (.weight 0) ∧ decode 0x0000070E = .ok (.hdist 7) ∧
    decode 0x00010003 = .error .strayStrategy ∧ decode 0x00008003 = .error .reservedBits

/-- The command statements of the host's language (R90). An accepted one expands to a write of OPA if R90 gives it one,
then a write of OPB if R90 gives it one, each of the value given, and then one CMD write, whose word decodes to that
command; nothing else is written. A statement is accepted exactly if its LEN is at most 31, its integers are below 2^32
and, for HDIST, its words have one length. -/
def Obligations.CommandStatementsSubmitTheirCommand : Prop :=
  ∀ st : CmdStmt,
    (∀ ops : List Input, assembleCmd st = some ops →
      ∃ w : Reg, decode w = .ok (commandOf st) ∧
        ops = (opaWritten st).toList.map (fun v => .write 0x10 4 (BitVec.ofNat 32 v)) ++
          (opbWritten st).toList.map (fun v => .write 0x14 4 (BitVec.ofNat 32 v)) ++ [.write 0x0C 4 w]) ∧
    ((assembleCmd st).isSome = true ↔
      (commandOf st).WellFormed ∧ (∀ v, opaWritten st = some v → v < 2 ^ 32) ∧
        (∀ v, opbWritten st = some v → v < 2 ^ 32) ∧ ∀ x y, st = .hdist x y → x.length = y.length)

/-! ### Steps, acceptance and completion (20_memory.md, 60_exceptions.md) -/

/-- A step runs the decoded instruction: a command in flight whose turn it is completes by `exec` of the decoded
command; while host steps are still to come before it, the step is the host's next access instead (R60, R220). -/
def Obligations.StepRunsTheDecodedCommand : Prop :=
  ∀ (s : State) (c a b : Reg), s.eng = .busy c a b →
    (∀ i : Instr, decode c = .ok i → (s.delay = 0 ∨ s.inputs = []) → step s = exec i s) ∧
      (∀ (op : Input) (rest : List Input), s.inputs = op :: rest → s.delay ≠ 0 →
        step s = perform op { s with inputs := rest, delay := s.delay - 1 })

/-- A CMD write. At an idle engine it is accepted: OPA and OPB are latched, the word is kept, and DONE, OVERRUN, ERR, the
results and everything else of the block are unchanged (R55); the model's own fields `delay` and `tick` may take any
value. While a command is in flight it changes nothing of the block but OVERRUN (R56). The reset input is released;
what a write does while it is asserted stands in `ResetLeavesTheStatedValues`. -/
def Obligations.CmdWritesAreAcceptedOnlyWhenIdle : Prop :=
  ∀ (s : State) (v : Reg) (rest : List Input), s.inReset = false → s.inputs = .write 0x0C 4 v :: rest →
    (s.eng = .idle → ∃ d n, step s = .next { s with
      eng := .busy v s.opa s.opb, lastcmd := v, inputs := rest, delay := d, tick := n }) ∧
    (∀ c a b, s.eng = .busy c a b → s.delay ≠ 0 →
      ∃ d, step s = .next { s with overrun := true, inputs := rest, delay := d })

/-- Every completion, of whatever command and with whatever outcome, sets DONE, counts once modulo 2^32 and leaves the
engine idle (R220, R29), and touches neither what the host and the platform own nor CMD, OVERRUN, IE and the
parameters. -/
def Obligations.EveryCompletionKeepsTheBooks : Prop :=
  ∀ (i : Instr) (s t : State), exec i s = .next t →
    t.eng = .idle ∧ t.done = true ∧ t.cmdcnt.toNat = (s.cmdcnt.toNat + 1) % 2 ^ 32 ∧
      t.opa = s.opa ∧ t.opb = s.opb ∧ t.lastcmd = s.lastcmd ∧ t.overrun = s.overrun ∧ t.ie = s.ie ∧ t.cfg = s.cfg ∧
      t.inReset = s.inReset ∧ t.inputs = s.inputs ∧ t.lastRead = s.lastRead ∧ t.delay = s.delay ∧ t.tick = s.tick

/-- What a failed command leaves, whatever the command and the error (R222): the state before it, plus completion
bookkeeping, plus at most the caches that command built. A cache that was valid is unchanged; one that differs was not
valid and is now the one its build rule gives, the standard array only after DECODE.SA, the syndrome table and the
matrix it is built from only after DECODE.ST. -/
def Obligations.ErrorsArePrecise : Prop :=
  ∀ (i : Instr) (s t : State), exec i s = .next t → t.err ≠ none →
    t = { completion t.err s with code := t.code } ∧ (s.code = none → t.code = none) ∧
      ∀ c : Code, s.code = some c →
        ∃ (H : Option (List (BitVec c.n))) (sa : Option (List (List (BitWord .code c.n))))
          (st : Option (List (BitWord .syndrome (c.n - c.k) × BitWord .code c.n))),
          t.code = some { c with H := H, sa := sa, st := st } ∧
            (H = c.H ∨ (c.H = none ∧ H = some (parityMatrix c.k c.G) ∧ ∃ len, i = .decodeSt len)) ∧
            (sa = c.sa ∨ (c.sa = none ∧ sa = some (standardArray c.k c.cw) ∧ ∃ len, i = .decodeSa len)) ∧
            (st = c.st ∨ (c.st = none ∧ (∃ M, H = some M ∧ st = some (syndromeTable (c.n - c.k) M)) ∧
              ∃ len, i = .decodeSt len))

/-- The frame of the commands: GROW alone writes staging rows, GLOAD alone changes the code instance, PROPS and the two
decoders alone write RES1, and NOP, GROW and GLOAD write no result (R28, R30, R32, R86). -/
def Obligations.CommandsWriteOnlyTheirResults : Prop :=
  ∀ (i : Instr) (s t : State), exec i s = .next t →
    ((∀ len, i ≠ .grow len) → t.gs = s.gs) ∧
      ((∀ len, i ≠ .gload len) → instanceOf t = instanceOf s) ∧
      (i ≠ .props → (∀ len, i ≠ .decodeSa len) → (∀ len, i ≠ .decodeSt len) → t.res1 = s.res1) ∧
      (i = .nop ∨ (∃ len, i = .grow len) ∨ (∃ len, i = .gload len) → t.res0 = s.res0)

/-- Who builds and who clears the caches (R34). A command other than GLOAD changes a valid bit only where R34 has it
build that cache, never clears one, and leaves CW_VALID, which equals LOADED. A GLOAD that completes with OK clears
H_VALID, SA_VALID and ST_VALID and sets CW_VALID; a GLOAD that fails leaves the code and every cache. -/
def Obligations.CachesAreBuiltOnlyWhereTheTableSays : Prop :=
  (∀ (len : Nat) (s t : State), exec (.gload len) s = .next t →
    (t.err = none → hValid t = false ∧ saValid t = false ∧ stValid t = false ∧ cwValid t = true) ∧
      (t.err ≠ none → t.code = s.code)) ∧
  ∀ (i : Instr) (s t : State), exec i s = .next t → (∀ len, i ≠ .gload len) →
    (i ≠ .rdh → i ≠ .rdst → (∀ len, i ≠ .synd len) → (∀ len, i ≠ .contains len) → (∀ len, i ≠ .decodeSt len) →
        hValid t = hValid s) ∧
      (i ≠ .rdsa → (∀ len, i ≠ .decodeSa len) → saValid t = saValid s) ∧
      (i ≠ .rdst → (∀ len, i ≠ .decodeSt len) → stValid t = stValid s) ∧
      (hValid s = true → hValid t = true) ∧ (saValid s = true → saValid t = true) ∧
      (stValid s = true → stValid t = true) ∧ cwValid t = cwValid s ∧ cwValid t = loadedFlag t

/-- Without a code every command of R224's list completes with NotLoaded and nothing else, whatever its operands; with
a code loaded no command reports NotLoaded, and NOP, GROW, GLOAD, WEIGHT and HDIST never do. -/
def Obligations.CodeCommandsNeedALoadedCode : Prop :=
  (∀ (s : State) (c a b : Reg) (i : Instr), s.eng = .busy c a b → s.code = none →
    (i ∈ [.props, .rdg, .rdh, .rdcw, .rdsa, .rdst] ∨
      ∃ len, i ∈ [.encode len, .synd len, .contains len, .decodeSa len, .decodeSt len]) →
    exec i s = .next (completion (some .notLoaded) s)) ∧
  ∀ (i : Instr) (s t : State), exec i s = .next t →
    (s.code ≠ none ∨ i = .nop ∨ ∃ len, i ∈ [.grow len, .gload len, .weight len, .hdist len]) → t.err ≠ some .notLoaded

/-- Repeating a command with the same operands on the same code gives the same report (R225). The repetition is the
same latched command in the state its first run left. -/
def Obligations.RepetitionNeverChangesTheOutcome : Prop :=
  ∀ (i : Instr) (s t : State), exec i s = .next t →
    ∃ t', exec i { t with eng := s.eng } = .next t' ∧ sameReport t' t

/-- A build never changes what any command returns (R34): two states of the machine that differ only in which caches
are valid give the same error code and the same results. -/
def Obligations.CachesNeverChangeAResult : Prop :=
  ∀ (i : Instr) (s s' t : State), StateInv s → StateInv s' → sameButCaches s s' → exec i s = .next t →
    ∃ t', exec i s' = .next t' ∧ sameReport t t'

/-- An accepted command always gets its turn (R60, R267): while only admitted accesses that reset nothing are to come,
the host takes at most `delay` steps, the latched command is still in flight, and the engine moves next. The bound is
the model's own field `delay`, a free value (log entry 1); the spec gives no bound. -/
def Obligations.AcceptedCommandsReachTheirCompletion : Prop :=
  ∀ (s : State) (c a b : Reg), s.eng = .busy c a b → (∀ op ∈ s.inputs, quietInput op) →
    ∃ n ≤ s.delay, ∃ t : State, Host.Core.run Sys2Proof.core n s = .next t ∧ t.eng = .busy c a b ∧
      engineMoves t = true ∧ t.code = s.code ∧ t.gs = s.gs ∧ t.cfg = s.cfg ∧ step t = complete c t

/-- The host's `wait` polls STATUS: it reads the register, and stays first in line exactly while BUSY, bit 0 of the value
read, is 1 (R91). That the loop is one input is log entry 4, and `delay` is the model's own (log entry 1). -/
def Obligations.WaitStaysWhileBusyReadsOne : Prop :=
  ∀ (s : State) (rest : List Input), engineMoves s = false → s.inputs = .wait :: rest →
    (∃ d, step s = .next { s with
        lastRead := some (readReg s .status), delay := d
        inputs := if (readReg s .status).getLsbD 0 then .wait :: rest else rest }) ∧
      (readReg s .status).getLsbD 0 = busyFlag s

/-- A `wait` for a command in flight ends (R267): after at most `delay + 2` steps it has read BUSY = 0 and the engine is
idle, in every state that meets the invariant under P_SF_CHECK = 1. The bound is the model's own field `delay`, a free
value (log entry 1), and the `wait` is one input (log entry 4): no claim about the number of polls (R267). -/
def Obligations.WaitForACommandEnds : Prop :=
  ∀ (s : State) (c a b : Reg) (rest : List Input), StateInv s → s.cfg.sfCheck = true → s.eng = .busy c a b →
    s.inputs = .wait :: rest →
    ∃ n ≤ s.delay + 2, ∃ (t : State) (v : Reg), Host.Core.run Sys2Proof.core n s = .next t ∧ t.inputs = rest ∧
      t.eng = .idle ∧ t.lastRead = some v ∧ v.getLsbD 0 = false

/-- A command in flight never stops a block with P_SF_CHECK = 1: from every state that meets the invariant its
completion is a next state, for every command word and every operand (R225). -/
def Obligations.NoCommandFailsToComplete : Prop :=
  ∀ (s : State) (c a b : Reg), StateInv s → s.cfg.sfCheck = true → s.eng = .busy c a b →
    ∃ t, engineTurn s = .next t ∧ t.eng = .idle

/-- The two defensive errors are unreachable: no state that meets the invariant reports PropertyDerivationFailed (R127)
or LookupTableCorrupt (R192). -/
def Obligations.DefensiveErrorsAreUnreachable : Prop :=
  ∀ (i : Instr) (s t : State), StateInv s → exec i s = .next t →
    t.err ≠ some .propertyDerivationFailed ∧ t.err ≠ some .lookupTableCorrupt

/-! ### The register window (10_state.md) -/

/-- Every piece of state has R38's reset value: in the state the model starts from (whose ID is this spec's constant);
when the reset input is asserted, whatever the state of the block, over every step while it stays asserted, whatever the
host does, and when it is released (R250); and after a soft reset. The block keeps its own parameters. -/
def Obligations.ResetLeavesTheStatedValues : Prop :=
  (IsResetState State.reset ∧ readReg State.reset .id = 0x4C431003) ∧
    (∀ (s : State) (rest : List Input), engineMoves s = false →
      (s.inputs = .assertReset :: rest →
        ∃ t, step s = .next t ∧ IsResetState t ∧ t.inReset = true ∧ t.cfg = s.cfg ∧ t.inputs = rest) ∧
      (s.inReset = true → s.inputs = .releaseReset :: rest →
        ∃ t, step s = .next t ∧ IsResetState t ∧ t.inReset = false ∧ t.cfg = s.cfg ∧ t.inputs = rest) ∧
      (s.inReset = false → (∃ v : Reg, s.inputs = .write 0x04 4 v :: rest ∧ v.getLsbD 1 = true) →
        ∃ t, step s = .next t ∧ IsResetState t ∧ t.inReset = false ∧ t.cfg = s.cfg ∧ t.inputs = rest)) ∧
    ∀ s t : State, IsResetState s → s.inReset = true → step s = .next t →
      IsResetState t ∧ t.cfg = s.cfg ∧ (t.inReset = true ∨ ∃ rest, s.inputs = .releaseReset :: rest)

/-- ID's fields, for every parameter value R5 allows (R23). -/
def Obligations.IdHoldsTheParameters : Prop :=
  ∀ s : State, s.cfg.Allowed →
    (readReg s .id).toNat / 65536 = 0x4C43 ∧ (readReg s .id).toNat / 256 % 256 = s.cfg.nMax ∧
      (readReg s .id).toNat / 4 % 64 = 0 ∧ (readReg s .id).getLsbD 1 = s.cfg.stCheck ∧
      (readReg s .id).getLsbD 0 = s.cfg.sfCheck

/-- STATUS's fields stand where R25 puts them, and its reserved bits read 0. -/
def Obligations.StatusFieldsStandWhereTheySay : Prop :=
  ∀ s : State,
    (readReg s .status).getLsbD 0 = busyFlag s ∧ (readReg s .status).getLsbD 1 = s.done ∧
      (readReg s .status).getLsbD 2 = s.overrun ∧ (readReg s .status).getLsbD 3 = s.code.isSome ∧
      (readReg s .status).toNat / 16 % 16 = 0 ∧ (readReg s .status).toNat / 256 % 16 = (errorCode s.err).toNat ∧
      (readReg s .status).toNat / 4096 % 16 = 0 ∧ (readReg s .status).getLsbD 16 = s.code.isSome ∧
      (readReg s .status).getLsbD 17 = hValid s ∧ (readReg s .status).getLsbD 18 = saValid s ∧
      (readReg s .status).getLsbD 19 = stValid s ∧ (readReg s .status).toNat / 1048576 = 0

/-- A host write of STATUS clears DONE if written bit 1 is 1 and OVERRUN if written bit 2 is 1 and changes nothing else
of the block (R25), whether the engine is idle or busy, the reset input released. -/
def Obligations.StatusWriteOnlyAcknowledges : Prop :=
  ∀ (s : State) (v : Reg) (rest : List Input),
    engineMoves s = false → s.inReset = false → s.inputs = .write 0x08 4 v :: rest →
    ∃ d, step s = .next { s with
      done := if v.getLsbD 1 then false else s.done
      overrun := if v.getLsbD 2 then false else s.overrun
      inputs := rest, delay := d }

/-- A CTRL write (R24, R251). With SRST = 0 it only writes IE, and CTRL then reads IE alone. With SRST = 1 it is the
reset of R38 at any state of the engine: a command in flight is gone, and of the written word nothing is kept. The
model's own fields `delay`, `tick` and `lastRead` may take any value there; the reset input is released. -/
def Obligations.CtrlWritesEnableOrReset : Prop :=
  ∀ (s : State) (v : Reg) (rest : List Input),
    engineMoves s = false → s.inReset = false → s.inputs = .write 0x04 4 v :: rest →
    (v.getLsbD 1 = false →
      ∃ t d, step s = .next t ∧ t = { s with ie := v.getLsbD 0, inputs := rest, delay := d } ∧
        (readReg t .ctrl).toNat = (v.getLsbD 0).toNat) ∧
    (v.getLsbD 1 = true →
      ∃ t d n r, step s = .next t ∧
        t = { State.resetWith s.cfg with delay := d, tick := n, inputs := rest, lastRead := r } ∧ IsResetState t)

/-- OPA and OPB take every value at any time and read back as written; the command in flight keeps the values latched
at its acceptance (R27). The reset input is released. -/
def Obligations.OperandWritesReachOnlyLaterCommands : Prop :=
  ∀ (s : State) (v : Reg) (rest : List Input), engineMoves s = false → s.inReset = false →
    (s.inputs = .write 0x10 4 v :: rest →
      ∃ t d, step s = .next t ∧ t = { s with opa := v, inputs := rest, delay := d } ∧ readReg t .opa = v) ∧
    (s.inputs = .write 0x14 4 v :: rest →
      ∃ t d, step s = .next t ∧ t = { s with opb := v, inputs := rest, delay := d } ∧ readReg t .opb = v)

/-- The registers of the window (R22, R29, R54). A read returns the register at its offset, a reserved offset reads 0,
and no register changes. A write to a read-only register or a reserved offset is ignored: it only uses up the host's
access. -/
def Obligations.WindowRegistersReadAndIgnoreWrites : Prop :=
  ∀ (s : State) (off : BitVec 8) (rest : List Input), engineMoves s = false → off.toNat % 4 = 0 →
    (s.inputs = .read off 4 :: rest →
      ∃ v d, step s = .next { s with lastRead := some v, inputs := rest, delay := d } ∧
        (off = 0x00 → v = idWord s.cfg) ∧ (off = 0x04 → v = ctrlWord s) ∧ (off = 0x08 → v = statusWord s) ∧
        (off = 0x0C → v = s.lastcmd) ∧ (off = 0x10 → v = s.opa) ∧ (off = 0x14 → v = s.opb) ∧ (off = 0x18 → v = s.res0) ∧
        (off = 0x1C → v = s.res1) ∧ (off = 0x20 → v = s.cmdcnt) ∧ (0x24 ≤ off.toNat → v = 0)) ∧
    (∀ v : Reg, (off = 0x00 ∨ off = 0x18 ∨ off = 0x1C ∨ 0x20 ≤ off.toNat) → s.inputs = .write off 4 v :: rest →
      ∃ d, step s = .next { s with inputs := rest, delay := d })

/-- The only access the block admits is 32 bits wide at a multiple of 4; any other is a bus error, a fault of the
host's run (R53). -/
def Obligations.OnlyAlignedWordAccessesAreAdmitted : Prop :=
  ∀ (s : State) (off : BitVec 8) (bytes : Nat) (v : Reg) (rest : List Input), engineMoves s = false →
    (s.inputs = .write off bytes v :: rest ∨ s.inputs = .read off bytes :: rest) →
    (bytes = 4 ∧ off.toNat % 4 = 0 → ∃ t, step s = .next t) ∧
      (bytes ≠ 4 ∨ off.toNat % 4 ≠ 0 → step s = .fault .busError)

/-- The window on the host's byte addresses (R50, R52, R57): it is the 256 bytes from BASE, a multiple of 256, and no
other address is the block's; a register lies on the lanes little-endian, byte i carrying bits `[8i+7 : 8i]`. -/
def Obligations.WindowIsTheBytesFromBase : Prop :=
  Config.base % 256 = 0 ∧ (∀ off : BitVec 8, windowOffset (Config.base + off.toNat) = some off) ∧
    (∀ addr : Nat, (addr < Config.base ∨ Config.base + 256 ≤ addr) → windowOffset addr = none) ∧
    ∀ v : Reg, v.toNat = (byteLane v 0).toNat + 256 * (byteLane v 1).toNat + 65536 * (byteLane v 2).toNat +
      16777216 * (byteLane v 3).toNat

/-- The error codes are the numbers of R221's table, each outcome's own, so STATUS.ERR tells every outcome apart, and
the codes 11 to 15 are never written; and every completion writes its outcome's code to STATUS.ERR. -/
def Obligations.ErrorCodesTellOutcomesApart : Prop :=
  (errorCode none = 0 ∧ errorCode (some .malformedInput) = 1 ∧ errorCode (some .dimensionMismatch) = 2 ∧
    errorCode (some .invalidCode) = 3 ∧ errorCode (some .propertyDerivationFailed) = 4 ∧
    errorCode (some .uncorrectableError) = 5 ∧ errorCode (some .lookupTableCorrupt) = 6 ∧
    errorCode (some .notLoaded) = 7 ∧ errorCode (some .notStandardForm) = 8 ∧
    errorCode (some .indexOutOfRange) = 9 ∧ errorCode (some .illegalCommand) = 10) ∧
  (∀ (e : Option ErrorKind) (s : State),
    (readReg (completion e s) .status).toNat / 256 % 16 = (errorCode e).toNat) ∧
  (∀ e e' : Option ErrorKind, errorCode e = errorCode e' → e = e') ∧ ∀ e, (errorCode e).toNat ≤ 10

/-- The interrupt output is high exactly while the interrupt is enabled and a completion is unacknowledged, so a
completion raises it when IE is 1 (R230). -/
def Obligations.InterruptFollowsEnableAndDone : Prop :=
  (∀ s : State, irq s = true ↔ s.ie = true ∧ s.done = true) ∧
    ∀ (i : Instr) (s t : State), exec i s = .next t → irq t = s.ie

/-- DONE is sticky (R263): once set, only a STATUS write with bit 1 set or a reset clears it (an edge of the reset input
or SRST), so it survives any step whose input is neither. -/
def Obligations.DoneStaysUntilAcknowledged : Prop :=
  ∀ s t : State, step s = .next t → s.done = true → t.done = false →
    engineMoves s = false ∧ ∃ rest,
      s.inputs = .assertReset :: rest ∨ (s.inReset = true ∧ s.inputs = .releaseReset :: rest) ∨
      (∃ v, s.inputs = .write 0x08 4 v :: rest ∧ v.getLsbD 1 = true) ∨
      (∃ v, s.inputs = .write 0x04 4 v :: rest ∧ v.getLsbD 1 = true)

/-- A code is immutable after construction (R32): over any step the instance stays as it is, unless the step is a reset
or the successful completion of a GLOAD. -/
def Obligations.InstanceChangesOnlyByGloadOrReset : Prop :=
  ∀ s t : State, step s = .next t → instanceOf t ≠ instanceOf s →
    (engineMoves s = true ∧ t.err = none ∧ ∃ c a b len, s.eng = .busy c a b ∧ decode c = .ok (.gload len)) ∨
      (engineMoves s = false ∧ t.code = none ∧ ∃ rest, s.inputs = .assertReset :: rest ∨
        (s.inReset = true ∧ s.inputs = .releaseReset :: rest) ∨
        ∃ v, s.inputs = .write 0x04 4 v :: rest ∧ v.getLsbD 1 = true)

/-! ### Invariants -/

/-- The invariant holds after reset: its clauses about parameters and staging rows have content there. The model starts
with the reset input released (log entry 12). -/
def Obligations.ResetMeetsTheInvariant : Prop := StateInv State.reset ∧ State.reset.inReset = false

/-- Every step, the engine's and the host's, keeps the invariant: every valid cache is the one the generator defines,
the properties are those of the codeword list, the staging rows fit (R30, R31, R33, R34), and all state has its reset
value while the reset input is asserted (R250). -/
def Obligations.EveryStepKeepsTheInvariant : Prop :=
  ∀ s t : State, StateInv s → step s = .next t → StateInv t

/-! ### The words (00_scope.md, 40_bit_word.md) -/

/-- ≺ is the weight-then-integer order, a strict total order, and `scan_L` is all 2^L words in ascending ≺ order, each once (R10). -/
def Obligations.ScanIsEveryWordInOrder : Prop :=
  ∀ L : Nat,
    (∀ w v : BitVec L, precedes w v = true ↔ weight w < weight v ∨ (weight w = weight v ∧ w.toNat < v.toNat)) ∧
      (∀ a : BitVec L, precedes a a = false) ∧
      (∀ a b c : BitVec L, precedes a b = true → precedes b c = true → precedes a c = true) ∧
      (∀ a b : BitVec L, a ≠ b → precedes a b = true ∨ precedes b a = true) ∧
      (scanWords .code L).length = 2 ^ L ∧ (∀ w, w ∈ scanWords .code L) ∧
      (scanWords .code L).Pairwise fun v w => precedes v.bits w.bits = true

/-- The laws of R104: ⊕ is a commutative group of exponent 2, weight 0 is the zero word alone, and the Hamming distance
is a metric. -/
def Obligations.WordAlgebraLaws : Prop :=
  ∀ (L : Nat) (a b c : BitWord .code L),
    addWord a b = addWord b a ∧ addWord (addWord a b) c = addWord a (addWord b c) ∧
      addWord a (zeroWord .code L) = a ∧ addWord a a = zeroWord .code L ∧
      (weight a.bits = 0 ↔ a = zeroWord .code L) ∧ weight a.bits ≤ L ∧
      (distance a.bits b.bits = 0 ↔ a = b) ∧ distance a.bits b.bits = distance b.bits a.bits ∧
      distance a.bits c.bits ≤ distance a.bits b.bits + distance b.bits c.bits

/-- WEIGHT (R102): RES0 counts the 1 bits of the word; an operand that is no word of the length is MalformedInput. -/
def Obligations.WeightCountsOnes : Prop :=
  (∀ (s : State) (c a b : Reg) (L : Nat), s.eng = .busy c a b →
    (L ≤ s.cfg.nMax → a.toNat < 2 ^ L →
      exec (.weight L) s = .next (completion none
        { s with res0 := BitVec.ofNat 32 ((List.range L).countP fun i => a.getLsbD i) })) ∧
    (Malformed s L a → exec (.weight L) s = .next (completion (some .malformedInput) s))) ∧
  ∀ L ≤ 31, decode (BitVec.ofNat 32 (L * 256 + 0x0D)) = .ok (.weight L)

/-- HDIST (R103): RES0 counts the positions where the two words differ; either operand may be malformed. -/
def Obligations.HdistCountsDifferences : Prop :=
  (∀ (s : State) (c a b : Reg) (L : Nat), s.eng = .busy c a b →
    (L ≤ s.cfg.nMax → a.toNat < 2 ^ L → b.toNat < 2 ^ L →
      exec (.hdist L) s = .next (completion none
        { s with res0 := BitVec.ofNat 32 ((List.range L).countP fun i => a.getLsbD i != b.getLsbD i) })) ∧
    (Malformed s L a ∨ Malformed s L b → exec (.hdist L) s = .next (completion (some .malformedInput) s))) ∧
  ∀ L ≤ 31, decode (BitVec.ofNat 32 (L * 256 + 0x0E)) = .ok (.hdist L)

/-! ### The linear code (41_linear_code.md) and NOP (45_system.md) -/

/-- NOP (R210): the command completes with OK and nothing else, and 0x00000000 is its only word. -/
def Obligations.NopCompletesWithoutEffect : Prop :=
  (∀ (s : State) (c a b : Reg), s.eng = .busy c a b → exec .nop s = .next (completion none s)) ∧
    (∀ w : Reg, decode w = .ok .nop ↔ w = 0) ∧
    ∀ (s : State) (w a b : Reg), s.eng = .busy w a b → w.toNat % 256 = 0 → w ≠ 0 →
      engineTurn s = .next (completion (some .illegalCommand) s)

/-- GROW (R121): the word becomes the valid staging row OPB, read back there, and no other row changes. -/
def Obligations.GrowStagesOneRow : Prop :=
  (∀ (s : State) (c a b : Reg) (L : Nat), s.eng = .busy c a b → s.gs.length = s.cfg.nMax →
    (L ≤ s.cfg.nMax → a.toNat < 2 ^ L → b.toNat < s.cfg.nMax →
      ∃ rows, exec (.grow L) s = .next (completion none { s with gs := rows }) ∧ rows.length = s.cfg.nMax ∧
        rows[b.toNat]? = some (some ⟨L, BitVec.ofNat L a.toNat⟩) ∧ ∀ r, r ≠ b.toNat → rows[r]? = s.gs[r]?) ∧
    (Malformed s L a → exec (.grow L) s = .next (completion (some .malformedInput) s)) ∧
    (L ≤ s.cfg.nMax → a.toNat < 2 ^ L → s.cfg.nMax ≤ b.toNat →
      exec (.grow L) s = .next (completion (some .indexOutOfRange) s))) ∧
  ∀ L ≤ 31, decode (BitVec.ofNat 32 (L * 256 + 0x01)) = .ok (.grow L)

/-- GLOAD (R124, R127). With rows 0..k−1 staged as a nonzero matrix G of n columns, in standard form where that is
checked, the code is replaced by G with its properties, d being the least weight of a nonzero codeword, and with the
codeword list as its only cache. Each error stands in its place in the order of R223 and leaves code, caches and staging
rows as they were. -/
def Obligations.GloadInstallsTheStagedCodeOrRejects : Prop :=
  (∀ (s : State) (c a b : Reg) (n : Nat), s.eng = .busy c a b →
    (s.cfg.nMax < n ∨ n < a.toNat → exec (.gload n) s = .next (completion (some .dimensionMismatch) s)) ∧
    (n ≤ s.cfg.nMax → a.toNat = 0 → exec (.gload n) s = .next (completion (some .invalidCode) s)) ∧
    (n ≤ s.cfg.nMax → 1 ≤ a.toNat → a.toNat ≤ n →
      (∃ r < a.toNat, ∀ row : BitVec n, s.gs[r]? ≠ some (some ⟨n, row⟩)) →
      exec (.gload n) s = .next (completion (some .dimensionMismatch) s)) ∧
    ∀ G : List (BitVec n), n ≤ s.cfg.nMax → 1 ≤ a.toNat → a.toNat ≤ n → G.length = a.toNat →
      (∀ r, (h : r < G.length) → s.gs[r]? = some (some ⟨n, G[r]⟩)) →
      ((∀ g ∈ G, g = 0) → exec (.gload n) s = .next (completion (some .invalidCode) s)) ∧
      ((∃ g ∈ G, g ≠ 0) → s.cfg.sfCheck = true → (∃ r < a.toNat, ∃ j < a.toNat, matEntry G r j ≠ decide (j = r)) →
        exec (.gload n) s = .next (completion (some .notStandardForm) s)) ∧
      ((∃ g ∈ G, g ≠ 0) →
        (s.cfg.sfCheck = true → ∀ r < a.toNat, ∀ j < a.toNat, matEntry G r j = decide (j = r)) →
        ∃ d, exec (.gload n) s = .next (completion none { s with
            code := some ⟨n, a.toNat, G, d, d - 1, (d - 1) / 2, codewordList a.toNat G, none, none, none⟩ }) ∧
          1 ≤ d ∧ d ≤ n ∧ (∃ u : BitWord .information a.toNat, weight (encodeWord G u).bits = d) ∧
          ∀ u : BitWord .information a.toNat, encodeWord G u ≠ zeroWord .code n → d ≤ weight (encodeWord G u).bits)) ∧
  ∀ n ≤ 31, decode (BitVec.ofNat 32 (n * 256 + 0x02)) = .ok (.gload n)

/-- PROPS (R128): the byte fields of RES0 and RES1, each the low eight bits of its property. -/
def Obligations.PropsPacksTheProperties : Prop :=
  (∀ (s : State) (c a b : Reg) (code : Code), s.eng = .busy c a b → s.code = some code →
    ∃ r0 r1, exec .props s = .next (completion none { s with res0 := r0, res1 := r1 }) ∧
      r0.toNat = code.d % 256 * 65536 + code.k % 256 * 256 + code.n % 256 ∧
      r1.toNat = code.cor % 256 * 256 + code.det % 256) ∧
  (∀ (s : State) (c a b : Reg), s.eng = .busy c a b → s.code = none →
    exec .props s = .next (completion (some .notLoaded) s)) ∧
  ∀ w : Reg, decode w = .ok .props ↔ w = 0x00000007

/-- RDG (R129): row OPA of the installed generator, or IndexOutOfRange. -/
def Obligations.RdgReadsTheInstalledRow : Prop :=
  (∀ (s : State) (c a b : Reg) (code : Code), s.eng = .busy c a b → s.code = some code → CodeInv code →
    (a.toNat < code.k →
      ∃ row, code.G[a.toNat]? = some row ∧
        exec .rdg s = .next (completion none { s with res0 := BitVec.ofNat 32 row.toNat })) ∧
    (code.k ≤ a.toNat → exec .rdg s = .next (completion (some .indexOutOfRange) s))) ∧
  (∀ (s : State) (c a b : Reg), s.eng = .busy c a b → s.code = none →
    exec .rdg s = .next (completion (some .notLoaded) s)) ∧
  ∀ w : Reg, decode w = .ok .rdg ↔ w = 0x00000008

/-- ENCODE (R122, R130): bit j of the codeword is the XOR over r of `u⟨r⟩ AND G⟨r, j⟩`; the length must be k. -/
def Obligations.EncodeMultipliesByTheGenerator : Prop :=
  (∀ (s : State) (c a b : Reg) (code : Code) (L : Nat), s.eng = .busy c a b → s.code = some code →
    (L ≤ s.cfg.nMax → a.toNat < 2 ^ L → L = code.k →
      ∃ v : BitVec code.n, exec (.encode L) s = .next (completion none { s with res0 := BitVec.ofNat 32 v.toNat }) ∧
        ∀ j < code.n,
          v.getMsbD j = xorSum code.k fun r => (BitVec.ofNat code.k a.toNat).getMsbD r && matEntry code.G r j) ∧
    (Malformed s L a → exec (.encode L) s = .next (completion (some .malformedInput) s)) ∧
    (L ≤ s.cfg.nMax → a.toNat < 2 ^ L → L ≠ code.k →
      exec (.encode L) s = .next (completion (some .dimensionMismatch) s))) ∧
  (∀ (s : State) (c a b : Reg) (L : Nat), s.eng = .busy c a b → s.code = none →
    exec (.encode L) s = .next (completion (some .notLoaded) s)) ∧
  ∀ L ≤ 31, decode (BitVec.ofNat 32 (L * 256 + 0x03)) = .ok (.encode L)

/-- Systematic encoding (R123): in standard form the first k bits of a codeword are the information word, so encoding
is injective and only the zero word encodes to weight 0. -/
def Obligations.EncodingIsSystematic : Prop :=
  ∀ (n k : Nat) (G : List (BitVec n)), k ≤ n → G.length = k → standardForm k G = true →
    (∀ u : BitWord .information k, leftBits k (encodeWord G u).bits = u.bits) ∧
      (∀ u v : BitWord .information k, encodeWord G u = encodeWord G v → u = v) ∧
      ∀ u : BitWord .information k, weight (encodeWord G u).bits = 0 → u = zeroWord .information k

/-- The codeword list (R126): the 2^k encodings, as often as they occur, in ascending (weight, int) order; in standard
form it starts with the zero word and repeats none. -/
def Obligations.CodewordListIsSortedAndComplete : Prop :=
  ∀ (n k : Nat) (G : List (BitVec n)),
    (codewordList k G).length = 2 ^ k ∧
      (codewordList k G).Perm
        ((List.range (2 ^ k)).map fun i => encodeWord G (⟨BitVec.ofNat k i⟩ : BitWord .information k)) ∧
      ((codewordList k G).Pairwise fun v w => precedes w.bits v.bits = false) ∧
      (k ≤ n → G.length = k → standardForm k G = true →
        (codewordList k G)[0]? = some (zeroWord .code n) ∧ (codewordList k G).Nodup)

/-- RDCW (R131): the codeword at position OPA of the sorted list, which a loaded code always holds, or
IndexOutOfRange. -/
def Obligations.RdcwReadsTheSortedList : Prop :=
  (∀ (s : State) (c a b : Reg) (code : Code), s.eng = .busy c a b → s.code = some code → CodeInv code →
    (a.toNat < 2 ^ code.k →
      ∃ w, (codewordList code.k code.G)[a.toNat]? = some w ∧
        exec .rdcw s = .next (completion none { s with res0 := BitVec.ofNat 32 w.bits.toNat })) ∧
    (2 ^ code.k ≤ a.toNat → exec .rdcw s = .next (completion (some .indexOutOfRange) s))) ∧
  (∀ (s : State) (c a b : Reg), s.eng = .busy c a b → s.code = none →
    exec .rdcw s = .next (completion (some .notLoaded) s)) ∧
  ∀ w : Reg, decode w = .ok .rdcw ↔ w = 0x0000000A

/-! ### The parity-check matrix (42_parity_syndrome.md) -/

/-- RDH (R150, R152): row OPA of `H = [Aᵗ | I]` entry by entry, H_VALID set, or IndexOutOfRange with no build. -/
def Obligations.RdhReadsTheParityMatrix : Prop :=
  (∀ (s : State) (c a b : Reg) (code : Code), s.eng = .busy c a b → s.code = some code → CodeInv code →
    (a.toNat < code.n - code.k →
      ∃ row : BitVec code.n, (∀ j < code.n, row.getMsbD j = parityEntry code.k code.G a.toNat j) ∧
        exec .rdh s = .next (completion none
          { s with res0 := BitVec.ofNat 32 row.toNat, code := some code.parityBuilt })) ∧
    (code.n - code.k ≤ a.toNat → exec .rdh s = .next (completion (some .indexOutOfRange) s))) ∧
  (∀ (s : State) (c a b : Reg), s.eng = .busy c a b → s.code = none →
    exec .rdh s = .next (completion (some .notLoaded) s)) ∧
  ∀ w : Reg, decode w = .ok .rdh ↔ w = 0x00000009

/-- SYND (R151, R153): bit i of the syndrome is the XOR over j of `r⟨j⟩ AND H⟨i, j⟩`; the length must be n. -/
def Obligations.SyndComputesTheSyndrome : Prop :=
  (∀ (s : State) (c a b : Reg) (code : Code) (L : Nat), s.eng = .busy c a b → s.code = some code → CodeInv code →
    (L ≤ s.cfg.nMax → a.toNat < 2 ^ L → L = code.n →
      ∃ v : BitVec (code.n - code.k),
        (∀ i < code.n - code.k, v.getMsbD i = syndromeBit code.k code.G (BitVec.ofNat code.n a.toNat) i) ∧
        exec (.synd L) s = .next (completion none
          { s with res0 := BitVec.ofNat 32 v.toNat, code := some code.parityBuilt })) ∧
    (Malformed s L a → exec (.synd L) s = .next (completion (some .malformedInput) s)) ∧
    (L ≤ s.cfg.nMax → a.toNat < 2 ^ L → L ≠ code.n →
      exec (.synd L) s = .next (completion (some .dimensionMismatch) s))) ∧
  (∀ (s : State) (c a b : Reg) (L : Nat), s.eng = .busy c a b → s.code = none →
    exec (.synd L) s = .next (completion (some .notLoaded) s)) ∧
  ∀ L ≤ 31, decode (BitVec.ofNat 32 (L * 256 + 0x04)) = .ok (.synd L)

/-- CONTAINS (R154): RES0 is 1 exactly for a word of length n whose syndrome is all zero; another length is 0 with OK
and builds nothing; only MalformedInput and NotLoaded are errors. -/
def Obligations.ContainsTestsTheSyndrome : Prop :=
  (∀ (s : State) (c a b : Reg) (code : Code) (L : Nat), s.eng = .busy c a b → s.code = some code → CodeInv code →
    (L ≤ s.cfg.nMax → a.toNat < 2 ^ L → L = code.n →
      ∃ v : Reg, ((∀ i < code.n - code.k, syndromeBit code.k code.G (BitVec.ofNat code.n a.toNat) i = false) → v = 1) ∧
        ((∃ i < code.n - code.k, syndromeBit code.k code.G (BitVec.ofNat code.n a.toNat) i = true) → v = 0) ∧
        exec (.contains L) s = .next (completion none { s with res0 := v, code := some code.parityBuilt })) ∧
    (Malformed s L a → exec (.contains L) s = .next (completion (some .malformedInput) s)) ∧
    (L ≤ s.cfg.nMax → a.toNat < 2 ^ L → L ≠ code.n →
      exec (.contains L) s = .next (completion none { s with res0 := 0 }))) ∧
  (∀ (s : State) (c a b : Reg) (L : Nat), s.eng = .busy c a b → s.code = none →
    exec (.contains L) s = .next (completion (some .notLoaded) s)) ∧
  ∀ L ≤ 31, decode (BitVec.ofNat 32 (L * 256 + 0x05)) = .ok (.contains L)

/-- The laws of the syndrome (R151, R155). It is linear; and in standard form it vanishes on the rows of G
(G·Hᵗ = 0), its kernel is exactly the enumerated codeword list, words share it exactly when they share a coset of the
code, and every syndrome occurs. -/
def Obligations.SyndromeKernelIsTheCode : Prop :=
  ∀ (n k : Nat) (G : List (BitVec n)), k ≤ n → G.length = k →
    (∀ x y : BitWord .code n,
      syndromeWord (n - k) (parityMatrix k G) (addWord x y) =
        addWord (syndromeWord (n - k) (parityMatrix k G) x) (syndromeWord (n - k) (parityMatrix k G) y)) ∧
      (standardForm k G = true →
        (∀ g ∈ G, syndromeWord (n - k) (parityMatrix k G) ⟨g⟩ = zeroWord .syndrome (n - k)) ∧
        (∀ r : BitWord .code n,
          syndromeWord (n - k) (parityMatrix k G) r = zeroWord .syndrome (n - k) ↔ r ∈ codewordList k G) ∧
        (∀ x y : BitWord .code n,
          syndromeWord (n - k) (parityMatrix k G) x = syndromeWord (n - k) (parityMatrix k G) y ↔
            addWord x y ∈ codewordList k G) ∧
        ∀ v : BitWord .syndrome (n - k), ∃ r : BitWord .code n, syndromeWord (n - k) (parityMatrix k G) r = v)

/-! ### The standard array (43_standard_array.md) -/

/-- The standard array of a generator with independent rows (whose codewords are distinct; one in standard form is
such) has 2^(n−k) rows of 2^k words and holds every word of length n exactly once (R171). -/
def Obligations.StandardArrayPartitionsAllWords : Prop :=
  ∀ (n k : Nat) (G : List (BitVec n)), (codewordList k G).Nodup →
    (standardArray k (codewordList k G)).length = 2 ^ (n - k) ∧
      (∀ row ∈ standardArray k (codewordList k G), row.length = 2 ^ k) ∧
      (standardArray k (codewordList k G)).flatten.Nodup ∧
      ∀ r : BitWord .code n, r ∈ (standardArray k (codewordList k G)).flatten

/-- The leader of a row is its ≺-least word, the leaders stand in ascending ≺ order, and every entry is its leader plus
the entry of row 0 at its position (R172). -/
def Obligations.LeadersAreLeastOfTheirCosets : Prop :=
  ∀ (n k : Nat) (G : List (BitVec n)), (codewordList k G).Nodup →
    ∀ j p (e w : BitWord .code n), arrayEntry (standardArray k (codewordList k G)) j 0 = some e →
      arrayEntry (standardArray k (codewordList k G)) j p = some w →
      (w = e ∨ precedes e.bits w.bits = true) ∧
        (∃ z, arrayEntry (standardArray k (codewordList k G)) 0 p = some z ∧ w = addWord e z) ∧
        ∀ j' e', j < j' → arrayEntry (standardArray k (codewordList k G)) j' 0 = some e' →
          precedes e.bits e'.bits = true

/-- RDSA (R174): the entry at row OPA and position OPB of the array, SA_VALID set; IndexOutOfRange builds nothing. A
generator with dependent rows is refused, as R134 asks of a model; that the index check comes first is the model's
choice (log entry 10). -/
def Obligations.RdsaReadsTheStandardArray : Prop :=
  (∀ (s : State) (c a b : Reg) (code : Code), s.eng = .busy c a b → s.code = some code → CodeInv code →
    (code.cw.Nodup → a.toNat < 2 ^ (code.n - code.k) → b.toNat < 2 ^ code.k →
      ∃ w, arrayEntry (standardArray code.k code.cw) a.toNat b.toNat = some w ∧
        exec .rdsa s = .next (completion none
          { s with res0 := BitVec.ofNat 32 w.bits.toNat, code := some code.arrayBuilt })) ∧
    (2 ^ (code.n - code.k) ≤ a.toNat ∨ 2 ^ code.k ≤ b.toNat →
      exec .rdsa s = .next (completion (some .indexOutOfRange) s)) ∧
    (a.toNat < 2 ^ (code.n - code.k) → b.toNat < 2 ^ code.k → ¬code.cw.Nodup →
      exec .rdsa s = .refused .dependentRows)) ∧
  (∀ (s : State) (c a b : Reg), s.eng = .busy c a b → s.code = none →
    exec .rdsa s = .next (completion (some .notLoaded) s)) ∧
  ∀ w : Reg, decode w = .ok .rdsa ↔ w = 0x0000000B

/-- DECODE.SA (R175, R176, R177): with e the ≺-least word of r's coset, UncorrectableError if `wt(e) > d − 1`, else the
leftmost k bits of the codeword r ⊕ e (the information word in standard form) and the error pattern e; the array is
kept either way. That the leader is the least word of its coset is R172 and R173. A generator with dependent rows is
refused where the array is needed (R134), after the operand checks by the model's choice (log entry 10). -/
def Obligations.DecodeSaReturnsTheCosetLeader : Prop :=
  (∀ (s : State) (c a b : Reg) (code : Code) (L : Nat), s.eng = .busy c a b → s.code = some code → CodeInv code →
    (code.cw.Nodup → L ≤ s.cfg.nMax → a.toNat < 2 ^ L → L = code.n →
      ∃ r e : BitWord .code code.n, r.bits.toNat = a.toNat ∧ addWord r e ∈ code.cw ∧
        (∀ w ∈ code.cw, precedes (addWord r w).bits e.bits = false) ∧
        (code.det < weight e.bits → exec (.decodeSa L) s =
          .next (completion (some .uncorrectableError) { s with code := some code.arrayBuilt })) ∧
        (weight e.bits ≤ code.det → exec (.decodeSa L) s = .next (completion none { s with
          res0 := BitVec.ofNat 32 ((addWord r e).bits.toNat / 2 ^ (code.n - code.k))
          res1 := BitVec.ofNat 32 e.bits.toNat
          code := some code.arrayBuilt }))) ∧
    (¬code.cw.Nodup → L ≤ s.cfg.nMax → a.toNat < 2 ^ L → L = code.n →
      exec (.decodeSa L) s = .refused .dependentRows) ∧
    (Malformed s L a → exec (.decodeSa L) s = .next (completion (some .malformedInput) s)) ∧
    (L ≤ s.cfg.nMax → a.toNat < 2 ^ L → L ≠ code.n →
      exec (.decodeSa L) s = .next (completion (some .dimensionMismatch) s))) ∧
  (∀ (s : State) (c a b : Reg) (L : Nat), s.eng = .busy c a b → s.code = none →
    exec (.decodeSa L) s = .next (completion (some .notLoaded) s)) ∧
  ∀ L ≤ 31, decode (BitVec.ofNat 32 (L * 256 + 0x06)) = .ok (.decodeSa L)

/-- Standard-array decoding corrects every error of weight at most max_errors_correct: `c ⊕ e` decodes to the leftmost k
bits of c and the error e (R177); in standard form these bits are c's information word (R123). It holds for every
generator with distinct codewords. -/
def Obligations.DecodingCorrectsUpToTheRadius : Prop :=
  ∀ (s : State) (w a b : Reg) (code : Code) (c e : BitWord .code code.n), s.eng = .busy w a b → s.code = some code →
    CodeInv code → code.cw.Nodup → code.n ≤ s.cfg.nMax → code.n ≤ 32 → c ∈ code.cw →
    weight e.bits ≤ code.cor → a = BitVec.ofNat 32 (addWord c e).bits.toNat →
    exec (.decodeSa code.n) s = .next (completion none { s with
      res0 := BitVec.ofNat 32 (c.bits.toNat / 2 ^ (code.n - code.k))
      res1 := BitVec.ofNat 32 e.bits.toNat
      code := some code.arrayBuilt })

/-! ### The syndrome table (44_syndrome_decoder.md) -/

/-- The syndrome table has exactly 2^(n−k) entries, one per syndrome, and each is the ≺-least word with its syndrome,
whatever the generator (R190, R191). -/
def Obligations.SyndromeTableHoldsTheLeastWords : Prop :=
  ∀ (n k : Nat) (G : List (BitVec n)), k ≤ n →
    (syndromeTable (n - k) (parityMatrix k G)).length = 2 ^ (n - k) ∧
      ((syndromeTable (n - k) (parityMatrix k G)).map Prod.fst).Nodup ∧
      ∀ v : BitWord .syndrome (n - k), ∃ e, tableLookup (syndromeTable (n - k) (parityMatrix k G)) v = some e ∧
        syndromeWord (n - k) (parityMatrix k G) e = v ∧
        ∀ x : BitWord .code n, syndromeWord (n - k) (parityMatrix k G) x = v → precedes x.bits e.bits = false

/-- RDST (R193): the ≺-least word whose syndrome has the value OPA, ST_VALID and H_VALID set, or IndexOutOfRange with no
build. -/
def Obligations.RdstReadsTheSyndromeTable : Prop :=
  (∀ (s : State) (c a b : Reg) (code : Code), s.eng = .busy c a b → s.code = some code → CodeInv code →
    (a.toNat < 2 ^ (code.n - code.k) →
      ∃ e : BitWord .code code.n,
        (syndromeWord (code.n - code.k) (parityMatrix code.k code.G) e).bits.toNat = a.toNat ∧
        (∀ x : BitWord .code code.n,
          (syndromeWord (code.n - code.k) (parityMatrix code.k code.G) x).bits.toNat = a.toNat →
          precedes x.bits e.bits = false) ∧
        exec .rdst s = .next (completion none
          { s with res0 := BitVec.ofNat 32 e.bits.toNat, code := some code.tableBuilt })) ∧
    (2 ^ (code.n - code.k) ≤ a.toNat → exec .rdst s = .next (completion (some .indexOutOfRange) s))) ∧
  (∀ (s : State) (c a b : Reg), s.eng = .busy c a b → s.code = none →
    exec .rdst s = .next (completion (some .notLoaded) s)) ∧
  ∀ w : Reg, decode w = .ok .rdst ↔ w = 0x0000000C

/-- DECODE.ST (R194, R195): with e the ≺-least word of r's syndrome, UncorrectableError if P_ST_CHECK = 1 and
`wt(e) > d − 1`, else the leftmost k bits of r ⊕ e and the error pattern e; the table is kept either way. -/
def Obligations.DecodeStReturnsTheSyndromeLeader : Prop :=
  (∀ (s : State) (c a b : Reg) (code : Code) (L : Nat), s.eng = .busy c a b → s.code = some code → CodeInv code →
    (L ≤ s.cfg.nMax → a.toNat < 2 ^ L → L = code.n →
      ∃ r e : BitWord .code code.n, r.bits.toNat = a.toNat ∧
        syndromeWord (code.n - code.k) (parityMatrix code.k code.G) e =
          syndromeWord (code.n - code.k) (parityMatrix code.k code.G) r ∧
        (∀ x, syndromeWord (code.n - code.k) (parityMatrix code.k code.G) x =
            syndromeWord (code.n - code.k) (parityMatrix code.k code.G) r → precedes x.bits e.bits = false) ∧
        (s.cfg.stCheck = true → code.det < weight e.bits → exec (.decodeSt L) s =
          .next (completion (some .uncorrectableError) { s with code := some code.tableBuilt })) ∧
        (s.cfg.stCheck = false ∨ weight e.bits ≤ code.det → exec (.decodeSt L) s = .next (completion none { s with
          res0 := BitVec.ofNat 32 ((addWord r e).bits.toNat / 2 ^ (code.n - code.k))
          res1 := BitVec.ofNat 32 e.bits.toNat
          code := some code.tableBuilt }))) ∧
    (Malformed s L a → exec (.decodeSt L) s = .next (completion (some .malformedInput) s)) ∧
    (L ≤ s.cfg.nMax → a.toNat < 2 ^ L → L ≠ code.n →
      exec (.decodeSt L) s = .next (completion (some .dimensionMismatch) s))) ∧
  (∀ (s : State) (c a b : Reg) (L : Nat), s.eng = .busy c a b → s.code = none →
    exec (.decodeSt L) s = .next (completion (some .notLoaded) s)) ∧
  ∀ L ≤ 31, decode (BitVec.ofNat 32 (0x10000 + L * 256 + 0x06)) = .ok (.decodeSt L)

/-- The two decoders agree on every received word (R196): in standard form with P_ST_CHECK = 1, the same error code and
the same results. -/
def Obligations.BothDecodersAgree : Prop :=
  ∀ (s : State) (c a b : Reg) (code : Code) (L : Nat), s.eng = .busy c a b → s.code = some code → CodeInv code →
    standardForm code.k code.G = true → s.cfg.stCheck = true →
    ∃ t t', exec (.decodeSa L) s = .next t ∧ exec (.decodeSt L) s = .next t' ∧ sameReport t t'
end

