-- ==== Sys2Proof/Laws/State.lean ====
section
/-! SUPPORT. One lemma per field and named update of the state, each true by unfolding, so that no proof unfolds a record
update. -/

namespace Sys2Proof.Machine

/-! ### setRes0 -/

@[simp] theorem setRes0_cfg (v : Reg) (s : State) : (setRes0 v s).cfg = s.cfg := rfl
@[simp] theorem setRes0_ie (v : Reg) (s : State) : (setRes0 v s).ie = s.ie := rfl
@[simp] theorem setRes0_done (v : Reg) (s : State) : (setRes0 v s).done = s.done := rfl
@[simp] theorem setRes0_overrun (v : Reg) (s : State) : (setRes0 v s).overrun = s.overrun := rfl
@[simp] theorem setRes0_err (v : Reg) (s : State) : (setRes0 v s).err = s.err := rfl
@[simp] theorem setRes0_lastcmd (v : Reg) (s : State) : (setRes0 v s).lastcmd = s.lastcmd := rfl
@[simp] theorem setRes0_opa (v : Reg) (s : State) : (setRes0 v s).opa = s.opa := rfl
@[simp] theorem setRes0_opb (v : Reg) (s : State) : (setRes0 v s).opb = s.opb := rfl
@[simp] theorem setRes0_res0 (v : Reg) (s : State) : (setRes0 v s).res0 = v := rfl
@[simp] theorem setRes0_res1 (v : Reg) (s : State) : (setRes0 v s).res1 = s.res1 := rfl
@[simp] theorem setRes0_cmdcnt (v : Reg) (s : State) : (setRes0 v s).cmdcnt = s.cmdcnt := rfl
@[simp] theorem setRes0_gs (v : Reg) (s : State) : (setRes0 v s).gs = s.gs := rfl
@[simp] theorem setRes0_code (v : Reg) (s : State) : (setRes0 v s).code = s.code := rfl
@[simp] theorem setRes0_eng (v : Reg) (s : State) : (setRes0 v s).eng = s.eng := rfl
@[simp] theorem setRes0_inReset (v : Reg) (s : State) : (setRes0 v s).inReset = s.inReset := rfl
@[simp] theorem setRes0_delay (v : Reg) (s : State) : (setRes0 v s).delay = s.delay := rfl
@[simp] theorem setRes0_tick (v : Reg) (s : State) : (setRes0 v s).tick = s.tick := rfl
@[simp] theorem setRes0_inputs (v : Reg) (s : State) : (setRes0 v s).inputs = s.inputs := rfl
@[simp] theorem setRes0_lastRead (v : Reg) (s : State) : (setRes0 v s).lastRead = s.lastRead := rfl

/-! ### setRes1 -/

@[simp] theorem setRes1_cfg (v : Reg) (s : State) : (setRes1 v s).cfg = s.cfg := rfl
@[simp] theorem setRes1_ie (v : Reg) (s : State) : (setRes1 v s).ie = s.ie := rfl
@[simp] theorem setRes1_done (v : Reg) (s : State) : (setRes1 v s).done = s.done := rfl
@[simp] theorem setRes1_overrun (v : Reg) (s : State) : (setRes1 v s).overrun = s.overrun := rfl
@[simp] theorem setRes1_err (v : Reg) (s : State) : (setRes1 v s).err = s.err := rfl
@[simp] theorem setRes1_lastcmd (v : Reg) (s : State) : (setRes1 v s).lastcmd = s.lastcmd := rfl
@[simp] theorem setRes1_opa (v : Reg) (s : State) : (setRes1 v s).opa = s.opa := rfl
@[simp] theorem setRes1_opb (v : Reg) (s : State) : (setRes1 v s).opb = s.opb := rfl
@[simp] theorem setRes1_res0 (v : Reg) (s : State) : (setRes1 v s).res0 = s.res0 := rfl
@[simp] theorem setRes1_res1 (v : Reg) (s : State) : (setRes1 v s).res1 = v := rfl
@[simp] theorem setRes1_cmdcnt (v : Reg) (s : State) : (setRes1 v s).cmdcnt = s.cmdcnt := rfl
@[simp] theorem setRes1_gs (v : Reg) (s : State) : (setRes1 v s).gs = s.gs := rfl
@[simp] theorem setRes1_code (v : Reg) (s : State) : (setRes1 v s).code = s.code := rfl
@[simp] theorem setRes1_eng (v : Reg) (s : State) : (setRes1 v s).eng = s.eng := rfl
@[simp] theorem setRes1_inReset (v : Reg) (s : State) : (setRes1 v s).inReset = s.inReset := rfl
@[simp] theorem setRes1_delay (v : Reg) (s : State) : (setRes1 v s).delay = s.delay := rfl
@[simp] theorem setRes1_tick (v : Reg) (s : State) : (setRes1 v s).tick = s.tick := rfl
@[simp] theorem setRes1_inputs (v : Reg) (s : State) : (setRes1 v s).inputs = s.inputs := rfl
@[simp] theorem setRes1_lastRead (v : Reg) (s : State) : (setRes1 v s).lastRead = s.lastRead := rfl

/-! ### setCode -/

@[simp] theorem setCode_cfg (c : Code) (s : State) : (setCode c s).cfg = s.cfg := rfl
@[simp] theorem setCode_ie (c : Code) (s : State) : (setCode c s).ie = s.ie := rfl
@[simp] theorem setCode_done (c : Code) (s : State) : (setCode c s).done = s.done := rfl
@[simp] theorem setCode_overrun (c : Code) (s : State) : (setCode c s).overrun = s.overrun := rfl
@[simp] theorem setCode_err (c : Code) (s : State) : (setCode c s).err = s.err := rfl
@[simp] theorem setCode_lastcmd (c : Code) (s : State) : (setCode c s).lastcmd = s.lastcmd := rfl
@[simp] theorem setCode_opa (c : Code) (s : State) : (setCode c s).opa = s.opa := rfl
@[simp] theorem setCode_opb (c : Code) (s : State) : (setCode c s).opb = s.opb := rfl
@[simp] theorem setCode_res0 (c : Code) (s : State) : (setCode c s).res0 = s.res0 := rfl
@[simp] theorem setCode_res1 (c : Code) (s : State) : (setCode c s).res1 = s.res1 := rfl
@[simp] theorem setCode_cmdcnt (c : Code) (s : State) : (setCode c s).cmdcnt = s.cmdcnt := rfl
@[simp] theorem setCode_gs (c : Code) (s : State) : (setCode c s).gs = s.gs := rfl
@[simp] theorem setCode_code (c : Code) (s : State) : (setCode c s).code = some c := rfl
@[simp] theorem setCode_eng (c : Code) (s : State) : (setCode c s).eng = s.eng := rfl
@[simp] theorem setCode_inReset (c : Code) (s : State) : (setCode c s).inReset = s.inReset := rfl
@[simp] theorem setCode_delay (c : Code) (s : State) : (setCode c s).delay = s.delay := rfl
@[simp] theorem setCode_tick (c : Code) (s : State) : (setCode c s).tick = s.tick := rfl
@[simp] theorem setCode_inputs (c : Code) (s : State) : (setCode c s).inputs = s.inputs := rfl
@[simp] theorem setCode_lastRead (c : Code) (s : State) : (setCode c s).lastRead = s.lastRead := rfl

/-! ### setStaged -/

@[simp] theorem setStaged_cfg (r : Nat) (row : StagedRow) (s : State) : (setStaged r row s).cfg = s.cfg := rfl
@[simp] theorem setStaged_ie (r : Nat) (row : StagedRow) (s : State) : (setStaged r row s).ie = s.ie := rfl
@[simp] theorem setStaged_done (r : Nat) (row : StagedRow) (s : State) : (setStaged r row s).done = s.done := rfl
@[simp] theorem setStaged_overrun (r : Nat) (row : StagedRow) (s : State) : (setStaged r row s).overrun = s.overrun := rfl
@[simp] theorem setStaged_err (r : Nat) (row : StagedRow) (s : State) : (setStaged r row s).err = s.err := rfl
@[simp] theorem setStaged_lastcmd (r : Nat) (row : StagedRow) (s : State) : (setStaged r row s).lastcmd = s.lastcmd := rfl
@[simp] theorem setStaged_opa (r : Nat) (row : StagedRow) (s : State) : (setStaged r row s).opa = s.opa := rfl
@[simp] theorem setStaged_opb (r : Nat) (row : StagedRow) (s : State) : (setStaged r row s).opb = s.opb := rfl
@[simp] theorem setStaged_res0 (r : Nat) (row : StagedRow) (s : State) : (setStaged r row s).res0 = s.res0 := rfl
@[simp] theorem setStaged_res1 (r : Nat) (row : StagedRow) (s : State) : (setStaged r row s).res1 = s.res1 := rfl
@[simp] theorem setStaged_cmdcnt (r : Nat) (row : StagedRow) (s : State) : (setStaged r row s).cmdcnt = s.cmdcnt := rfl
@[simp] theorem setStaged_gs (r : Nat) (row : StagedRow) (s : State) : (setStaged r row s).gs = s.gs.set r (some row) := rfl
@[simp] theorem setStaged_code (r : Nat) (row : StagedRow) (s : State) : (setStaged r row s).code = s.code := rfl
@[simp] theorem setStaged_eng (r : Nat) (row : StagedRow) (s : State) : (setStaged r row s).eng = s.eng := rfl
@[simp] theorem setStaged_inReset (r : Nat) (row : StagedRow) (s : State) : (setStaged r row s).inReset = s.inReset := rfl
@[simp] theorem setStaged_delay (r : Nat) (row : StagedRow) (s : State) : (setStaged r row s).delay = s.delay := rfl
@[simp] theorem setStaged_tick (r : Nat) (row : StagedRow) (s : State) : (setStaged r row s).tick = s.tick := rfl
@[simp] theorem setStaged_inputs (r : Nat) (row : StagedRow) (s : State) : (setStaged r row s).inputs = s.inputs := rfl
@[simp] theorem setStaged_lastRead (r : Nat) (row : StagedRow) (s : State) : (setStaged r row s).lastRead = s.lastRead := rfl

/-! ### finish -/

@[simp] theorem finish_cfg (e : Option ErrorKind) (s : State) : (finish e s).cfg = s.cfg := rfl
@[simp] theorem finish_ie (e : Option ErrorKind) (s : State) : (finish e s).ie = s.ie := rfl
@[simp] theorem finish_done (e : Option ErrorKind) (s : State) : (finish e s).done = true := rfl
@[simp] theorem finish_overrun (e : Option ErrorKind) (s : State) : (finish e s).overrun = s.overrun := rfl
@[simp] theorem finish_err (e : Option ErrorKind) (s : State) : (finish e s).err = e := rfl
@[simp] theorem finish_lastcmd (e : Option ErrorKind) (s : State) : (finish e s).lastcmd = s.lastcmd := rfl
@[simp] theorem finish_opa (e : Option ErrorKind) (s : State) : (finish e s).opa = s.opa := rfl
@[simp] theorem finish_opb (e : Option ErrorKind) (s : State) : (finish e s).opb = s.opb := rfl
@[simp] theorem finish_res0 (e : Option ErrorKind) (s : State) : (finish e s).res0 = s.res0 := rfl
@[simp] theorem finish_res1 (e : Option ErrorKind) (s : State) : (finish e s).res1 = s.res1 := rfl
@[simp] theorem finish_cmdcnt (e : Option ErrorKind) (s : State) : (finish e s).cmdcnt = s.cmdcnt + 1 := rfl
@[simp] theorem finish_gs (e : Option ErrorKind) (s : State) : (finish e s).gs = s.gs := rfl
@[simp] theorem finish_code (e : Option ErrorKind) (s : State) : (finish e s).code = s.code := rfl
@[simp] theorem finish_eng (e : Option ErrorKind) (s : State) : (finish e s).eng = .idle := rfl
@[simp] theorem finish_inReset (e : Option ErrorKind) (s : State) : (finish e s).inReset = s.inReset := rfl
@[simp] theorem finish_delay (e : Option ErrorKind) (s : State) : (finish e s).delay = s.delay := rfl
@[simp] theorem finish_tick (e : Option ErrorKind) (s : State) : (finish e s).tick = s.tick := rfl
@[simp] theorem finish_inputs (e : Option ErrorKind) (s : State) : (finish e s).inputs = s.inputs := rfl
@[simp] theorem finish_lastRead (e : Option ErrorKind) (s : State) : (finish e s).lastRead = s.lastRead := rfl

/-! ### acknowledge -/

@[simp] theorem acknowledge_cfg (v : Reg) (s : State) : (acknowledge v s).cfg = s.cfg := rfl
@[simp] theorem acknowledge_ie (v : Reg) (s : State) : (acknowledge v s).ie = s.ie := rfl
@[simp] theorem acknowledge_done (v : Reg) (s : State) : (acknowledge v s).done = (s.done && !v.getLsbD 1) := rfl
@[simp] theorem acknowledge_overrun (v : Reg) (s : State) : (acknowledge v s).overrun = (s.overrun && !v.getLsbD 2) := rfl
@[simp] theorem acknowledge_err (v : Reg) (s : State) : (acknowledge v s).err = s.err := rfl
@[simp] theorem acknowledge_lastcmd (v : Reg) (s : State) : (acknowledge v s).lastcmd = s.lastcmd := rfl
@[simp] theorem acknowledge_opa (v : Reg) (s : State) : (acknowledge v s).opa = s.opa := rfl
@[simp] theorem acknowledge_opb (v : Reg) (s : State) : (acknowledge v s).opb = s.opb := rfl
@[simp] theorem acknowledge_res0 (v : Reg) (s : State) : (acknowledge v s).res0 = s.res0 := rfl
@[simp] theorem acknowledge_res1 (v : Reg) (s : State) : (acknowledge v s).res1 = s.res1 := rfl
@[simp] theorem acknowledge_cmdcnt (v : Reg) (s : State) : (acknowledge v s).cmdcnt = s.cmdcnt := rfl
@[simp] theorem acknowledge_gs (v : Reg) (s : State) : (acknowledge v s).gs = s.gs := rfl
@[simp] theorem acknowledge_code (v : Reg) (s : State) : (acknowledge v s).code = s.code := rfl
@[simp] theorem acknowledge_eng (v : Reg) (s : State) : (acknowledge v s).eng = s.eng := rfl
@[simp] theorem acknowledge_inReset (v : Reg) (s : State) : (acknowledge v s).inReset = s.inReset := rfl
@[simp] theorem acknowledge_delay (v : Reg) (s : State) : (acknowledge v s).delay = s.delay := rfl
@[simp] theorem acknowledge_tick (v : Reg) (s : State) : (acknowledge v s).tick = s.tick := rfl
@[simp] theorem acknowledge_inputs (v : Reg) (s : State) : (acknowledge v s).inputs = s.inputs := rfl
@[simp] theorem acknowledge_lastRead (v : Reg) (s : State) : (acknowledge v s).lastRead = s.lastRead := rfl

/-! ### acceptNow -/

@[simp] theorem acceptNow_cfg (c : Reg) (s : State) : (acceptNow c s).cfg = s.cfg := rfl
@[simp] theorem acceptNow_ie (c : Reg) (s : State) : (acceptNow c s).ie = s.ie := rfl
@[simp] theorem acceptNow_done (c : Reg) (s : State) : (acceptNow c s).done = s.done := rfl
@[simp] theorem acceptNow_overrun (c : Reg) (s : State) : (acceptNow c s).overrun = s.overrun := rfl
@[simp] theorem acceptNow_err (c : Reg) (s : State) : (acceptNow c s).err = s.err := rfl
@[simp] theorem acceptNow_lastcmd (c : Reg) (s : State) : (acceptNow c s).lastcmd = c := rfl
@[simp] theorem acceptNow_opa (c : Reg) (s : State) : (acceptNow c s).opa = s.opa := rfl
@[simp] theorem acceptNow_opb (c : Reg) (s : State) : (acceptNow c s).opb = s.opb := rfl
@[simp] theorem acceptNow_res0 (c : Reg) (s : State) : (acceptNow c s).res0 = s.res0 := rfl
@[simp] theorem acceptNow_res1 (c : Reg) (s : State) : (acceptNow c s).res1 = s.res1 := rfl
@[simp] theorem acceptNow_cmdcnt (c : Reg) (s : State) : (acceptNow c s).cmdcnt = s.cmdcnt := rfl
@[simp] theorem acceptNow_gs (c : Reg) (s : State) : (acceptNow c s).gs = s.gs := rfl
@[simp] theorem acceptNow_code (c : Reg) (s : State) : (acceptNow c s).code = s.code := rfl
@[simp] theorem acceptNow_eng (c : Reg) (s : State) : (acceptNow c s).eng = .busy c s.opa s.opb := rfl
@[simp] theorem acceptNow_inReset (c : Reg) (s : State) : (acceptNow c s).inReset = s.inReset := rfl
@[simp] theorem acceptNow_delay (c : Reg) (s : State) : (acceptNow c s).delay = 0 := rfl
@[simp] theorem acceptNow_tick (c : Reg) (s : State) : (acceptNow c s).tick = s.tick := rfl
@[simp] theorem acceptNow_inputs (c : Reg) (s : State) : (acceptNow c s).inputs = s.inputs := rfl
@[simp] theorem acceptNow_lastRead (c : Reg) (s : State) : (acceptNow c s).lastRead = s.lastRead := rfl

/-! ### resetBlock -/

@[simp] theorem resetBlock_cfg (s : State) : (resetBlock s).cfg = s.cfg := rfl
@[simp] theorem resetBlock_ie (s : State) : (resetBlock s).ie = false := rfl
@[simp] theorem resetBlock_done (s : State) : (resetBlock s).done = false := rfl
@[simp] theorem resetBlock_overrun (s : State) : (resetBlock s).overrun = false := rfl
@[simp] theorem resetBlock_err (s : State) : (resetBlock s).err = none := rfl
@[simp] theorem resetBlock_lastcmd (s : State) : (resetBlock s).lastcmd = 0 := rfl
@[simp] theorem resetBlock_opa (s : State) : (resetBlock s).opa = 0 := rfl
@[simp] theorem resetBlock_opb (s : State) : (resetBlock s).opb = 0 := rfl
@[simp] theorem resetBlock_res0 (s : State) : (resetBlock s).res0 = 0 := rfl
@[simp] theorem resetBlock_res1 (s : State) : (resetBlock s).res1 = 0 := rfl
@[simp] theorem resetBlock_cmdcnt (s : State) : (resetBlock s).cmdcnt = 0 := rfl
@[simp] theorem resetBlock_gs (s : State) : (resetBlock s).gs = List.replicate s.cfg.nMax none := rfl
@[simp] theorem resetBlock_code (s : State) : (resetBlock s).code = none := rfl
@[simp] theorem resetBlock_eng (s : State) : (resetBlock s).eng = .idle := rfl
@[simp] theorem resetBlock_inReset (s : State) : (resetBlock s).inReset = s.inReset := rfl
@[simp] theorem resetBlock_delay (s : State) : (resetBlock s).delay = 0 := rfl
@[simp] theorem resetBlock_tick (s : State) : (resetBlock s).tick = s.tick := rfl
@[simp] theorem resetBlock_inputs (s : State) : (resetBlock s).inputs = s.inputs := rfl
@[simp] theorem resetBlock_lastRead (s : State) : (resetBlock s).lastRead = s.lastRead := rfl

/-! ### assertReset -/

@[simp] theorem assertReset_cfg (s : State) : (assertReset s).cfg = s.cfg := rfl
@[simp] theorem assertReset_ie (s : State) : (assertReset s).ie = false := rfl
@[simp] theorem assertReset_done (s : State) : (assertReset s).done = false := rfl
@[simp] theorem assertReset_overrun (s : State) : (assertReset s).overrun = false := rfl
@[simp] theorem assertReset_err (s : State) : (assertReset s).err = none := rfl
@[simp] theorem assertReset_lastcmd (s : State) : (assertReset s).lastcmd = 0 := rfl
@[simp] theorem assertReset_opa (s : State) : (assertReset s).opa = 0 := rfl
@[simp] theorem assertReset_opb (s : State) : (assertReset s).opb = 0 := rfl
@[simp] theorem assertReset_res0 (s : State) : (assertReset s).res0 = 0 := rfl
@[simp] theorem assertReset_res1 (s : State) : (assertReset s).res1 = 0 := rfl
@[simp] theorem assertReset_cmdcnt (s : State) : (assertReset s).cmdcnt = 0 := rfl
@[simp] theorem assertReset_gs (s : State) : (assertReset s).gs = List.replicate s.cfg.nMax none := rfl
@[simp] theorem assertReset_code (s : State) : (assertReset s).code = none := rfl
@[simp] theorem assertReset_eng (s : State) : (assertReset s).eng = .idle := rfl
@[simp] theorem assertReset_inReset (s : State) : (assertReset s).inReset = true := rfl
@[simp] theorem assertReset_delay (s : State) : (assertReset s).delay = 0 := rfl
@[simp] theorem assertReset_tick (s : State) : (assertReset s).tick = s.tick := rfl
@[simp] theorem assertReset_inputs (s : State) : (assertReset s).inputs = s.inputs := rfl
@[simp] theorem assertReset_lastRead (s : State) : (assertReset s).lastRead = s.lastRead := rfl

end Sys2Proof.Machine
end

