-- ==== Sys2Proof/Laws/Ops.lean ====
section
/-! SUPPORT. What each shared operation can do, said once: its value where its condition is known, and what a next
state of it tells. Proofs about commands and steps cite these instead of unfolding the operations. -/

namespace Sys2Proof.Machine

/-! ### Completion -/

@[simp] theorem succeed_eq_next {s t : State} : succeed s = .next t ↔ finish none s = t := by simp [succeed]

@[simp] theorem raise_eq_next {e : ErrorKind} {s t : State} : raise e s = .next t ↔ finish (some e) s = t := by
  simp [raise]

/-! ### The shared checks -/

theorem withLatched_busy {s : State} {c a b : Reg} (h : s.eng = .busy c a b)
    (f : Reg → Reg → Host.Outcome State Fault Refusal) : withLatched s f = f a b := by simp [withLatched, h]

theorem withLatched_next {s t : State} {f : Reg → Reg → Host.Outcome State Fault Refusal}
    (h : withLatched s f = .next t) : ∃ c a b, s.eng = .busy c a b ∧ f a b = .next t := by
  unfold withLatched at h
  split at h
  · exact ⟨_, _, _, by assumption, h⟩
  · cases h

theorem withCode_some {s : State} {c : Code} (h : s.code = some c) (f : Code → Host.Outcome State Fault Refusal) :
    withCode s f = f c := by simp [withCode, h]

theorem withCode_none {s : State} (h : s.code = none) (f : Code → Host.Outcome State Fault Refusal) :
    withCode s f = raise .notLoaded s := by simp [withCode, h]

theorem withCode_next {s t : State} {f : Code → Host.Outcome State Fault Refusal} (h : withCode s f = .next t) :
    (∃ c, s.code = some c ∧ f c = .next t) ∨ (s.code = none ∧ t = finish (some .notLoaded) s) := by
  cases hc : s.code with
  | none => exact .inr ⟨rfl, (raise_eq_next.mp (withCode_none hc f ▸ h)).symm⟩
  | some c => exact .inl ⟨c, rfl, withCode_some hc f ▸ h⟩

theorem operand_eq_some {role : Role} {nMax : Nat} {v : Reg} {L : Nat} {w : BitWord role L} :
    operand role nMax v L = some w ↔ L ≤ nMax ∧ v.toNat < 2 ^ L ∧ w = ⟨BitVec.ofNat L v.toNat⟩ := by
  unfold operand
  split
  · simp; omega
  · split
    · simp; omega
    · simp only [Option.some.injEq]
      exact ⟨fun h => ⟨by omega, by omega, h.symm⟩, fun h => h.2.2.symm⟩

theorem operand_eq_none {role : Role} {nMax : Nat} {v : Reg} {L : Nat} :
    operand role nMax v L = none ↔ nMax < L ∨ 2 ^ L ≤ v.toNat := by
  unfold operand
  split <;> (try split) <;> simp <;> omega

theorem withWord_ok {role : Role} {v : Reg} {L : Nat} {s : State} (hL : L ≤ s.cfg.nMax) (hv : v.toNat < 2 ^ L)
    (f : BitWord role L → Host.Outcome State Fault Refusal) :
    withWord role v L s f = f ⟨BitVec.ofNat L v.toNat⟩ := by
  simp [withWord, (operand_eq_some (role := role)).mpr ⟨hL, hv, rfl⟩]

theorem withWord_malformed {role : Role} {v : Reg} {L : Nat} {s : State} (h : s.cfg.nMax < L ∨ 2 ^ L ≤ v.toNat)
    (f : BitWord role L → Host.Outcome State Fault Refusal) : withWord role v L s f = raise .malformedInput s := by
  simp [withWord, (operand_eq_none (role := role)).mpr h]

theorem withWord_next {role : Role} {v : Reg} {L : Nat} {s t : State}
    {f : BitWord role L → Host.Outcome State Fault Refusal} (h : withWord role v L s f = .next t) :
    (L ≤ s.cfg.nMax ∧ v.toNat < 2 ^ L ∧ f ⟨BitVec.ofNat L v.toNat⟩ = .next t) ∨
      ((s.cfg.nMax < L ∨ 2 ^ L ≤ v.toNat) ∧ t = finish (some .malformedInput) s) := by
  by_cases hb : s.cfg.nMax < L ∨ 2 ^ L ≤ v.toNat
  · exact .inr ⟨hb, (raise_eq_next.mp (withWord_malformed hb f ▸ h)).symm⟩
  · have hL : L ≤ s.cfg.nMax := by omega
    have hv : v.toNat < 2 ^ L := by omega
    exact .inl ⟨hL, hv, withWord_ok hL hv f ▸ h⟩

theorem withLength_self {role : Role} {L : Nat} (w : BitWord role L) (s : State)
    (f : BitWord role L → Host.Outcome State Fault Refusal) : withLength w L s f = f w := by simp [withLength]

theorem withLength_ne {role : Role} {L required : Nat} (w : BitWord role L) (s : State) (h : L ≠ required)
    (f : BitWord role required → Host.Outcome State Fault Refusal) :
    withLength w required s f = raise .dimensionMismatch s := by simp [withLength, h]

theorem withLength_next {role : Role} {L required : Nat} {w : BitWord role L} {s t : State}
    {f : BitWord role required → Host.Outcome State Fault Refusal} (h : withLength w required s f = .next t) :
    (∃ e : L = required, f ⟨w.bits.cast e⟩ = .next t) ∨
      (L ≠ required ∧ t = finish (some .dimensionMismatch) s) := by
  unfold withLength at h
  split at h
  · exact .inl ⟨_, h⟩
  · exact .inr ⟨by assumption, (raise_eq_next.mp h).symm⟩

@[simp] theorem withinRange_true (s : State) (k : Host.Outcome State Fault Refusal) : withinRange true s k = k := rfl

@[simp] theorem withinRange_false (s : State) (k : Host.Outcome State Fault Refusal) :
    withinRange false s k = raise .indexOutOfRange s := rfl

theorem withinRange_next {p : Bool} {s t : State} {k : Host.Outcome State Fault Refusal}
    (h : withinRange p s k = .next t) : (p = true ∧ k = .next t) ∨ (p = false ∧ t = finish (some .indexOutOfRange) s) := by
  cases p with
  | true => exact .inl ⟨rfl, h⟩
  | false => exact .inr ⟨rfl, (raise_eq_next.mp h).symm⟩

theorem withEntry_next {α : Type} {entry : Option α} {f : α → Host.Outcome State Fault Refusal} {t : State}
    (h : withEntry entry f = .next t) : ∃ x, entry = some x ∧ f x = .next t := by
  cases entry with
  | none => cases h
  | some x => exact ⟨x, rfl, h⟩

theorem withStandardArray_next {c : Code} {k : Host.Outcome State Fault Refusal} {t : State}
    (h : withStandardArray c k = .next t) : hasRepeat c.cw = false ∧ k = .next t := by
  cases hr : hasRepeat c.cw with
  | true => simp [withStandardArray, hr] at h
  | false => exact ⟨rfl, by simpa [withStandardArray, hr] using h⟩

/-! ### The caches: a build is done once, and keeps the code instance (R32, R34) -/

@[simp] theorem parityOf_withParity (c : Code) : parityOf (withParity c) = parityOf c := rfl

@[simp] theorem arrayOf_withArray (c : Code) : arrayOf (withArray c) = arrayOf c := rfl

theorem withParity_withParity (c : Code) : withParity (withParity c) = withParity c := rfl

theorem withArray_withArray (c : Code) : withArray (withArray c) = withArray c := rfl

theorem withTable_valid {c : Code} (h : c.st.isSome = true) : withTable c = c := by
  cases hs : c.st with
  | none => simp [hs] at h
  | some st => simp [withTable, hs]

theorem withTable_st_isSome (c : Code) : (withTable c).st.isSome = true := by
  unfold withTable
  split <;> simp_all

theorem withTable_withTable (c : Code) : withTable (withTable c) = withTable c :=
  withTable_valid (withTable_st_isSome c)

/-! ### The window -/

theorem admitted_iff {off : BitVec 8} {bytes : Nat} : admitted off bytes = true ↔ bytes = 4 ∧ off.toNat % 4 = 0 := by
  simp [admitted]

theorem windowOffset_base (off : BitVec 8) : windowOffset (Config.base + off.toNat) = some off := by
  have h := off.isLt
  simp [windowOffset, h]

theorem submit_idle {s : State} (h : s.eng = .idle) (v : Reg) :
    submit v s = { s with
      eng := .busy v s.opa s.opb, lastcmd := v, delay := Config.latency s.tick, tick := s.tick + 1 } := by
  simp [submit, h]

theorem submit_busy {s : State} {c a b : Reg} (h : s.eng = .busy c a b) (v : Reg) :
    submit v s = { s with overrun := true } := by simp [submit, h]

/-- What a register write can do to the block: nothing, one operand register, the flags of STATUS, IE, a submission, or
the reset. -/
theorem writeReg_cases (r : RegName) (v : Reg) (s : State) :
    writeReg r v s = s ∨ writeReg r v s = { s with opa := v } ∨ writeReg r v s = { s with opb := v } ∨
      (r = .status ∧ writeReg r v s = acknowledge v s) ∨
      (r = .ctrl ∧ v.getLsbD 1 = false ∧ writeReg r v s = { s with ie := v.getLsbD 0 }) ∨
      (r = .ctrl ∧ v.getLsbD 1 = true ∧ writeReg r v s = resetBlock s) ∨
      (r = .cmd ∧ writeReg r v s = submit v s) := by
  cases r
  case ctrl =>
    cases h : v.getLsbD 1 with
    | false => exact .inr (.inr (.inr (.inr (.inl ⟨rfl, rfl, by rw [writeReg, writeCtrl, h]; rfl⟩))))
    | true => exact .inr (.inr (.inr (.inr (.inr (.inl ⟨rfl, rfl, by rw [writeReg, writeCtrl, h]; rfl⟩)))))
  all_goals simp [writeReg]

/-- A write of a register leaves what is outside the block alone. -/
theorem writeReg_inputs (r : RegName) (v : Reg) (s : State) : (writeReg r v s).inputs = s.inputs := by
  rcases writeReg_cases r v s with h | h | h | ⟨-, h⟩ | ⟨-, -, h⟩ | ⟨-, -, h⟩ | ⟨-, h⟩ <;> rw [h] <;>
    first | rfl | (cases he : s.eng <;> simp [submit, he])

/-! ### The reset input (R250) -/

/-- While the reset input is asserted a host write leaves nothing. -/
theorem hostWrite_held {s : State} (h : s.inReset = true) (r : RegName) (v : Reg) : hostWrite r v s = s := by
  simp [hostWrite, h]

/-- While the reset input is released a host write is the register's write. -/
theorem hostWrite_released {s : State} (h : s.inReset = false) (r : RegName) (v : Reg) :
    hostWrite r v s = writeReg r v s := by simp [hostWrite, h]

theorem releaseReset_held {s : State} (h : s.inReset = true) :
    releaseReset s = { resetBlock s with inReset := false } := by simp [releaseReset, h]

theorem releaseReset_released {s : State} (h : s.inReset = false) : releaseReset s = s := by simp [releaseReset, h]

/-- A register write does not drive the reset input. -/
theorem writeReg_inReset (r : RegName) (v : Reg) (s : State) : (writeReg r v s).inReset = s.inReset := by
  rcases writeReg_cases r v s with h | h | h | ⟨-, h⟩ | ⟨-, -, h⟩ | ⟨-, -, h⟩ | ⟨-, h⟩ <;> rw [h] <;>
    first | rfl | (cases he : s.eng <;> simp [submit, he])

/-! ### Steps -/

theorem step_engine {s : State} (h : engineMoves s = true) : step s = engineTurn s := by simp [step, h]

theorem step_host {s : State} (h : engineMoves s = false) : step s = hostTurn s := by simp [step, h]

theorem busyFlag_iff {s : State} : busyFlag s = true ↔ ∃ c a b, s.eng = .busy c a b := by
  cases h : s.eng <;> simp [busyFlag, h]

theorem engineMoves_iff {s : State} :
    engineMoves s = true ↔ (∃ c a b, s.eng = .busy c a b) ∧ (s.delay = 0 ∨ s.inputs = []) := by
  simp [engineMoves, busyFlag_iff]

/-- What a completion can do: the decoded command's rule, or IllegalCommand. -/
theorem complete_cases (c : Reg) (s : State) :
    (∃ i, decode c = .ok i ∧ complete c s = exec i s) ∨
      ((∃ e, decode c = .error e) ∧ complete c s = raise .illegalCommand s) := by
  cases h : decode c with
  | ok i => exact .inl ⟨i, rfl, by simp [complete, h]⟩
  | error e => exact .inr ⟨⟨e, rfl⟩, by simp [complete, h]⟩

/-- What one step can do: the completion of the command in flight, nothing at all (idle, and nothing to come), or the
host's next input. -/
theorem step_cases {s t : State} (h : step s = .next t) :
    (engineMoves s = true ∧ ∃ c a b, s.eng = .busy c a b ∧ complete c s = .next t) ∨
      (engineMoves s = false ∧ s.inputs = [] ∧ t = s) ∨
      (engineMoves s = false ∧ ∃ op rest, s.inputs = op :: rest ∧
        perform op { s with inputs := rest, delay := s.delay - 1 } = .next t) := by
  cases hm : engineMoves s with
  | true =>
    obtain ⟨⟨c, a, b, he⟩, -⟩ := engineMoves_iff.mp hm
    exact .inl ⟨rfl, c, a, b, he, by simpa [step, hm, engineTurn, he] using h⟩
  | false =>
    cases hi : s.inputs with
    | nil => exact .inr (.inl ⟨rfl, rfl, by simpa [step, hm, hostTurn, hi] using h.symm⟩)
    | cons op rest => exact .inr (.inr ⟨rfl, op, rest, rfl, by simpa [step, hm, hostTurn, hi] using h⟩)

/-- What an input can do where it does not fault: a read, a register write, a poll, or an edge of the reset input. -/
theorem perform_cases {op : Input} {s t : State} (h : perform op s = .next t) :
    (∃ off, op = .read off 4 ∧ t = { s with lastRead := some (readReg s (regAt off)) }) ∨
      (∃ off v, op = .write off 4 v ∧ t = hostWrite (regAt off) v s) ∨
      (op = .wait ∧ t = { s with
        lastRead := some (statusWord s), inputs := if busyFlag s then .wait :: s.inputs else s.inputs }) ∨
      (op = .assertReset ∧ t = assertReset s) ∨ (op = .releaseReset ∧ t = releaseReset s) := by
  cases op with
  | read off bytes =>
    simp only [perform] at h
    split at h
    · rename_i ha
      obtain ⟨rfl, -⟩ := admitted_iff.mp ha
      exact .inl ⟨off, rfl, by simpa using h.symm⟩
    · cases h
  | write off bytes v =>
    simp only [perform] at h
    split at h
    · rename_i ha
      obtain ⟨rfl, -⟩ := admitted_iff.mp ha
      exact .inr (.inl ⟨off, v, rfl, by simpa using h.symm⟩)
    · cases h
  | wait => exact .inr (.inr (.inl ⟨rfl, by simpa [perform] using h.symm⟩))
  | assertReset => exact .inr (.inr (.inr (.inl ⟨rfl, by simpa [perform] using h.symm⟩)))
  | releaseReset => exact .inr (.inr (.inr (.inr ⟨rfl, by simpa [perform] using h.symm⟩)))

/-! ### The staging rows (R30) -/

theorem setStaged_length (r : Nat) (row : StagedRow) (s : State) : (setStaged r row s).gs.length = s.gs.length := by
  simp

end Sys2Proof.Machine
end

