-- ==== Sys2Proof/Laws/PerInstr.lean ====
section
/-! SUPPORT. Statements about every command as syntax, one lemma per constructor. LegalEncoding: the command's word is
legal (R84), with the opcode and LEN the tables give it. -/

namespace Sys2Proof.Laws.LegalEncoding

/-- The word of a well-formed command is legal, and its OPC and LEN fields are the command's (R80, R84). -/
def Statement (i : Instr) : Prop :=
  i.WellFormed → legal (encode i) = true ∧ opcOf (encode i) = opcode i ∧ lenOf (encode i) = i.len

/-- A statement about LEN checked at every value LEN can take. -/
theorem of_forall_len (mk : Nat → Instr) (hl : ∀ len, (mk len).len = len)
    (h : ∀ len < 32, legal (encode (mk len)) = true ∧ opcOf (encode (mk len)) = opcode (mk len) ∧
      lenOf (encode (mk len)) = (mk len).len) (len : Nat) : Statement (mk len) := by
  intro hw
  have : (mk len).len ≤ 31 := hw
  rw [hl] at this
  exact h len (by omega)

theorem nop : Statement .nop := fun _ => by decide
theorem grow (len : Nat) : Statement (.grow len) := of_forall_len .grow (fun _ => rfl) (by decide) len
theorem gload (len : Nat) : Statement (.gload len) := of_forall_len .gload (fun _ => rfl) (by decide) len
theorem encode (len : Nat) : Statement (.encode len) := of_forall_len .encode (fun _ => rfl) (by decide) len
theorem synd (len : Nat) : Statement (.synd len) := of_forall_len .synd (fun _ => rfl) (by decide) len
theorem contains (len : Nat) : Statement (.contains len) := of_forall_len .contains (fun _ => rfl) (by decide) len
theorem decodeSa (len : Nat) : Statement (.decodeSa len) := of_forall_len .decodeSa (fun _ => rfl) (by decide) len
theorem decodeSt (len : Nat) : Statement (.decodeSt len) := of_forall_len .decodeSt (fun _ => rfl) (by decide) len
theorem props : Statement .props := fun _ => by decide
theorem rdg : Statement .rdg := fun _ => by decide
theorem rdh : Statement .rdh := fun _ => by decide
theorem rdcw : Statement .rdcw := fun _ => by decide
theorem rdsa : Statement .rdsa := fun _ => by decide
theorem rdst : Statement .rdst := fun _ => by decide
theorem weight (len : Nat) : Statement (.weight len) := of_forall_len .weight (fun _ => rfl) (by decide) len
theorem hdist (len : Nat) : Statement (.hdist len) := of_forall_len .hdist (fun _ => rfl) (by decide) len

end Sys2Proof.Laws.LegalEncoding
end

