-- ==== Sys2Proof/Tests/Slice0.lean ====
section
/-! SUPPORT. The model's own tests, from the spec's examples and vectors (95_test_vectors.md), and a witness for the
hypotheses of every statement, clause by clause. -/

namespace Sys2Proof.Tests

open Sys2Proof Sys2Proof.Machine

/-! ### Small states -/

/-- A command in flight with the latched operands a and b, its turn now. -/
def inFlight (a b : Reg) (s : State) : State := { s with eng := .busy 0 a b }

/-- A command in flight with two host steps to come before its completion. -/
def waiting (ops : List Input) (s : State) : State := { s with eng := .busy 0x306 5 0, delay := 2, inputs := ops }

/-- An idle engine with the given inputs to come. -/
def toCome (ops : List Input) (s : State) : State := { s with inputs := ops }

/-- The state with a freshly loaded code of the given rows, as GLOAD leaves it. -/
def loaded (n k : Nat) (G : List (BitVec n)) (d : Nat) : State :=
  setCode (newCode n k G (codewordList k G) d) State.reset

/-- The [3,1] repetition code (95_test_vectors.md 2.7). -/
def rep : State := loaded 3 1 [0b111] 3

/-- The [3,1] code with d = 1 (95_test_vectors.md 2.7). -/
def weak : State := loaded 3 1 [0b100] 1

/-- The [4,1] code with d = 2 (95_test_vectors.md 2.7). -/
def four : State := loaded 4 1 [0b1100] 2

/-- The [2,2] code, k = n (95_test_vectors.md 2.7). -/
def full : State := loaded 2 2 [0b10, 0b01] 1

/-- A code with dependent rows, possible with P_SF_CHECK = 0 alone. -/
def dependent : State := { loaded 3 2 [0b110, 0b110] 2 with cfg := ⟨16, false, true⟩ }

/-- The Hamming [7,4] code of the source's §8. -/
def hamming : State := loaded 7 4 [0x43, 0x25, 0x16, 0x0F] 3

/-- The repetition code with every cache built. -/
def repBuilt : State :=
  match rep.code with
  | some c => setCode (withArray (withTable c)) rep
  | none => rep

/-- Rows 0.. of the staging rows, all of length n. -/
def staged (n : Nat) (rows : List (BitVec n)) : State :=
  { State.reset with
    gs := rows.map (fun g => some ⟨n, g⟩) ++ List.replicate (16 - rows.length) none }

/-- The error, RES0 and RES1 of a next state. -/
def report (o : Host.Outcome State Fault Refusal) : Option (Option ErrorKind × Nat × Nat) :=
  match o with
  | .next t => some (t.err, t.res0.toNat, t.res1.toNat)
  | .fault _ => none
  | .refused _ => none

/-- STATUS of a next state. -/
def statusOf (o : Host.Outcome State Fault Refusal) : Option Nat :=
  match o with
  | .next t => some (statusWord t).toNat
  | .fault _ => none
  | .refused _ => none

/-- Whether the outcome is a next state. -/
def isNext (o : Host.Outcome State Fault Refusal) : Bool :=
  match o with
  | .next _ => true
  | .fault _ => false
  | .refused _ => false

theorem exists_next {o : Host.Outcome State Fault Refusal} (h : isNext o = true) : ∃ t, o = .next t := by
  cases o with
  | next t => exact ⟨t, rfl⟩
  | fault r => cases h
  | refused r => cases h

/-! ### Well-formedness and decoding -/

theorem test_wellFormed_refuses_len32 : ¬(Instr.grow 32).WellFormed ∧ ¬(Instr.hdist 40).WellFormed := by decide

theorem test_wellFormed_takes_len31 : (Instr.contains 31).WellFormed := by decide

/-- Every constructor's word, written out bit by bit from the patterns of R80 and the rules' Encoding bullets. -/
theorem test_decode_words :
    decode 0b00000000000000000000000000000000 = .ok .nop ∧
    decode 0b00000000000000000000011100000001 = .ok (.grow 7) ∧
    decode 0b00000000000000000001000000000010 = .ok (.gload 16) ∧
    decode 0b00000000000000000000010000000011 = .ok (.encode 4) ∧
    decode 0b00000000000000000000011100000100 = .ok (.synd 7) ∧
    decode 0b00000000000000000001111100000101 = .ok (.contains 31) ∧
    decode 0b00000000000000000000011100000110 = .ok (.decodeSa 7) ∧
    decode 0b00000000000000010000011100000110 = .ok (.decodeSt 7) := by decide

theorem test_decode_words_more :
    decode 0b00000000000000000000000000000111 = .ok .props ∧
    decode 0b00000000000000000000000000001000 = .ok .rdg ∧
    decode 0b00000000000000000000000000001001 = .ok .rdh ∧
    decode 0b00000000000000000000000000001010 = .ok .rdcw ∧
    decode 0b00000000000000000000000000001011 = .ok .rdsa ∧
    decode 0b00000000000000000000000000001100 = .ok .rdst ∧
    decode 0b00000000000000000000000100001101 = .ok (.weight 1) ∧
    decode 0b00000000000000000000011100001110 = .ok (.hdist 7) := by decide

/-- The illegal words of 95_test_vectors.md 2.8, each with the reason given there. -/
theorem test_decode_refuses :
    decode 0x00000100 = .error .strayLength ∧ decode 0x00010000 = .error .strayStrategy ∧
    decode 0x0000000F = .error .reservedOpcode ∧ decode 0x000000FF = .error .reservedOpcode ∧
    decode 0x00010003 = .error .strayStrategy ∧ decode 0x00000107 = .error .strayLength ∧
    decode 0x00002003 = .error .reservedBits ∧ decode 0x00008003 = .error .reservedBits ∧
    decode 0x00020006 = .error .reservedBits ∧ decode 0x80000000 = .error .reservedBits := by decide

theorem test_decodeTableWord : decodeTableWord 32 0x00010006 = some (.decodeSt 0) ∧
    decodeTableWord 32 0x0000000F = none := by decide

/-- The vector after reset: ENCODE is legal, then NotLoaded (E1). -/
theorem test_first_step_after_reset :
    statusOf (step (State.reset.withFetchWord 32 0x403)) = some 0x702 := by decide +kernel

/-! ### The commands: values of the spec's examples and vectors -/

/-- 45_system.md's example: `nop` after reset leaves STATUS = 2. -/
theorem test_nop : statusOf (exec .nop (inFlight 0 0 State.reset)) = some 2 := by decide +kernel

/-- W1 and W7. -/
theorem test_weight : report (exec (.weight 7) (inFlight 0x5A 0 State.reset)) = some (none, 4, 0) ∧
    report (exec (.weight 7) (inFlight 0x80 0 State.reset)) = some (some .malformedInput, 0, 0) := by decide +kernel

/-- W9 and W14. -/
theorem test_hdist : report (exec (.hdist 7) (inFlight 0x5A 0x4C State.reset)) = some (none, 3, 0) ∧
    report (exec (.hdist 3) (inFlight 0 8 State.reset)) = some (some .malformedInput, 0, 0) := by decide +kernel

/-- L3, L5 and L4. -/
theorem test_grow : report (exec (.grow 7) (inFlight 67 16 State.reset)) = some (some .indexOutOfRange, 0, 0) ∧
    report (exec (.grow 7) (inFlight 128 16 State.reset)) = some (some .malformedInput, 0, 0) ∧
    report (exec (.grow 7) (inFlight 67 15 State.reset)) = some (none, 0, 0) := by decide +kernel

/-- L6: the Hamming rows load with d = 3. -/
theorem test_gload :
    exec (.gload 7) (inFlight 4 3 (staged 7 [0x43, 0x25, 0x16, 0x0F])) =
      .next (completion none { inFlight 4 3 (staged 7 [0x43, 0x25, 0x16, 0x0F]) with code := hamming.code }) := by rfl

/-- L8, L9, L12, L14 and L15. -/
theorem test_gload_errors :
    report (exec (.gload 3) (inFlight 4 0 State.reset)) = some (some .dimensionMismatch, 0, 0) ∧
    report (exec (.gload 7) (inFlight 0 0 State.reset)) = some (some .invalidCode, 0, 0) ∧
    report (exec (.gload 7) (inFlight 4 0 (staged 7 [0x43, 0x25, 0x16]))) = some (some .dimensionMismatch, 0, 0) ∧
    report (exec (.gload 3) (inFlight 2 0 (staged 3 [0, 0]))) = some (some .invalidCode, 0, 0) ∧
    report (exec (.gload 3) (inFlight 2 0 (staged 3 [0, 2]))) = some (some .notStandardForm, 0, 0) := by decide +kernel

/-- E12. -/
theorem test_props : report (exec .props (inFlight 0 0 hamming)) = some (none, 0x00030407, 0x00000102) := by
  decide +kernel

/-- R129's example and E15. -/
theorem test_rdg : report (exec .rdg (inFlight 2 0 hamming)) = some (none, 0x16, 0) ∧
    report (exec .rdg (inFlight 4 0 hamming)) = some (some .indexOutOfRange, 0, 0) := by decide +kernel

/-- E5 and E10 (MalformedInput precedes DimensionMismatch). -/
theorem test_encode : report (exec (.encode 4) (inFlight 0xB 0 hamming)) = some (none, 0x5A, 0) ∧
    report (exec (.encode 3) (inFlight 0x10 0 hamming)) = some (some .malformedInput, 0, 0) := by decide +kernel

/-- E17 and E19: the order is (weight, int). -/
theorem test_rdcw : report (exec .rdcw (inFlight 1 0 hamming)) = some (none, 0x16, 0) ∧
    report (exec .rdcw (inFlight 8 0 hamming)) = some (none, 0x0F, 0) := by decide +kernel

/-- S6: row 0 of H, and H_VALID. -/
theorem test_rdh : report (exec .rdh (inFlight 0 0 hamming)) = some (none, 0x3C, 0) ∧
    statusOf (exec .rdh (inFlight 0 0 hamming)) = some 0x0003000A := by decide +kernel

/-- S18 and S1. -/
theorem test_synd : report (exec (.synd 7) (inFlight 0x0D 0 hamming)) = some (none, 2, 0) ∧
    statusOf (exec (.synd 6) (inFlight 0x2D 0 hamming)) = some 0x0001020A := by decide +kernel

/-- S22 and S2 (another length is 0 with OK, and builds nothing). -/
theorem test_contains : report (exec (.contains 7) (inFlight 0x4C 0 hamming)) = some (none, 1, 0) ∧
    statusOf (exec (.contains 6) (inFlight 0x26 0 hamming)) = some 0x0001000A := by decide +kernel

/-- A7: row 3, position 1. -/
theorem test_rdsa : report (exec .rdsa (inFlight 3 1 hamming)) = some (none, 0x12, 0) := by decide +kernel

/-- 2.7: word 1000 of the [4,1] code; and 0011 is uncorrectable, the array kept. -/
theorem test_decodeSa : report (exec (.decodeSa 4) (inFlight 8 0 four)) = some (none, 1, 4) ∧
    statusOf (exec (.decodeSa 4) (inFlight 3 0 four)) = some 0x0005050A := by decide +kernel

/-- T6: syndrome 011. -/
theorem test_rdst : report (exec .rdst (inFlight 3 0 hamming)) = some (none, 0x40, 0) := by decide +kernel

/-- T11, and 2.7 with P_ST_CHECK = 0. -/
theorem test_decodeSt : report (exec (.decodeSt 7) (inFlight 0x5E 0 hamming)) = some (none, 0xB, 4) ∧
    report (exec (.decodeSt 4) (inFlight 3 0 { four with cfg := ⟨16, true, false⟩ })) = some (none, 0, 3) := by
  decide +kernel

/-- M4 and M5: CTRL stores IE alone, and SRST is the reset. -/
theorem test_ctrl : (readReg (writeReg .ctrl 0xFFFFFFFD State.reset) .ctrl).toNat = 1 ∧
    (writeReg .ctrl 3 { State.reset with ie := true, opa := 7 }).opa = 0 := by decide

/-- Program 1's first statement in the host's language. -/
theorem test_assemble : assemble (.run (.grow 0 [true, false, false, false, false, true, true])) =
    some [.write 0x10 4 0x43, .write 0x14 4 0, .write 0x0C 4 0x701, .wait] := by decide

theorem test_parseLit : parseLit ['1', '0', '1'] = some [true, false, true] ∧ parseLit ['2'] = none := by decide

/-! ### The invariant holds somewhere beyond reset -/

theorem codeInv_fresh {n k : Nat} {G : List (BitVec n)} {d : Nat} (hk : 1 ≤ k) (hkn : k ≤ n) (hG : G.length = k)
    (hnz : allZeroRows G = false) (hd : minDistance (codewordList k G) = some d) :
    CodeInv (newCode n k G (codewordList k G) d) :=
  ⟨hk, hkn, hG, hnz, rfl, hd, rfl, rfl, by simp [newCode], by simp [newCode], by simp [newCode]⟩

theorem codeInv_rep : ∀ c, rep.code = some c → CodeInv c := by
  rintro c ⟨⟩
  exact codeInv_fresh (by decide) (by decide) (by decide) (by decide) (by decide)

theorem codeInv_repBuilt : ∀ c, repBuilt.code = some c → CodeInv c := by
  rintro c ⟨⟩
  refine ⟨by decide, by decide, by decide, by decide, rfl, by decide, rfl, rfl, ?_, ?_, ?_⟩
  · rintro H ⟨⟩; rfl
  · rintro sa ⟨⟩; exact ⟨rfl, by decide⟩
  · rintro st ⟨⟩; exact ⟨rfl, rfl⟩

/-- A state with a loaded code meets the invariant when the code does. -/
theorem stateInv_of_code {s : State} {c : Code} (hs : s = setCode c State.reset) (hc : CodeInv c) (hn : c.n ≤ 16)
    (hsf : standardForm c.k c.G = true) : StateInv s := by
  subst hs
  exact
    { params := (by decide : State.reset.cfg.Allowed)
      staged_count := (by decide : State.reset.gs.length = State.reset.cfg.nMax)
      staged_len := fun g hg => absurd hg (by simp [State.reset, State.resetWith, Params.spec])
      code_inv := by rintro _ ⟨⟩; exact hc
      code_fits := by rintro _ ⟨⟩; exact hn
      code_standard := by rintro _ ⟨⟩ _; exact hsf
      held := nofun }

theorem stateInv_rep : StateInv rep :=
  stateInv_of_code rfl (codeInv_rep _ rfl) (by decide) (by decide)

theorem stateInv_repBuilt : StateInv repBuilt :=
  stateInv_of_code rfl (codeInv_repBuilt _ rfl) (by decide) (by decide)

theorem codeInv_weak : ∀ c, weak.code = some c → CodeInv c := by
  rintro c ⟨⟩
  exact codeInv_fresh (by decide) (by decide) (by decide) (by decide) (by decide)

theorem codeInv_full : ∀ c, full.code = some c → CodeInv c := by
  rintro c ⟨⟩
  exact codeInv_fresh (by decide) (by decide) (by decide) (by decide) (by decide)

theorem codeInv_dependent : ∀ c, dependent.code = some c → CodeInv c := by
  rintro c ⟨⟩
  exact codeInv_fresh (by decide) (by decide) (by decide) (by decide) (by decide)

/-- The code of a loaded test state. -/
def codeOf (s : State) : Code :=
  match s.code with
  | some c => c
  | none => newCode 0 0 [] [] 0

/-! ### Witnesses: for every statement, states and operands that meet its hypotheses, clause by clause -/

theorem witness_encoding : (Instr.grow 31).WellFormed ∧ Instr.rdsa.WellFormed ∧ decode 0x00001F0D = .ok (.weight 31) ∧
    legal 0x00011F06 = true ∧ legal 0x0000010B = false ∧ legal 0x00001F0F = false ∧ legal 0x00020006 = false ∧
    (inFlight 0 0 State.reset).eng = .busy 0 0 0 := by decide

theorem witness_assembled : assembleCmd (.decodeSt [true, false, true]) =
    some [.write 0x10 4 5, .write 0x0C 4 0x00010306] ∧
    assembleCmd (.rdsa 3 1) = some [.write 0x10 4 3, .write 0x14 4 1, .write 0x0C 4 0x0000000B] ∧
    assembleCmd (.hdist [true] [true, false]) = none ∧ assembleCmd (.gload 32 1) = none ∧
    assembleCmd (.rdg (2 ^ 32)) = none := by decide

/-- A command whose turn it is (no delay; nothing to come), and one with host steps still to come. -/
theorem witness_step :
    (inFlight 0 0 State.reset).delay = 0 ∧ decode 0 = .ok .nop ∧
      (waiting [] State.reset).inputs = [] ∧ (waiting [.wait] State.reset).eng = .busy 0x306 5 0 ∧
      (waiting [.wait] State.reset).delay ≠ 0 ∧ (waiting [.wait] State.reset).inputs = [.wait] := by decide

theorem witness_cmd_write :
    (toCome [.write 0x0C 4 7] State.reset).eng = .idle ∧ (toCome [.write 0x0C 4 7] State.reset).inputs = [.write 0x0C 4 7] ∧
      (waiting [.write 0x0C 4 0] rep).eng = .busy 0x306 5 0 ∧ (waiting [.write 0x0C 4 0] rep).delay ≠ 0 := by decide

/-- Commands of every kind answer a next state: with OK, with an error, with a build. -/
theorem witness_exec_next :
    (∃ t, exec (.grow 3) (inFlight 7 0 State.reset) = .next t) ∧ (∃ t, exec (.synd 3) (inFlight 5 0 rep) = .next t) ∧
      (∃ t, exec (.decodeSa 3) (inFlight 5 0 rep) = .next t) ∧ (∃ t, exec .rdst (inFlight 3 0 rep) = .next t) ∧
      (∃ t, exec (.hdist 3) (inFlight 5 1 rep) = .next t ∧ rep.code ≠ none) :=
  ⟨exists_next (by decide +kernel), exists_next (by decide +kernel), exists_next (by decide +kernel),
    exists_next (by decide +kernel), (exists_next (by decide +kernel)).imp fun _ h => ⟨h, by decide⟩⟩

/-- Failures of each kind: one that built the array, one that built the table and the matrix, one that built nothing,
and one without a code. -/
theorem witness_error :
    (∃ t, exec (.decodeSa 3) (inFlight 1 0 weak) = .next t ∧ t.err ≠ none ∧ saValid t = true ∧ saValid weak = false) ∧
      (∃ t, exec (.decodeSt 3) (inFlight 1 0 weak) = .next t ∧ t.err ≠ none ∧ stValid t = true ∧ hValid weak = false) ∧
      (∃ t, exec .rdh (inFlight 9 0 weak) = .next t ∧ t.err ≠ none ∧ hValid t = false) ∧
      ∃ t, exec .rdg (inFlight 0 0 State.reset) = .next t ∧ t.err ≠ none ∧ t.code = none :=
  ⟨⟨_, rfl, by decide +kernel⟩, ⟨_, rfl, by decide +kernel⟩, ⟨_, rfl, by decide +kernel⟩, ⟨_, rfl, by decide +kernel⟩⟩

/-- GLOADs that complete with OK and with an error. -/
theorem witness_gload_caches :
    (∃ t, exec (.gload 3) (inFlight 1 0 (staged 3 [7])) = .next t ∧ t.err = none) ∧
      ∃ t, exec (.gload 3) (inFlight 0 0 rep) = .next t ∧ t.err ≠ none :=
  ⟨⟨_, rfl, by decide +kernel⟩, ⟨_, rfl, by decide +kernel⟩⟩

theorem witness_not_loaded : (inFlight 9 9 State.reset).eng = .busy 0 9 9 ∧ (inFlight 9 9 State.reset).code = none := by
  decide

/-- Two states of the machine that differ in their valid caches, and a command that answers in one of them. -/
theorem witness_caches : StateInv rep ∧ StateInv repBuilt ∧ sameButCaches rep repBuilt ∧
    hValid repBuilt ≠ hValid rep ∧ ∃ t, exec (.synd 3) (inFlight 5 0 rep) = .next t :=
  ⟨stateInv_rep, stateInv_repBuilt, rfl, by decide +kernel, exists_next (by decide +kernel)⟩

theorem witness_quiet : ∀ op ∈ (waiting [.read 8 4, .write 0x04 4 1, .wait] rep).inputs, quietInput op := by
  simp only [waiting, List.mem_cons, List.not_mem_nil, or_false]
  rintro op (rfl | rfl | rfl)
  · exact (by decide : admitted 8 4 = true)
  · exact ⟨by decide, by decide⟩
  · trivial

/-- A command in flight in a state of the invariant, its `wait` first in line. -/
theorem stateInv_waiting (ops : List Input) : StateInv (waiting ops rep) :=
  ⟨stateInv_rep.params, stateInv_rep.staged_count, stateInv_rep.staged_len, stateInv_rep.code_inv,
    stateInv_rep.code_fits, stateInv_rep.code_standard, nofun⟩

theorem witness_wait : StateInv (waiting [.wait] rep) ∧ rep.cfg.sfCheck = true ∧
    (waiting [.wait] rep).inputs = [.wait] ∧ engineMoves (waiting [.wait] rep) = false ∧
    engineMoves (toCome [.wait] rep) = false := ⟨stateInv_waiting _, by decide, rfl, by decide, by decide⟩

theorem witness_defensive : StateInv (inFlight 5 0 rep) ∧ ∃ t, exec (.decodeSt 3) (inFlight 5 0 rep) = .next t :=
  ⟨⟨stateInv_rep.params, stateInv_rep.staged_count, stateInv_rep.staged_len, stateInv_rep.code_inv,
    stateInv_rep.code_fits, stateInv_rep.code_standard, nofun⟩, exists_next (by decide +kernel)⟩

/-- Host steps of every kind are due at an idle and at a busy engine: both resets, reads, ignored writes, operands. -/
theorem witness_host_turn :
    engineMoves (toCome [.assertReset] rep) = false ∧ engineMoves (waiting [.assertReset] rep) = false ∧
      (toCome [.wait] rep).inReset = false ∧ (waiting [.wait] rep).inReset = false ∧
      engineMoves (waiting [.write 0x04 4 2] rep) = false ∧ engineMoves (waiting [.write 0x04 4 1] rep) = false ∧
      (2 : Reg).getLsbD 1 = true ∧ (1 : Reg).getLsbD 1 = false ∧ engineMoves (toCome [.write 0x08 4 6] rep) = false ∧
      engineMoves (waiting [.write 0x10 4 1] rep) = false ∧ engineMoves (toCome [.write 0x14 4 1] rep) = false ∧
      State.reset.cfg.Allowed := by decide

/-- Offsets at the borders of the window's clauses: ID, CMDCNT, the first and the last reserved offset, each due. -/
theorem witness_offsets :
    engineMoves (toCome [.read 0 4] rep) = false ∧ engineMoves (toCome [.write 0x20 4 9] rep) = false ∧
      engineMoves (toCome [.read 0x24 4] rep) = false ∧ engineMoves (toCome [.write 0xFC 4 9] rep) = false ∧
      (0x20 : BitVec 8).toNat % 4 = 0 ∧ (0x24 ≤ (0xFC : BitVec 8).toNat) ∧ (0xFC : BitVec 8).toNat % 4 = 0 ∧
      (0x20 ≤ (0x20 : BitVec 8).toNat) := by decide

/-- Accesses that are admitted (at the window's ends) and not (narrow, wide, misaligned). -/
theorem witness_bus :
    ((0xFC : BitVec 8).toNat % 4 = 0) ∧ ((0x00 : BitVec 8).toNat % 4 = 0) ∧ ((0x02 : BitVec 8).toNat % 4 ≠ 0) ∧
      (2 : Nat) ≠ 4 ∧ (8 : Nat) ≠ 4 ∧ engineMoves (toCome [.write 0x02 4 9] rep) = false ∧
      engineMoves (toCome [.read 0xFC 2] rep) = false := by decide

/-- A block held in reset: its state is R38's, and an access to it and its release are due. -/
theorem witness_held : IsResetState (assertReset (waiting [.write 0x0C 4 0, .releaseReset] rep)) ∧
    (assertReset (toCome [.wait] rep)).inReset = true ∧ engineMoves (assertReset (toCome [.releaseReset] rep)) = false ∧
    (assertReset (toCome [.releaseReset] rep)).inputs = [.releaseReset] ∧
    ∃ t, step (assertReset (waiting [.write 0x0C 4 0] rep)) = .next t ∧ t.eng = .idle ∧ t.inReset = true :=
  ⟨⟨fun _ => by decide, rfl, by decide, rfl, rfl, rfl, rfl, rfl, rfl, by decide, rfl, rfl, rfl⟩, rfl, by decide, rfl,
    ⟨_, rfl, rfl, rfl⟩⟩

theorem witness_done_cleared : ∃ t, step (toCome [.write 0x08 4 2] { rep with done := true }) = .next t ∧
    ({ rep with done := true } : State).done = true ∧ t.done = false := ⟨_, rfl, rfl, rfl⟩

/-- The instance changes by a GLOAD and by a reset. -/
theorem witness_instance_changes :
    (∃ t, step { staged 3 [7] with eng := .busy 0x302 1 0 } = .next t ∧ instanceOf t ≠ instanceOf State.reset) ∧
      ∃ t, step (toCome [.assertReset] rep) = .next t ∧ instanceOf t ≠ instanceOf rep :=
  ⟨⟨_, rfl, by decide +kernel⟩, ⟨_, rfl, by decide +kernel⟩⟩

theorem witness_invariant_step : StateInv repBuilt ∧ ∃ t, step repBuilt = .next t :=
  ⟨stateInv_repBuilt, ⟨_, rfl⟩⟩

/-- Well-formed and malformed operands at the borders: L = 0, L = N_MAX, L = N_MAX + 1, the value 2^L. -/
theorem witness_operands :
    (0 ≤ State.reset.cfg.nMax ∧ (0 : Reg).toNat < 2 ^ 0) ∧ (16 ≤ State.reset.cfg.nMax ∧ (0xFFFF : Reg).toNat < 2 ^ 16) ∧
      Malformed State.reset 17 0 ∧ Malformed State.reset 0 1 ∧ Malformed State.reset 7 0x80 := by decide

theorem witness_grow : State.reset.gs.length = State.reset.cfg.nMax ∧ (15 : Reg).toNat < State.reset.cfg.nMax ∧
    State.reset.cfg.nMax ≤ (16 : Reg).toNat := by decide

theorem witness_nop : (inFlight 0 0 State.reset).eng = .busy 0 0 0 ∧
    (0x100 : Reg).toNat % 256 = 0 ∧ (0x100 : Reg) ≠ 0 := by decide

/-- A staged matrix in standard form, one that is zero, one that is not in standard form, and a missing row. -/
theorem witness_gload :
    (∀ r, (h : r < [(6 : BitVec 3)].length) → (staged 3 [6]).gs[r]? = some (some ⟨3, [(6 : BitVec 3)][r]⟩)) ∧
      (∀ r < 1, ∀ j < 1, matEntry [(6 : BitVec 3)] r j = decide (j = r)) ∧
      (∀ r, (h : r < [(0 : BitVec 3)].length) → (staged 3 [0]).gs[r]? = some (some ⟨3, [(0 : BitVec 3)][r]⟩)) ∧
      (∀ r, (h : r < [(3 : BitVec 3)].length) → (staged 3 [3]).gs[r]? = some (some ⟨3, [(3 : BitVec 3)][r]⟩)) ∧
      (∃ r < 1, ∃ j < 1, matEntry [(3 : BitVec 3)] r j ≠ decide (j = r)) ∧
      (∃ r < 2, ∀ row : BitVec 3, (staged 3 [6]).gs[r]? ≠ some (some ⟨3, row⟩)) := by
  refine ⟨?_, by decide, ?_, ?_, ⟨0, by decide, 0, by decide, by decide⟩, ⟨1, by decide, fun row h => by cases h⟩⟩ <;>
    · intro r h
      obtain rfl : r = 0 := by simpa using h
      rfl

/-- The bounds of GLOAD's other checks: n > N_MAX, k > n, k = 0, k = n. -/
theorem witness_gload_bounds : State.reset.cfg.nMax < 17 ∧ 3 < (4 : Reg).toNat ∧ 16 ≤ State.reset.cfg.nMax ∧
    (0 : Reg).toNat = 0 ∧ 1 ≤ (3 : Reg).toNat ∧ (3 : Reg).toNat ≤ 3 := by decide

/-- A loaded code that meets the invariant, and indexes at both sides of each view's bound. -/
theorem witness_views : CodeInv (codeOf rep) ∧ rep.code = some (codeOf rep) ∧
    ((0 : Reg).toNat < (codeOf rep).k ∧ (codeOf rep).k ≤ (1 : Reg).toNat) ∧
    ((1 : Reg).toNat < 2 ^ (codeOf rep).k ∧ 2 ^ (codeOf rep).k ≤ (2 : Reg).toNat) ∧
    ((1 : Reg).toNat < (codeOf rep).n - (codeOf rep).k ∧ (codeOf rep).n - (codeOf rep).k ≤ (2 : Reg).toNat) ∧
    ((3 : Reg).toNat < 2 ^ ((codeOf rep).n - (codeOf rep).k) ∧ 2 ^ ((codeOf rep).n - (codeOf rep).k) ≤ (4 : Reg).toNat) :=
  ⟨codeInv_rep _ rfl, rfl, by decide +kernel, by decide +kernel, by decide +kernel, by decide +kernel⟩

theorem witness_distinct : (codewordList 1 [(7 : BitVec 3)]).Nodup ∧ (codewordList 2 [(6 : BitVec 3), 5]).Nodup ∧
    standardForm 2 [(6 : BitVec 3), 5] = false ∧ 3 = (codeOf dependent).n := by decide +kernel

/-- The length a command requires, and another one that is well formed. -/
theorem witness_lengths :
    (1 = (codeOf rep).k ∧ (1 : Reg).toNat < 2 ^ 1 ∧ 1 ≤ rep.cfg.nMax) ∧ (3 = (codeOf rep).n ∧ (7 : Reg).toNat < 2 ^ 3) ∧
      (2 ≠ (codeOf rep).k ∧ 2 ≠ (codeOf rep).n ∧ 2 ≤ rep.cfg.nMax ∧ (3 : Reg).toNat < 2 ^ 2) := by decide

/-- Generators in standard form, k < n and k = n. -/
theorem witness_standard_form : standardForm 1 [(7 : BitVec 3)] = true ∧ [(7 : BitVec 3)].length = 1 ∧
    standardForm 2 [(2 : BitVec 2), 1] = true ∧ CodeInv (codeOf full) ∧ 1 ≤ 3 ∧
    standardForm (codeOf rep).k (codeOf rep).G = true :=
  ⟨by decide, rfl, by decide, codeInv_full _ rfl, by decide, by decide⟩

/-- A codeword list with a repeated word, which P_SF_CHECK = 0 alone allows, and the refusal. -/
theorem witness_dependent : CodeInv (codeOf dependent) ∧ dependent.code = some (codeOf dependent) ∧
    ¬(codeOf dependent).cw.Nodup ∧ (0 : Reg).toNat < 2 ^ ((codeOf dependent).n - (codeOf dependent).k) ∧
    exec .rdsa (inFlight 0 0 dependent) = .refused .dependentRows :=
  ⟨codeInv_dependent _ rfl, rfl, by decide +kernel, by decide +kernel, rfl⟩

/-- Both sides of the error threshold: a code where a leader is too heavy, and one where it is not. -/
theorem witness_threshold : CodeInv (codeOf weak) ∧ (codeOf weak).det < weight (1 : BitVec 3) ∧
    weight (4 : BitVec 3) ≤ (codeOf rep).det ∧ weak.cfg.stCheck = true := ⟨codeInv_weak _ rfl, by decide, by decide, by decide⟩

/-- A codeword and an error within the radius. -/
theorem witness_radius : (⟨7⟩ : BitWord .code 3) ∈ codewordList 1 [(7 : BitVec 3)] ∧ weight (4 : BitVec 3) ≤ (codeOf rep).cor ∧
    (codeOf rep).n ≤ rep.cfg.nMax ∧ (codeOf rep).n ≤ 32 ∧
    (3 : Reg) = BitVec.ofNat 32 (addWord (⟨7⟩ : BitWord .code 3) ⟨4⟩).bits.toNat := by decide +kernel

/-- Entries of the standard array: a leader and a column. -/
theorem witness_array_entries : arrayEntry (standardArray 1 (codewordList 1 [(7 : BitVec 3)])) 1 0 = some ⟨1⟩ ∧
    arrayEntry (standardArray 1 (codewordList 1 [(7 : BitVec 3)])) 1 1 = some ⟨6⟩ ∧
    arrayEntry (standardArray 1 (codewordList 1 [(7 : BitVec 3)])) 3 0 = some ⟨4⟩ := by decide +kernel

theorem witness_precedes : precedes (4 : BitVec 3) 3 = true ∧ precedes (3 : BitVec 3) 7 = true ∧ (4 : BitVec 3) ≠ 3 := by
  decide

theorem witness_outside_window : windowOffset (Config.base + 256) = none := by simp [windowOffset]

end Sys2Proof.Tests
end

section
/-! PROOFS. The order ≺ and the sorts and scan built on it (R10): one equation or `↔` per definition of `Words`, the
permutation and order laws of `sortByInt` and `sortWords`, and O35 from them. -/

namespace Sys2Proof.Machine

open List

/-! ### The order ≺ -/

theorem precedes_iff {L : Nat} {a b : BitVec L} :
    precedes a b = true ↔ weight a < weight b ∨ (weight a = weight b ∧ a.toNat < b.toNat) := by
  simp [precedes]

theorem weight_le {L : Nat} (w : BitVec L) : weight w ≤ L := by
  simpa [weight] using countP_le_length (p := fun i => w.getMsbD i) (l := List.range L)

theorem precedes_irrefl {L : Nat} (a : BitVec L) : precedes a a = false := by simp [precedes]

theorem precedes_trans {L : Nat} {a b c : BitVec L} (hab : precedes a b = true) (hbc : precedes b c = true) :
    precedes a c = true := by
  rw [precedes_iff] at *
  omega

theorem precedes_total {L : Nat} {a b : BitVec L} (h : a ≠ b) : precedes a b = true ∨ precedes b a = true := by
  have hne : a.toNat ≠ b.toNat := fun he => h (BitVec.eq_of_toNat_eq he)
  rw [precedes_iff, precedes_iff]
  omega

/-! ### Sorting by `int` -/

/-- The weak `int` order on words, by which `sortByInt` is the library's insertion sort. -/
def intLe {role : Role} {L : Nat} (v w : BitWord role L) : Prop := v.bits.toNat ≤ w.bits.toNat

theorem insertByInt_eq_orderedInsert {role : Role} {L : Nat} [DecidableRel (intLe (role := role) (L := L))]
    (w : BitWord role L) (vs : List (BitWord role L)) : insertByInt w vs = vs.orderedInsert intLe w := by
  induction vs with
  | nil => rfl
  | cons v vs ih =>
    by_cases h : v.bits.toNat < w.bits.toNat
    · have hle : ¬ intLe w v := Nat.not_le.2 h
      rw [insertByInt, if_pos h, ih, orderedInsert_of_not_le _ _ hle]
    · have hle : intLe w v := Nat.le_of_not_lt h
      rw [insertByInt, if_neg h, orderedInsert_cons_of_le _ _ hle]

theorem sortByInt_eq_insertionSort {role : Role} {L : Nat} [DecidableRel (intLe (role := role) (L := L))]
    (ws : List (BitWord role L)) : sortByInt ws = ws.insertionSort intLe := by
  simp only [sortByInt, insertionSort, funext₂ insertByInt_eq_orderedInsert]

theorem sortByInt_perm {role : Role} {L : Nat} (ws : List (BitWord role L)) : sortByInt ws ~ ws := by
  classical
  rw [sortByInt_eq_insertionSort]
  exact perm_insertionSort intLe ws

theorem sortByInt_pairwise {role : Role} {L : Nat} (ws : List (BitWord role L)) : (sortByInt ws).Pairwise intLe := by
  classical
  have : Std.Total (intLe (role := role) (L := L)) := ⟨fun v w => Nat.le_total v.bits.toNat w.bits.toNat⟩
  have : IsTrans (BitWord role L) intLe := ⟨fun _ _ _ => Nat.le_trans⟩
  rw [sortByInt_eq_insertionSort]
  exact pairwise_insertionSort intLe ws

/-! ### Sorting by ≺ -/

/-- The classes of a list by the value of `f`, each class rearranged, together are the members with a value below `m`. -/
theorem flatMap_classes_perm {α : Type} (f : α → Nat) (g : List α → List α) (hg : ∀ l, g l ~ l) (l : List α) (m : Nat) :
    ((range m).flatMap fun n => g (l.filter fun a => f a == n)) ~ l.filter fun a => f a < m := by
  induction m with
  | zero => simp
  | succ m ih =>
    have hlt : (l.filter fun a => f a < m + 1).filter (fun a => f a < m) = l.filter fun a => f a < m := by
      rw [filter_filter]
      exact filter_congr fun a _ => by simp; omega
    have heq : (l.filter fun a => f a < m + 1).filter (fun a => !decide (f a < m)) = l.filter fun a => f a == m := by
      rw [filter_filter]
      exact filter_congr fun a _ => by rw [Bool.eq_iff_iff]; simp; omega
    have hsplit := filter_append_perm (fun a => decide (f a < m)) (l.filter fun a => f a < m + 1)
    rw [hlt, heq] at hsplit
    simpa [range_succ] using (ih.append (hg _)).trans hsplit

theorem sortWords_perm {role : Role} {L : Nat} (ws : List (BitWord role L)) : sortWords ws ~ ws := by
  have hall : (ws.filter fun w => weight w.bits < L + 1) = ws :=
    filter_eq_self.2 fun w _ => by simpa [Nat.lt_succ_iff] using weight_le w.bits
  have hperm := flatMap_classes_perm (fun w => weight w.bits) sortByInt sortByInt_perm ws (L + 1)
  rwa [hall] at hperm

theorem mem_sortByInt_filter {role : Role} {L n : Nat} {ws : List (BitWord role L)} {w : BitWord role L}
    (h : w ∈ sortByInt (ws.filter fun w => weight w.bits == n)) : weight w.bits = n := by
  simpa using (mem_filter.1 ((sortByInt_perm _).mem_iff.1 h)).2

/-- Within one weight the `int` order decides, and the weights themselves ascend. -/
theorem sortWords_pairwise {role : Role} {L : Nat} (ws : List (BitWord role L)) :
    (sortWords ws).Pairwise fun v w => precedes w.bits v.bits = false := by
  refine pairwise_flatMap.2 ⟨fun n _ => ?_, pairwise_lt_range.imp fun {n m} hnm v hv w hw => ?_⟩
  · refine (sortByInt_pairwise _).imp_of_mem fun {v w} hv hw hle => ?_
    have hv := mem_sortByInt_filter hv
    have hw := mem_sortByInt_filter hw
    rw [intLe] at hle
    rw [Bool.eq_false_iff, ne_eq, precedes_iff]
    omega
  · have hv := mem_sortByInt_filter hv
    have hw := mem_sortByInt_filter hw
    rw [Bool.eq_false_iff, ne_eq, precedes_iff]
    omega

/-- Without repeats the sorted list ascends strictly. -/
theorem sortWords_pairwise_precedes {role : Role} {L : Nat} {ws : List (BitWord role L)} (h : ws.Nodup) :
    (sortWords ws).Pairwise fun v w => precedes v.bits w.bits = true := by
  refine ((sortWords_pairwise ws).and ((sortWords_perm ws).nodup_iff.2 h)).imp fun {v w} ⟨hnot, hne⟩ => ?_
  have hbits : v.bits ≠ w.bits := fun he => hne (congrArg BitWord.mk he)
  exact (precedes_total hbits).resolve_right (Bool.eq_false_iff.1 hnot)

/-! ### All words and the scan -/

@[simp] theorem length_allWords (role : Role) (L : Nat) : (allWords role L).length = 2 ^ L := by simp [allWords]

@[simp] theorem mem_allWords {role : Role} {L : Nat} (w : BitWord role L) : w ∈ allWords role L :=
  mem_map.2 ⟨w.bits.toNat, mem_range.2 w.bits.isLt, by simp⟩

theorem nodup_allWords (role : Role) (L : Nat) : (allWords role L).Nodup := by
  refine Nodup.map_on (fun a ha b hb hab => ?_) nodup_range
  have hnat := congrArg BitVec.toNat (BitWord.mk.inj hab)
  rwa [BitVec.toNat_ofNat, BitVec.toNat_ofNat, Nat.mod_eq_of_lt (mem_range.1 ha), Nat.mod_eq_of_lt (mem_range.1 hb)]
    at hnat

theorem scanWords_perm (role : Role) (L : Nat) : scanWords role L ~ allWords role L := sortWords_perm _

@[simp] theorem length_scanWords (role : Role) (L : Nat) : (scanWords role L).length = 2 ^ L :=
  (scanWords_perm role L).length_eq.trans (length_allWords role L)

@[simp] theorem mem_scanWords {role : Role} {L : Nat} (w : BitWord role L) : w ∈ scanWords role L :=
  (scanWords_perm role L).mem_iff.2 (mem_allWords w)

theorem nodup_scanWords (role : Role) (L : Nat) : (scanWords role L).Nodup :=
  (scanWords_perm role L).nodup_iff.2 (nodup_allWords role L)

theorem scanWords_pairwise_precedes (role : Role) (L : Nat) :
    (scanWords role L).Pairwise fun v w => precedes v.bits w.bits = true :=
  sortWords_pairwise_precedes (nodup_allWords role L)

/-- Settles O35: ≺ reads off its definition, and the scan sorts the list of all words, which has no repeats. -/
theorem scanIsEveryWordInOrder : Obligations.ScanIsEveryWordInOrder := fun L =>
  ⟨fun _ _ => precedes_iff, precedes_irrefl, fun _ _ _ => precedes_trans, fun _ _ => precedes_total,
    length_scanWords .code L, mem_scanWords, scanWords_pairwise_precedes .code L⟩

end Sys2Proof.Machine
end

section
/-! PROOFS. What a command can do, said once: `Effect s i t` lists the next states of command `i` at state `s`, and
`exec_effect` holds `exec` to it. The frame of the commands (O10) and of the caches (O11) are read off it. -/

namespace Sys2Proof.Machine

/-! ### The builds of R34 -/

/-- Command `i` leaves the built code `c'` where it found `c`: the build table of R34. -/
inductive Builds : Instr → Code → Code → Prop
  | rdh (c : Code) : Builds .rdh c (withParity c)
  | synd (len : Nat) (c : Code) : Builds (.synd len) c (withParity c)
  | contains (len : Nat) (c : Code) : Builds (.contains len) c (withParity c)
  | rdsa (c : Code) (distinct : hasRepeat c.cw = false) : Builds .rdsa c (withArray c)
  | decodeSa (len : Nat) (c : Code) (distinct : hasRepeat c.cw = false) : Builds (.decodeSa len) c (withArray c)
  | rdst (c : Code) : Builds .rdst c (withTable c)
  | decodeSt (len : Nat) (c : Code) : Builds (.decodeSt len) c (withTable c)

@[simp] theorem bare_withParity (c : Code) : (withParity c).bare = c.bare := rfl

@[simp] theorem bare_withArray (c : Code) : (withArray c).bare = c.bare := rfl

@[simp] theorem bare_withTable (c : Code) : (withTable c).bare = c.bare := by
  unfold withTable
  split <;> rfl

/-- A build changes nothing of a code but its caches (R32). -/
theorem Builds.bare_eq {i : Instr} {c c' : Code} (h : Builds i c c') : c'.bare = c.bare := by
  cases h <;> simp

/-! ### The effects of the commands -/

/-- What GLOAD has checked of the matrix G before it installs it with minimum distance d (R124). -/
structure Loadable (s : State) (n k : Nat) (G : List (BitVec n)) (d : Nat) : Prop where
  n_le : n ≤ s.cfg.nMax
  k_pos : 1 ≤ k
  k_le_n : k ≤ n
  rows : G.length = k
  nonzero : allZeroRows G = false
  standard : s.cfg.sfCheck = true → standardForm k G = true
  distance : minDistance (codewordList k G) = some d

/-- The commands that complete with a value in RES0 and touch nothing else: CONTAINS is one of them where the word has
another length (R154). -/
def onlyReads : Instr → Bool
  | .encode _ | .contains _ | .rdg | .rdcw | .weight _ | .hdist _ => true
  | _ => false

/-- DECODE with either strategy, which reports the error pattern in RES1 beside RES0 and keeps its build when it fails
(R175, R194). -/
def decodes : Instr → Bool
  | .decodeSa _ | .decodeSt _ => true
  | _ => false

/-- The next states of a command: an error with nothing changed or, in a decoder, the build kept (R222), and a success
with what the command writes. -/
inductive Effect (s : State) : Instr → State → Prop
  | failed (i : Instr) (e : ErrorKind) : Effect s i (finish (some e) s)
  | failedBuilt {i : Instr} {c c' : Code} (e : ErrorKind) (hc : s.code = some c) (hb : Builds i c c')
      (hi : decodes i = true) : Effect s i (finish (some e) (setCode c' s))
  | nop : Effect s .nop (finish none s)
  | staged {len : Nat} (r : Nat) (row : BitVec len) (hlen : len ≤ s.cfg.nMax) (hr : r < s.cfg.nMax) :
      Effect s (.grow len) (finish none (setStaged r ⟨len, row⟩ s))
  | loaded {n k d : Nat} {G : List (BitVec n)} (h : Loadable s n k G d) :
      Effect s (.gload n) (finish none (setCode (newCode n k G (codewordList k G) d) s))
  | read {i : Instr} (v : Reg) (hi : onlyReads i = true) : Effect s i (finish none (setRes0 v s))
  | props (v₀ v₁ : Reg) : Effect s .props (finish none (setRes1 v₁ (setRes0 v₀ s)))
  | readBuilt {i : Instr} {c c' : Code} (v : Reg) (hc : s.code = some c) (hb : Builds i c c') (hi : decodes i = false) :
      Effect s i (finish none (setRes0 v (setCode c' s)))
  | decoded {i : Instr} {c c' : Code} (v₀ v₁ : Reg) (hc : s.code = some c) (hb : Builds i c c')
      (hi : decodes i = true) : Effect s i (finish none (setRes1 v₁ (setRes0 v₀ (setCode c' s))))

/-- Every next state of the outcome `o` is an effect of command `i` at `s`. -/
def Answers (i : Instr) (s : State) (o : Host.Outcome State Fault Refusal) : Prop := ∀ t, o = .next t → Effect s i t

/-! ### The shared operations answer with effects -/

section Shared

variable {i : Instr} {s : State}

theorem answers_succeed {s' : State} (h : Effect s i (finish none s')) : Answers i s (succeed s') :=
  fun _ ht => succeed_eq_next.mp ht ▸ h

theorem answers_raise (e : ErrorKind) : Answers i s (raise e s) := fun _ ht => raise_eq_next.mp ht ▸ .failed i e

theorem answers_raise_built {c c' : Code} (e : ErrorKind) (hc : s.code = some c) (hb : Builds i c c')
    (hi : decodes i = true) : Answers i s (raise e (setCode c' s)) :=
  fun _ ht => raise_eq_next.mp ht ▸ .failedBuilt e hc hb hi

theorem answers_withLatched {f : Reg → Reg → Host.Outcome State Fault Refusal} (hf : ∀ a b, Answers i s (f a b)) :
    Answers i s (withLatched s f) := by
  intro t ht
  obtain ⟨_, a, b, -, ht⟩ := withLatched_next ht
  exact hf a b t ht

theorem answers_withCode {f : Code → Host.Outcome State Fault Refusal}
    (hf : ∀ c, s.code = some c → Answers i s (f c)) : Answers i s (withCode s f) := by
  intro t ht
  obtain ⟨c, hc, ht⟩ | ⟨-, rfl⟩ := withCode_next ht
  · exact hf c hc t ht
  · exact .failed i _

theorem answers_withWord {role : Role} {v : Reg} {L : Nat} {f : BitWord role L → Host.Outcome State Fault Refusal}
    (hf : L ≤ s.cfg.nMax → ∀ w, Answers i s (f w)) : Answers i s (withWord role v L s f) := by
  intro t ht
  obtain ⟨hL, -, ht⟩ | ⟨-, rfl⟩ := withWord_next ht
  · exact hf hL _ t ht
  · exact .failed i _

theorem answers_withLength {role : Role} {L required : Nat} {w : BitWord role L}
    {f : BitWord role required → Host.Outcome State Fault Refusal} (hf : ∀ w', Answers i s (f w')) :
    Answers i s (withLength w required s f) := by
  intro t ht
  obtain ⟨_, ht⟩ | ⟨-, rfl⟩ := withLength_next ht
  · exact hf _ t ht
  · exact .failed i _

theorem answers_withinRange {p : Bool} {k : Host.Outcome State Fault Refusal} (hk : p = true → Answers i s k) :
    Answers i s (withinRange p s k) := by
  intro t ht
  obtain ⟨hp, ht⟩ | ⟨-, rfl⟩ := withinRange_next ht
  · exact hk hp t ht
  · exact .failed i _

theorem answers_withEntry {α : Type} {entry : Option α} {f : α → Host.Outcome State Fault Refusal}
    (hf : ∀ x, Answers i s (f x)) : Answers i s (withEntry entry f) := by
  intro t ht
  obtain ⟨x, -, ht⟩ := withEntry_next ht
  exact hf x t ht

theorem answers_withStandardArray {c : Code} {k : Host.Outcome State Fault Refusal}
    (hk : hasRepeat c.cw = false → Answers i s k) : Answers i s (withStandardArray c k) := by
  intro t ht
  obtain ⟨hc, ht⟩ := withStandardArray_next ht
  exact hk hc t ht

end Shared

/-! ### The sixteen commands -/

theorem execNop_answers (s : State) : Answers .nop s (execNop s) :=
  answers_withLatched fun _ _ => answers_succeed .nop

theorem execGrow_answers (len : Nat) (s : State) : Answers (.grow len) s (execGrow len s) :=
  answers_withLatched fun _ _ => answers_withWord fun hlen w => answers_withinRange fun hr =>
    answers_succeed (.staged _ w.bits hlen (of_decide_eq_true hr))

theorem length_stagedMatrix {n k : Nat} {gs : List (Option StagedRow)} {G : List (BitVec n)}
    (h : stagedMatrix n k gs = some G) : G.length = k := by
  induction k generalizing gs G with
  | zero => simp_all [stagedMatrix]
  | succ k ih =>
    cases gs with
    | nil => simp [stagedMatrix] at h
    | cons g gs =>
      simp only [stagedMatrix] at h
      split at h
      · rename_i rows _ hrows
        obtain rfl := Option.some.inj h
        simp [ih hrows]
      · cases h

/-- The last checks of R124: each failure leaves the state, and the installed matrix has passed them all. -/
theorem installCode_answers {n k : Nat} {G : List (BitVec n)} {s : State} (hn : n ≤ s.cfg.nMax) (hk : 1 ≤ k)
    (hkn : k ≤ n) (hG : G.length = k) : Answers (.gload n) s (installCode n k G s) := by
  unfold installCode
  split
  · exact answers_raise _
  · split
    · exact answers_raise _
    · split
      · exact answers_raise _
      · rename_i hnz hsf _ d hd
        exact answers_succeed (.loaded ⟨hn, hk, hkn, hG, by simpa using hnz, by simpa using hsf, hd⟩)

theorem execGload_answers (len : Nat) (s : State) : Answers (.gload len) s (execGload len s) := by
  refine answers_withLatched fun a _ => ?_
  split
  · exact answers_raise _
  · split
    · exact answers_raise _
    · split
      · exact answers_raise _
      · split
        · exact answers_raise _
        · rename_i hn hk hk0 G hG
          exact installCode_answers (by omega) (by omega) (by omega) (length_stagedMatrix hG)

theorem execEncode_answers (len : Nat) (s : State) : Answers (.encode len) s (execEncode len s) :=
  answers_withLatched fun _ _ => answers_withCode fun _ _ => answers_withWord fun _ _ => answers_withLength fun _ =>
    answers_succeed (.read _ rfl)

theorem execSynd_answers (len : Nat) (s : State) : Answers (.synd len) s (execSynd len s) :=
  answers_withLatched fun _ _ => answers_withCode fun c hc => answers_withWord fun _ _ => answers_withLength fun _ =>
    answers_succeed (.readBuilt _ hc (.synd len c) rfl)

theorem execContains_answers (len : Nat) (s : State) : Answers (.contains len) s (execContains len s) := by
  refine answers_withLatched fun _ _ => answers_withCode fun c hc => answers_withWord fun _ _ => ?_
  split
  · exact answers_succeed (.readBuilt _ hc (.contains len c) rfl)
  · exact answers_succeed (.read _ rfl)

theorem execDecodeSa_answers (len : Nat) (s : State) : Answers (.decodeSa len) s (execDecodeSa len s) := by
  refine answers_withLatched fun _ _ => answers_withCode fun c hc => answers_withWord fun _ _ =>
    answers_withLength fun _ => answers_withStandardArray fun hd => answers_withEntry fun _ => ?_
  split
  · exact answers_raise_built _ hc (.decodeSa len c hd) rfl
  · exact answers_succeed (.decoded _ _ hc (.decodeSa len c hd) rfl)

theorem execDecodeSt_answers (len : Nat) (s : State) : Answers (.decodeSt len) s (execDecodeSt len s) := by
  refine answers_withLatched fun _ _ => answers_withCode fun c hc => answers_withWord fun _ _ =>
    answers_withLength fun _ => ?_
  split
  · exact answers_raise_built _ hc (.decodeSt len c) rfl
  · split
    · exact answers_raise_built _ hc (.decodeSt len c) rfl
    · exact answers_succeed (.decoded _ _ hc (.decodeSt len c) rfl)

theorem execProps_answers (s : State) : Answers .props s (execProps s) :=
  answers_withLatched fun _ _ => answers_withCode fun _ _ => answers_succeed (.props _ _)

theorem execRdg_answers (s : State) : Answers .rdg s (execRdg s) :=
  answers_withLatched fun _ _ => answers_withCode fun _ _ => answers_withinRange fun _ => answers_withEntry fun _ =>
    answers_succeed (.read _ rfl)

theorem execRdh_answers (s : State) : Answers .rdh s (execRdh s) :=
  answers_withLatched fun _ _ => answers_withCode fun c hc => answers_withinRange fun _ => answers_withEntry fun _ =>
    answers_succeed (.readBuilt _ hc (.rdh c) rfl)

theorem execRdcw_answers (s : State) : Answers .rdcw s (execRdcw s) :=
  answers_withLatched fun _ _ => answers_withCode fun _ _ => answers_withinRange fun _ => answers_withEntry fun _ =>
    answers_succeed (.read _ rfl)

theorem execRdsa_answers (s : State) : Answers .rdsa s (execRdsa s) :=
  answers_withLatched fun _ _ => answers_withCode fun c hc => answers_withinRange fun _ =>
    answers_withStandardArray fun hd => answers_withEntry fun _ => answers_succeed (.readBuilt _ hc (.rdsa c hd) rfl)

theorem execRdst_answers (s : State) : Answers .rdst s (execRdst s) :=
  answers_withLatched fun _ _ => answers_withCode fun c hc => answers_withinRange fun _ => answers_withEntry fun _ =>
    answers_succeed (.readBuilt _ hc (.rdst c) rfl)

theorem execWeight_answers (len : Nat) (s : State) : Answers (.weight len) s (execWeight len s) :=
  answers_withLatched fun _ _ => answers_withWord fun _ _ => answers_succeed (.read _ rfl)

theorem execHdist_answers (len : Nat) (s : State) : Answers (.hdist len) s (execHdist len s) :=
  answers_withLatched fun _ _ => answers_withWord fun _ _ => answers_withWord fun _ _ => answers_succeed (.read _ rfl)

/-- A command that answers a next state has had one of its effects. -/
theorem exec_effect {i : Instr} {s t : State} (h : exec i s = .next t) : Effect s i t :=
  match i with
  | .nop => execNop_answers s t h
  | .grow len => execGrow_answers len s t h
  | .gload len => execGload_answers len s t h
  | .encode len => execEncode_answers len s t h
  | .synd len => execSynd_answers len s t h
  | .contains len => execContains_answers len s t h
  | .decodeSa len => execDecodeSa_answers len s t h
  | .decodeSt len => execDecodeSt_answers len s t h
  | .props => execProps_answers s t h
  | .rdg => execRdg_answers s t h
  | .rdh => execRdh_answers s t h
  | .rdcw => execRdcw_answers s t h
  | .rdsa => execRdsa_answers s t h
  | .rdst => execRdst_answers s t h
  | .weight len => execWeight_answers len s t h
  | .hdist len => execHdist_answers len s t h

end Sys2Proof.Machine
end

section
/-! PROOFS. The frame of the commands, read off their effects: what a completion keeps, what becomes of the staging rows
and of the code, and the valid bits of R34 (O10, O11). -/

namespace Sys2Proof.Machine

/-! ### What an effect keeps and what it changes -/

theorem Effect.cfg_eq {i : Instr} {s t : State} (h : Effect s i t) : t.cfg = s.cfg := by cases h <;> rfl

theorem Effect.inReset_eq {i : Instr} {s t : State} (h : Effect s i t) : t.inReset = s.inReset := by cases h <;> rfl

/-- Only GROW stages a row, of its LEN and below the bounds of R121. -/
theorem Effect.gs_cases {i : Instr} {s t : State} (h : Effect s i t) :
    t.gs = s.gs ∨ ∃ (len r : Nat) (row : BitVec len), i = .grow len ∧ len ≤ s.cfg.nMax ∧ r < s.cfg.nMax ∧
      t.gs = s.gs.set r (some ⟨len, row⟩) := by
  cases h
  case staged len r row hlen hr => exact .inr ⟨len, r, row, rfl, hlen, hr, rfl⟩
  all_goals exact .inl rfl

/-- The code stays, gets a cache built, or is replaced by a GLOAD that completes with OK. -/
theorem Effect.code_cases {i : Instr} {s t : State} (h : Effect s i t) :
    t.code = s.code ∨ (∃ c c', s.code = some c ∧ t.code = some c' ∧ Builds i c c') ∨
      ∃ (n k d : Nat) (G : List (BitVec n)), i = .gload n ∧ t.err = none ∧ Loadable s n k G d ∧
        t.code = some (newCode n k G (codewordList k G) d) := by
  cases h
  case failedBuilt c c' _ hc hb _ => exact .inr (.inl ⟨c, c', hc, rfl, hb⟩)
  case readBuilt c c' _ hc hb _ => exact .inr (.inl ⟨c, c', hc, rfl, hb⟩)
  case decoded c c' _ _ hc hb _ => exact .inr (.inl ⟨c, c', hc, rfl, hb⟩)
  case loaded n k d G hl => exact .inr (.inr ⟨n, k, d, G, rfl, rfl, hl, rfl⟩)
  all_goals exact .inl rfl

theorem Effect.res0_eq {i : Instr} {s t : State} (h : Effect s i t)
    (hi : i = .nop ∨ (∃ len, i = .grow len) ∨ ∃ len, i = .gload len) : t.res0 = s.res0 := by
  obtain ⟨hread, hprops, hbuild⟩ : onlyReads i = false ∧ i ≠ .props ∧ ∀ c c', ¬Builds i c c' := by
    obtain rfl | ⟨_, rfl⟩ | ⟨_, rfl⟩ := hi <;> exact ⟨rfl, nofun, nofun⟩
  cases h
  case read hi => simp [hread] at hi
  case props => exact absurd rfl hprops
  case readBuilt hb _ => exact absurd hb (hbuild _ _)
  case decoded hb _ => exact absurd hb (hbuild _ _)
  all_goals rfl

theorem decodes_iff {i : Instr} : decodes i = true ↔ (∃ len, i = .decodeSa len) ∨ ∃ len, i = .decodeSt len := by
  cases i <;> simp [decodes]

theorem Effect.res1_eq {i : Instr} {s t : State} (h : Effect s i t) (hp : i ≠ .props) (hd : decodes i = false) :
    t.res1 = s.res1 := by
  cases h
  case props => exact absurd rfl hp
  case decoded hi => simp [hd] at hi
  all_goals rfl

/-! ### The code of a state and what is read off it -/

theorem instanceOf_of_bare {s t : State} (h : t.code.map Code.bare = s.code.map Code.bare) :
    instanceOf t = instanceOf s := by
  have hbare : ∀ s : State, instanceOf s = (s.code.map Code.bare).map fun c => ⟨c.n, c.k, c.G, c.d, c.det, c.cor⟩ := by
    intro s
    cases hc : s.code <;> simp [instanceOf, hc, Code.bare]
  rw [hbare, hbare, h]

/-- Only a GLOAD that completes with OK changes the code under its caches (R32). -/
theorem Effect.instanceOf_cases {i : Instr} {s t : State} (h : Effect s i t) :
    instanceOf t = instanceOf s ∨ t.err = none ∧ ∃ len, i = .gload len := by
  obtain hc | ⟨c, c', hc, hc', hb⟩ | ⟨n, _, _, _, hi, herr, -, -⟩ := h.code_cases
  · exact .inl (instanceOf_of_bare (by rw [hc]))
  · exact .inl (instanceOf_of_bare (by simp [hc, hc', hb.bare_eq]))
  · exact .inr ⟨herr, n, hi⟩

/-- Settles O10: each clause is the frame of one piece of state under the effects of a command. -/
theorem commandsWriteOnlyTheirResults : Obligations.CommandsWriteOnlyTheirResults := by
  intro i s t hexec
  have h := exec_effect hexec
  refine ⟨fun hi => ?_, fun hi => ?_, fun hp hsa hst => h.res1_eq hp ?_, h.res0_eq⟩
  · obtain hgs | ⟨len, _, _, rfl, -⟩ := h.gs_cases
    · exact hgs
    · exact absurd rfl (hi len)
  · obtain hc | ⟨-, len, rfl⟩ := h.instanceOf_cases
    · exact hc
    · exact absurd rfl (hi len)
  · rw [Bool.eq_false_iff, ne_eq, decodes_iff]
    rintro (⟨len, rfl⟩ | ⟨len, rfl⟩)
    · exact hsa len rfl
    · exact hst len rfl

/-! ### The valid bits (R34) -/

theorem hValid_of_code {s : State} {c : Code} (h : s.code = some c) : hValid s = c.H.isSome := by simp [hValid, h]

theorem saValid_of_code {s : State} {c : Code} (h : s.code = some c) : saValid s = c.sa.isSome := by simp [saValid, h]

theorem stValid_of_code {s : State} {c : Code} (h : s.code = some c) : stValid s = c.st.isSome := by simp [stValid, h]

theorem cwValid_of_code {s : State} {c : Code} (h : s.code = some c) : cwValid s = true := by simp [cwValid, h]

@[simp] theorem withTable_sa_isSome (c : Code) : (withTable c).sa.isSome = c.sa.isSome := by
  unfold withTable
  split <;> rfl

/-- The build of the syndrome table builds H where it is not valid, and never clears it (R190). -/
theorem withTable_H_isSome {c : Code} (h : c.H.isSome = true) : (withTable c).H.isSome = true := by
  unfold withTable
  split
  · exact h
  · rfl

/-- A build clears no valid bit. -/
theorem Builds.keeps_valid {i : Instr} {c c' : Code} (h : Builds i c c') :
    (c.H.isSome = true → c'.H.isSome = true) ∧ (c.sa.isSome = true → c'.sa.isSome = true) ∧
      (c.st.isSome = true → c'.st.isSome = true) := by
  cases h
  case rdh | synd | contains => exact ⟨fun _ => rfl, id, id⟩
  case rdsa | decodeSa => exact ⟨id, fun _ => rfl, id⟩
  case rdst | decodeSt => exact ⟨withTable_H_isSome, (withTable_sa_isSome c).trans, fun _ => withTable_st_isSome c⟩

/-- H becomes valid by the commands R34 names alone. -/
theorem Builds.H_isSome_eq {i : Instr} {c c' : Code} (h : Builds i c c') (hrdh : i ≠ .rdh) (hrdst : i ≠ .rdst)
    (hsynd : ∀ len, i ≠ .synd len) (hcontains : ∀ len, i ≠ .contains len) (hst : ∀ len, i ≠ .decodeSt len) :
    c'.H.isSome = c.H.isSome := by
  cases h
  case rdh => exact absurd rfl hrdh
  case synd len => exact absurd rfl (hsynd len)
  case contains len => exact absurd rfl (hcontains len)
  case rdsa | decodeSa => rfl
  case rdst => exact absurd rfl hrdst
  case decodeSt len => exact absurd rfl (hst len)

/-- The standard array becomes valid by the commands R34 names alone. -/
theorem Builds.sa_isSome_eq {i : Instr} {c c' : Code} (h : Builds i c c') (hrdsa : i ≠ .rdsa)
    (hsa : ∀ len, i ≠ .decodeSa len) : c'.sa.isSome = c.sa.isSome := by
  cases h
  case rdsa => exact absurd rfl hrdsa
  case decodeSa len _ => exact absurd rfl (hsa len)
  case rdh | synd | contains => rfl
  case rdst | decodeSt => exact withTable_sa_isSome c

/-- The syndrome table becomes valid by the commands R34 names alone. -/
theorem Builds.st_isSome_eq {i : Instr} {c c' : Code} (h : Builds i c c') (hrdst : i ≠ .rdst)
    (hst : ∀ len, i ≠ .decodeSt len) : c'.st.isSome = c.st.isSome := by
  cases h
  case rdst => exact absurd rfl hrdst
  case decodeSt len => exact absurd rfl (hst len)
  case rdh | synd | contains | rdsa | decodeSa => rfl

/-- A GLOAD leaves the new code with its codeword list alone, or fails and leaves the code (R124). -/
theorem Effect.gload_code {len : Nat} {s t : State} (h : Effect s (.gload len) t) :
    (t.err = none ∧ ∃ c, t.code = some c ∧ c.H = none ∧ c.sa = none ∧ c.st = none) ∨
      (t.err ≠ none ∧ t.code = s.code) := by
  cases h
  case failed => exact .inr ⟨nofun, rfl⟩
  case loaded => exact .inl ⟨rfl, _, rfl, rfl, rfl, rfl⟩
  case failedBuilt hb _ => cases hb
  case readBuilt hb _ => cases hb
  case decoded hb _ => cases hb
  case read hi => cases hi

/-- Settles O11: a GLOAD installs a code without lazy caches; every other command keeps the code or builds by the
table. -/
theorem cachesAreBuiltOnlyWhereTheTableSays : Obligations.CachesAreBuiltOnlyWhereTheTableSays := by
  refine ⟨fun len s t hexec => ?_, fun i s t hexec hi => ?_⟩
  · obtain ⟨herr, c, hc, hH, hsa, hst⟩ | ⟨herr, hc⟩ := (exec_effect hexec).gload_code
    · simp [hValid_of_code hc, saValid_of_code hc, stValid_of_code hc, cwValid_of_code hc, hH, hsa, hst, herr]
    · simp [herr, hc]
  · obtain hc | ⟨c, c', hc, hc', hb⟩ | ⟨n, _, _, _, rfl, -⟩ := (exec_effect hexec).code_cases
    · simp [hValid, saValid, stValid, cwValid, loadedFlag, hc]
    · obtain ⟨hH, hsa, hst⟩ := hb.keeps_valid
      rw [hValid_of_code hc, hValid_of_code hc', saValid_of_code hc, saValid_of_code hc', stValid_of_code hc,
        stValid_of_code hc', cwValid_of_code hc, cwValid_of_code hc', loadedFlag, hc']
      exact ⟨hb.H_isSome_eq, hb.sa_isSome_eq, hb.st_isSome_eq, hH, hsa, hst, rfl, rfl⟩
    · exact absurd rfl (hi n)

end Sys2Proof.Machine
end

section
/-! PROOFS. The register window: the packed words ID and STATUS field by field (O21, O22), and the host's step at one
input (O23, O25, O26). -/

namespace Sys2Proof.Machine

/-! ### Packed words -/

theorem toNat_append_add {m n : Nat} (x : BitVec m) (y : BitVec n) : (x ++ y).toNat = x.toNat * 2 ^ n + y.toNat := by
  rw [BitVec.toNat_append, ← Nat.shiftLeft_add_eq_or_of_lt y.isLt, Nat.shiftLeft_eq]

theorem getLsbD_eq_of_toNat {n i : Nat} {w : BitVec n} {b : Bool} (h : w.toNat / 2 ^ i % 2 = b.toNat) :
    w.getLsbD i = b := by
  rw [BitVec.getLsbD, Nat.testBit_eq_decide_div_mod_eq, h]
  cases b <;> rfl

/-- ID as the sum of its fields (R23). -/
theorem idWord_toNat {p : Params} (h : p.Allowed) :
    (idWord p).toNat = 0x4C43 * 65536 + p.nMax * 256 + 2 * p.stCheck.toNat + p.sfCheck.toNat := by
  obtain ⟨-, hmax⟩ := h
  simp only [idWord, toNat_append_add, BitVec.toNat_ofBool, BitVec.ofNat_eq_ofNat, BitVec.toNat_ofNat]
  omega

/-- STATUS as the sum of its fields (R25). -/
theorem statusWord_toNat (s : State) : (statusWord s).toNat =
    (stValid s).toNat * 524288 + (saValid s).toNat * 262144 + (hValid s).toNat * 131072 + (cwValid s).toNat * 65536 +
      (errorCode s.err).toNat * 256 + (loadedFlag s).toNat * 8 + s.overrun.toNat * 4 + s.done.toNat * 2 +
      (busyFlag s).toNat := by
  simp only [statusWord, toNat_append_add, BitVec.toNat_ofBool, BitVec.ofNat_eq_ofNat, BitVec.toNat_ofNat]
  omega

/-- Settles O21: the fields are the digits of `idWord_toNat`. -/
theorem idHoldsTheParameters : Obligations.IdHoldsTheParameters := by
  intro s hallowed
  have hid : (readReg s .id).toNat = _ := idWord_toNat hallowed
  have hst := s.cfg.stCheck.toNat_le
  have hsf := s.cfg.sfCheck.toNat_le
  obtain ⟨-, hmax⟩ := hallowed
  refine ⟨?_, ?_, ?_, getLsbD_eq_of_toNat ?_, getLsbD_eq_of_toNat ?_⟩ <;> omega

/-- STATUS's fields as the digits of `statusWord_toNat`. -/
theorem statusWord_fields (s : State) :
    (statusWord s).getLsbD 0 = busyFlag s ∧ (statusWord s).getLsbD 1 = s.done ∧ (statusWord s).getLsbD 2 = s.overrun ∧
      (statusWord s).getLsbD 3 = loadedFlag s ∧ (statusWord s).toNat / 16 % 16 = 0 ∧
      (statusWord s).toNat / 256 % 16 = (errorCode s.err).toNat ∧ (statusWord s).toNat / 4096 % 16 = 0 ∧
      (statusWord s).getLsbD 16 = cwValid s ∧ (statusWord s).getLsbD 17 = hValid s ∧
      (statusWord s).getLsbD 18 = saValid s ∧ (statusWord s).getLsbD 19 = stValid s ∧
      (statusWord s).toNat / 1048576 = 0 := by
  have hstatus := statusWord_toNat s
  have hbusy := (busyFlag s).toNat_le
  have hdone := s.done.toNat_le
  have hoverrun := s.overrun.toNat_le
  have hloaded := (loadedFlag s).toNat_le
  have herr := (errorCode s.err).isLt
  have hcw := (cwValid s).toNat_le
  have hH := (hValid s).toNat_le
  have hsa := (saValid s).toNat_le
  have hst := (stValid s).toNat_le
  refine ⟨getLsbD_eq_of_toNat ?_, getLsbD_eq_of_toNat ?_, getLsbD_eq_of_toNat ?_, getLsbD_eq_of_toNat ?_, ?_, ?_, ?_,
    getLsbD_eq_of_toNat ?_, getLsbD_eq_of_toNat ?_, getLsbD_eq_of_toNat ?_, getLsbD_eq_of_toNat ?_, ?_⟩ <;> omega

/-- Settles O22: CW_VALID and LOADED are the presence of a code (R25), and the fields are those of `statusWord`. -/
theorem statusFieldsStandWhereTheySay : Obligations.StatusFieldsStandWhereTheySay := statusWord_fields

/-! ### The host's step at one input -/

theorem step_input {s : State} {op : Input} {rest : List Input} (hm : engineMoves s = false)
    (hi : s.inputs = op :: rest) : step s = perform op { s with inputs := rest, delay := s.delay - 1 } := by
  rw [step_host hm, hostTurn, hi]

theorem perform_read {off : BitVec 8} (h : off.toNat % 4 = 0) (s : State) :
    perform (.read off 4) s = .next { s with lastRead := some (readReg s (regAt off)) } :=
  if_pos (admitted_iff.mpr ⟨rfl, h⟩)

theorem perform_write {off : BitVec 8} (h : off.toNat % 4 = 0) (v : Reg) (s : State) :
    perform (.write off 4 v) s = .next (hostWrite (regAt off) v s) :=
  if_pos (admitted_iff.mpr ⟨rfl, h⟩)

/-- The host's step that writes a register, the reset input released. -/
theorem step_write {s : State} {off : BitVec 8} {v : Reg} {rest : List Input} (hm : engineMoves s = false)
    (hr : s.inReset = false) (ha : off.toNat % 4 = 0) (hi : s.inputs = .write off 4 v :: rest) :
    step s = .next (writeReg (regAt off) v { s with inputs := rest, delay := s.delay - 1 }) := by
  rw [step_input hm hi, perform_write ha, hostWrite_released]
  exact hr

theorem acknowledge_eq_ite (v : Reg) (s : State) : acknowledge v s = { s with
    done := if v.getLsbD 1 then false else s.done, overrun := if v.getLsbD 2 then false else s.overrun } := by
  have hclear : ∀ b c : Bool, (b && !c) = if c then false else b := by decide
  simp only [acknowledge, hclear]

/-- Settles O23: the step is the acknowledgement of STATUS. -/
theorem statusWriteOnlyAcknowledges : Obligations.StatusWriteOnlyAcknowledges := by
  intro s v rest hm hr hi
  have hwrite := step_write hm hr rfl hi
  exact ⟨s.delay - 1, hwrite.trans (congrArg _ (acknowledge_eq_ite v _))⟩

/-- Settles O25: the step writes the one register, which reads back. -/
theorem operandWritesReachOnlyLaterCommands : Obligations.OperandWritesReachOnlyLaterCommands := fun _ _ _ hm hr =>
  ⟨fun hi => ⟨_, _, step_write hm hr rfl hi, rfl, rfl⟩, fun hi => ⟨_, _, step_write hm hr rfl hi, rfl, rfl⟩⟩

theorem regAt_of_ge {off : BitVec 8} (h : 0x24 ≤ off.toNat) : regAt off = .reserved := by
  unfold regAt
  split
  case h_10 => rfl
  all_goals omega

/-- The read-only registers and the reserved offsets of R22: a write is ignored. -/
theorem writeReg_readOnly {off : BitVec 8} (ha : off.toNat % 4 = 0)
    (h : off = 0x00 ∨ off = 0x18 ∨ off = 0x1C ∨ 0x20 ≤ off.toNat) (v : Reg) (s : State) :
    writeReg (regAt off) v s = s := by
  obtain rfl | rfl | rfl | hge := h
  case inr.inr.inr =>
    obtain hcnt | hreserved : off.toNat = 0x20 ∨ 0x24 ≤ off.toNat := by omega
    · rw [BitVec.eq_of_toNat_eq (y := 0x20) hcnt]
      rfl
    · rw [regAt_of_ge hreserved]
      rfl
  all_goals rfl

theorem hostWrite_readOnly {off : BitVec 8} (ha : off.toNat % 4 = 0)
    (h : off = 0x00 ∨ off = 0x18 ∨ off = 0x1C ∨ 0x20 ≤ off.toNat) (v : Reg) (s : State) :
    hostWrite (regAt off) v s = s := by
  unfold hostWrite
  rw [writeReg_readOnly ha h, ite_self]

/-- Settles O26: the step of a read is the register's value, and that of an ignored write is the access alone. -/
theorem windowRegistersReadAndIgnoreWrites : Obligations.WindowRegistersReadAndIgnoreWrites := by
  refine fun s off rest hm ha => ⟨fun hi => ?_, fun v hoff hi => ⟨s.delay - 1, ?_⟩⟩
  · refine ⟨_, _, (step_input hm hi).trans (perform_read ha _), ?_, ?_, ?_, ?_, ?_, ?_, ?_, ?_, ?_, fun hge => ?_⟩
    case refine_10 => rw [regAt_of_ge hge]; rfl
    all_goals rintro rfl; rfl
  · rw [step_input hm hi, perform_write ha, hostWrite_readOnly ha hoff]

end Sys2Proof.Machine
end

section
/-! PROOFS. The reset values of R38 (O20), what one step does to the code and the staging rows (O32), and the invariant
(O33, O34). -/

namespace Sys2Proof.Machine

/-! ### The reset state (R38) -/

theorem statusWord_resetBlock (s : State) : statusWord (resetBlock s) = 0 := by
  refine BitVec.eq_of_toNat_eq ?_
  simp [statusWord_toNat, stValid, saValid, hValid, cwValid, loadedFlag, busyFlag, errorCode]

/-- The reset of the block leaves R38's value in every piece of state. -/
theorem isResetState_resetBlock (s : State) : IsResetState (resetBlock s) where
  id := idWord_toNat
  ie := rfl
  status := statusWord_resetBlock s
  lastcmd := rfl
  opa := rfl
  opb := rfl
  res0 := rfl
  res1 := rfl
  cmdcnt := rfl
  gs := ⟨List.length_replicate, fun _ hr => List.getElem?_replicate_of_lt hr⟩
  code := rfl
  eng := rfl
  irq := rfl

/-- R38 says nothing of the reset input's level and of the model's own fields. -/
theorem IsResetState.of_outside {s : State} (h : IsResetState s) (level : Bool) (d n : Nat) (ops : List Input)
    (r : Option Reg) :
    IsResetState { s with inReset := level, delay := d, tick := n, inputs := ops, lastRead := r } :=
  ⟨h.id, h.ie, h.status, h.lastcmd, h.opa, h.opb, h.res0, h.res1, h.cmdcnt, h.gs, h.code, h.eng, h.irq⟩

theorem isResetState_assertReset (s : State) : IsResetState (assertReset s) :=
  (isResetState_resetBlock s).of_outside true 0 _ _ _

theorem isResetState_releaseReset {s : State} (h : s.inReset = true) : IsResetState (releaseReset s) := by
  rw [releaseReset_held h]
  exact (isResetState_resetBlock s).of_outside false 0 _ _ _

theorem IsResetState.engineMoves_eq {s : State} (h : IsResetState s) : engineMoves s = false := by
  simp [engineMoves, busyFlag, h.eng]

/-! ### What a step does to the storage -/

/-- The inputs that reset the block: the edges of the reset input (R250) and SRST (R251). -/
inductive ResetsBlock (s t : State) : Input → Prop
  | asserted (level : t.inReset = true) : ResetsBlock s t .assertReset
  | released (held : s.inReset = true) : ResetsBlock s t .releaseReset
  | soft (v : Reg) (free : s.inReset = false) (srst : v.getLsbD 1 = true) : ResetsBlock s t (.write 0x04 4 v)

/-- Code and staging rows, the parameters and the reset input's level stay, and a block held in reset stays reset. -/
structure KeepsStorage (s t : State) : Prop where
  cfg : t.cfg = s.cfg
  gs : t.gs = s.gs
  code : t.code = s.code
  inReset : t.inReset = s.inReset
  held : s.inReset = true → IsResetState s → IsResetState t

theorem KeepsStorage.refl (s : State) : KeepsStorage s s := ⟨rfl, rfl, rfl, rfl, fun _ h => h⟩

theorem keepsStorage_illegal {s : State} {c a b : Reg} (h : s.eng = .busy c a b) (e : ErrorKind) :
    KeepsStorage s (finish (some e) s) :=
  ⟨rfl, rfl, rfl, rfl, fun _ hreset => absurd (h.symm.trans hreset.eng) nofun⟩

theorem regAt_eq_ctrl {off : BitVec 8} (h : regAt off = .ctrl) : off = 0x04 := by
  unfold regAt at h
  split at h
  case h_2 hoff => exact BitVec.eq_of_toNat_eq hoff
  all_goals cases h

/-- A register write, the reset input released, is SRST or leaves the storage. -/
theorem writeReg_storage {off : BitVec 8} {v : Reg} {s : State} (hr : s.inReset = false) :
    (off = 0x04 ∧ v.getLsbD 1 = true ∧ writeReg (regAt off) v s = resetBlock s) ∨
      KeepsStorage s (writeReg (regAt off) v s) := by
  have hfree : ∀ t : State, s.inReset = true → IsResetState s → IsResetState t := fun _ h => by simp [hr] at h
  obtain h | h | h | ⟨-, h⟩ | ⟨-, -, h⟩ | ⟨hctrl, hv, h⟩ | ⟨-, h⟩ := writeReg_cases (regAt off) v s
  case inr.inr.inr.inr.inr.inl => exact .inl ⟨regAt_eq_ctrl hctrl, hv, h⟩
  case inr.inr.inr.inr.inr.inr =>
    rw [h]
    unfold submit
    split <;> exact .inr ⟨rfl, rfl, rfl, rfl, hfree _⟩
  all_goals rw [h]; exact .inr ⟨rfl, rfl, rfl, rfl, hfree _⟩

/-- An input resets the block or leaves the storage. -/
theorem perform_storage {op : Input} {s t : State} (h : perform op s = .next t) :
    (ResetsBlock s t op ∧ IsResetState t ∧ t.cfg = s.cfg) ∨ KeepsStorage s t := by
  obtain ⟨_, rfl, rfl⟩ | ⟨off, v, rfl, rfl⟩ | ⟨rfl, rfl⟩ | ⟨rfl, rfl⟩ | ⟨rfl, rfl⟩ := perform_cases h
  · exact .inr ⟨rfl, rfl, rfl, rfl, fun _ h => h.of_outside _ _ _ _ _⟩
  · cases hr : s.inReset with
    | true =>
      rw [hostWrite_held hr]
      exact .inr (.refl s)
    | false =>
      rw [hostWrite_released hr]
      obtain ⟨rfl, hv, hw⟩ | hkeep := writeReg_storage (off := off) (v := v) hr
      · exact .inl ⟨.soft v hr hv, hw ▸ isResetState_resetBlock s, hw ▸ rfl⟩
      · exact .inr hkeep
  · exact .inr ⟨rfl, rfl, rfl, rfl, fun _ h => h.of_outside _ _ _ _ _⟩
  · exact .inl ⟨.asserted rfl, isResetState_assertReset s, rfl⟩
  · cases hr : s.inReset with
    | true => exact .inl ⟨.released hr, isResetState_releaseReset hr, by rw [releaseReset_held hr]; rfl⟩
    | false =>
      rw [releaseReset_released hr]
      exact .inr (.refl s)

/-- A step is a command's effect, a reset of the block, or leaves the storage. -/
theorem step_storage {s t : State} (h : step s = .next t) :
    (engineMoves s = true ∧ ∃ c a b i, s.eng = .busy c a b ∧ decode c = .ok i ∧ Effect s i t) ∨
      (engineMoves s = false ∧ (∃ op rest, s.inputs = op :: rest ∧ ResetsBlock s t op) ∧ IsResetState t ∧
        t.cfg = s.cfg) ∨
      KeepsStorage s t := by
  obtain ⟨hm, c, a, b, hbusy, hc⟩ | ⟨-, -, rfl⟩ | ⟨hm, op, rest, hin, hp⟩ := step_cases h
  · obtain ⟨i, hi, hexec⟩ | ⟨-, hraise⟩ := complete_cases c s
    · exact .inl ⟨hm, c, a, b, i, hbusy, hi, exec_effect (hexec.symm.trans hc)⟩
    · obtain rfl := raise_eq_next.mp (hraise.symm.trans hc)
      exact .inr (.inr (keepsStorage_illegal hbusy _))
  · exact .inr (.inr (.refl _))
  · obtain ⟨hop, hreset, hcfg⟩ | hkeep := perform_storage hp
    · have hop : ResetsBlock s t op := by cases hop <;> constructor <;> assumption
      exact .inr (.inl ⟨hm, ⟨op, rest, hin, hop⟩, hreset, hcfg⟩)
    · obtain ⟨hcfg, hgs, hcode, hlevel, hheld⟩ := hkeep
      exact .inr (.inr ⟨hcfg, hgs, hcode, hlevel, fun hr hs => hheld hr (hs.of_outside _ _ _ _ _)⟩)

/-- Settles O20: every way into the reset state is `resetBlock`, and under an asserted input no step leaves it. -/
theorem resetLeavesTheStatedValues : Obligations.ResetLeavesTheStatedValues := by
  refine ⟨⟨isResetState_resetBlock State.reset, rfl⟩, fun s rest hm => ⟨fun hi => ?_, fun hr hi => ?_, ?_⟩, ?_⟩
  · exact ⟨_, step_input hm hi, isResetState_assertReset _, rfl, rfl, rfl⟩
  · refine ⟨_, step_input hm hi, isResetState_releaseReset hr, ?_⟩
    rw [releaseReset_held]
    · exact ⟨rfl, rfl, rfl⟩
    · exact hr
  · rintro hr ⟨v, hi, hv⟩
    have hreset : ∀ s, writeReg (regAt 0x04) v s = resetBlock s := fun _ => if_pos hv
    exact ⟨_, (step_write hm hr rfl hi).trans (congrArg _ (hreset _)), isResetState_resetBlock _, hr, rfl, rfl⟩
  · intro s t hs hr hstep
    obtain ⟨hm, -⟩ | ⟨-, ⟨op, rest, hin, hop⟩, ht, hcfg⟩ | hkeep := step_storage hstep
    · exact absurd hm (by simp [hs.engineMoves_eq])
    · refine ⟨ht, hcfg, ?_⟩
      cases hop with
      | asserted level => exact .inl level
      | released => exact .inr ⟨rest, hin⟩
      | soft v free => exact absurd hr (by simp [free])
    · exact ⟨hkeep.held hr hs, hkeep.cfg, .inl (hkeep.inReset.trans hr)⟩

/-- Settles O32: of the effects only that of a successful GLOAD changes the code under its caches, and a reset leaves
no code. -/
theorem instanceChangesOnlyByGloadOrReset : Obligations.InstanceChangesOnlyByGloadOrReset := by
  intro s t hstep hne
  obtain ⟨hm, c, a, b, i, hbusy, hi, heffect⟩ | ⟨hm, ⟨op, rest, hin, hop⟩, ht, -⟩ | hkeep := step_storage hstep
  · obtain hsame | ⟨herr, len, rfl⟩ := heffect.instanceOf_cases
    · exact absurd hsame hne
    · exact .inl ⟨hm, herr, c, a, b, len, hbusy, hi⟩
  · refine .inr ⟨hm, ht.code, rest, ?_⟩
    cases hop with
    | asserted => exact .inl hin
    | released held => exact .inr (.inl ⟨held, hin⟩)
    | soft v _ srst => exact .inr (.inr ⟨v, hin, srst⟩)
  · exact absurd (instanceOf_of_bare (by rw [hkeep.code])) hne

/-! ### The invariant -/

section Caches

variable {c : Code}

theorem CodeInv.parityOf_eq (h : CodeInv c) : parityOf c = parityMatrix c.k c.G := by
  unfold parityOf
  split
  · exact h.H_eq _ ‹_›
  · rfl

theorem CodeInv.arrayOf_eq (h : CodeInv c) : arrayOf c = standardArray c.k c.cw := by
  unfold arrayOf
  split
  · exact (h.sa_eq _ ‹_›).1
  · rfl

theorem CodeInv.tableOf_eq (h : CodeInv c) : tableOf c = syndromeTable (c.n - c.k) (parityMatrix c.k c.G) := by
  unfold tableOf
  split
  · exact (h.st_eq _ ‹_›).1
  · rw [h.parityOf_eq]

theorem CodeInv.withParity (h : CodeInv c) : CodeInv (withParity c) :=
  { h with
    H_eq := fun _ hH => Option.some.inj hH ▸ h.parityOf_eq
    st_eq := fun st hst => ⟨(h.st_eq st hst).1, rfl⟩ }

theorem CodeInv.withArray (h : CodeInv c) (distinct : hasRepeat c.cw = false) : CodeInv (withArray c) :=
  { h with sa_eq := fun _ hsa => ⟨Option.some.inj hsa ▸ h.arrayOf_eq, distinct⟩ }

theorem CodeInv.withTable (h : CodeInv c) : CodeInv (withTable c) := by
  unfold Machine.withTable
  split
  · exact h
  · exact
      { h with
        H_eq := fun _ hH => Option.some.inj hH ▸ h.parityOf_eq
        st_eq := fun _ hst => ⟨Option.some.inj hst ▸ h.tableOf_eq, rfl⟩ }

/-- A build keeps the invariant of the code: the built cache is the one its rule defines (R34). -/
theorem Builds.codeInv {i : Instr} {c' : Code} (hb : Builds i c c') (h : CodeInv c) : CodeInv c' := by
  cases hb
  case rdh | synd | contains => exact h.withParity
  case rdsa distinct => exact h.withArray distinct
  case decodeSa distinct => exact h.withArray distinct
  case rdst | decodeSt => exact h.withTable

end Caches

/-- What the checks of GLOAD have established is the invariant of the code it installs (R124). -/
theorem Loadable.codeInv {s : State} {n k d : Nat} {G : List (BitVec n)} (h : Loadable s n k G d) :
    CodeInv (newCode n k G (codewordList k G) d) :=
  ⟨h.k_pos, h.k_le_n, h.rows, h.nonzero, rfl, h.distance, rfl, rfl, nofun, nofun, nofun⟩

/-- The clauses of `StateInv` about an installed code. -/
structure CodeFits (p : Params) (c : Code) : Prop where
  inv : CodeInv c
  fits : c.n ≤ p.nMax
  standard : p.sfCheck = true → standardForm c.k c.G = true

theorem StateInv.codeFits {s : State} {c : Code} (h : StateInv s) (hc : s.code = some c) : CodeFits s.cfg c :=
  ⟨h.code_inv c hc, h.code_fits c hc, h.code_standard c hc⟩

theorem Builds.codeFits {i : Instr} {c c' : Code} {p : Params} (hb : Builds i c c') (h : CodeFits p c) :
    CodeFits p c' where
  inv := hb.codeInv h.inv
  fits := (congrArg Code.n hb.bare_eq).trans_le h.fits
  standard hp := (congrArg (fun c => standardForm c.k c.G) hb.bare_eq).trans (h.standard hp)

/-- Whatever a command does to the code, what it leaves installed fits. -/
theorem Effect.codeFits {i : Instr} {s t : State} (h : Effect s i t) (hs : StateInv s) {c : Code}
    (hc : t.code = some c) : CodeFits s.cfg c := by
  obtain hsame | ⟨c₀, c', hc₀, hc', hb⟩ | ⟨_, _, _, _, -, -, hload, hnew⟩ := h.code_cases
  · exact hs.codeFits (hsame.symm.trans hc)
  · obtain rfl := Option.some.inj (hc'.symm.trans hc)
    exact hb.codeFits (hs.codeFits hc₀)
  · obtain rfl := Option.some.inj (hnew.symm.trans hc)
    exact ⟨hload.codeInv, hload.n_le, hload.standard⟩

/-- Whatever a command does to the staging rows, their number stays and each fits N_MAX. -/
theorem Effect.staged_fits {i : Instr} {s t : State} (h : Effect s i t) (hs : StateInv s) :
    t.gs.length = s.cfg.nMax ∧ ∀ g, some g ∈ t.gs → g.len ≤ s.cfg.nMax := by
  obtain hsame | ⟨len, r, row, -, hlen, -, hset⟩ := h.gs_cases
  · exact hsame ▸ ⟨hs.staged_count, hs.staged_len⟩
  · refine hset ▸ ⟨by simpa using hs.staged_count, fun g hg => ?_⟩
    obtain hold | hnew := List.mem_or_eq_of_mem_set hg
    · exact hs.staged_len g hold
    · exact Option.some.inj hnew ▸ hlen

/-- A command keeps the invariant: none runs while the reset input is asserted, since the engine is idle then. -/
theorem Effect.stateInv {i : Instr} {s t : State} {c a b : Reg} (h : Effect s i t) (hs : StateInv s)
    (hbusy : s.eng = .busy c a b) : StateInv t := by
  have hfree : t.inReset ≠ true := fun hr => by simpa [hbusy] using (hs.held (h.inReset_eq.symm.trans hr)).eng
  obtain ⟨hcount, hlen⟩ := h.staged_fits hs
  have hcfg := h.cfg_eq
  exact
    { params := hcfg ▸ hs.params
      staged_count := hcfg ▸ hcount
      staged_len := hcfg ▸ hlen
      code_inv := fun _ hc => (h.codeFits hs hc).inv
      code_fits := fun _ hc => hcfg ▸ (h.codeFits hs hc).fits
      code_standard := fun _ hc => hcfg ▸ (h.codeFits hs hc).standard
      held := fun hr => absurd hr hfree }

/-- The invariant reads the storage alone. -/
theorem KeepsStorage.stateInv {s t : State} (h : KeepsStorage s t) (hs : StateInv s) : StateInv t := by
  obtain ⟨hcfg, hgs, hcode, hlevel, hheld⟩ := h
  constructor
  case held => exact fun hr => hheld (hlevel.symm.trans hr) (hs.held (hlevel.symm.trans hr))
  all_goals simp only [hcfg, hgs, hcode]
  · exact hs.params
  · exact hs.staged_count
  · exact hs.staged_len
  · exact hs.code_inv
  · exact hs.code_fits
  · exact hs.code_standard

/-- The reset state of an allowed block meets the invariant: no row is staged and no code is loaded. -/
theorem IsResetState.stateInv {s : State} (h : IsResetState s) (hp : s.cfg.Allowed) : StateInv s := by
  obtain ⟨hcount, hnone⟩ := h.gs
  have hcode := h.code
  refine ⟨hp, hcount, fun g hg => ?_, ?_, ?_, ?_, fun _ => h⟩
  · obtain ⟨r, hr, hget⟩ := List.mem_iff_getElem.mp hg
    have hempty := hnone r (hcount ▸ hr)
    simp [List.getElem?_eq_getElem hr, hget] at hempty
  all_goals simp [hcode]

/-- Settles O33: the reset state meets the invariant. -/
theorem resetMeetsTheInvariant : Obligations.ResetMeetsTheInvariant :=
  ⟨(isResetState_resetBlock State.reset).stateInv (by decide), rfl⟩

/-- Settles O34: a command's effect, a reset and a step that leaves the storage each keep the invariant. -/
theorem everyStepKeepsTheInvariant : Obligations.EveryStepKeepsTheInvariant := by
  intro s t hs hstep
  obtain ⟨-, _, _, _, _, hbusy, -, heffect⟩ | ⟨-, -, hreset, hcfg⟩ | hkeep := step_storage hstep
  · exact heffect.stateInv hs hbusy
  · exact hreset.stateInv (hcfg ▸ hs.params)
  · exact hkeep.stateInv hs

end Sys2Proof.Machine
end

section
/-! PROOFS. The caches are invisible in what a command reports (O14): `exec` reports the same at a state of the invariant
as at that state without its lazily built caches, since a valid cache is what its build rule gives. -/

namespace Sys2Proof.Machine

/-- What an outcome reports (R225): the error code, RES0 and RES1 of its next state, or its stop. -/
def reported : Host.Outcome State Fault Refusal → Host.Outcome (Option ErrorKind × Reg × Reg) Fault Refusal
  | .next t => .next (t.err, t.res0, t.res1)
  | .fault r => .fault r
  | .refused r => .refused r

theorem sameReport_of_reported {o : Host.Outcome State Fault Refusal} {t : State} (h : reported o = reported (.next t)) :
    ∃ t', o = .next t' ∧ sameReport t t' := by
  cases o with
  | next t' =>
    simp only [reported, Host.Outcome.next.injEq, Prod.mk.injEq] at h
    obtain ⟨herr, h₀, h₁⟩ := h
    exact ⟨t', rfl, herr.symm, h₀.symm, h₁.symm⟩
  | fault => cases h
  | refused => cases h

/-! ### The shared operations report the same -/

section Shared

variable {s : State}

theorem reported_withLatched {f g : Reg → Reg → Host.Outcome State Fault Refusal}
    (h : ∀ a b, reported (f a b) = reported (g a b)) :
    reported (withLatched s f) = reported (withLatched (bareState s) g) := by
  unfold withLatched bareState
  cases s.eng with
  | idle => rfl
  | busy c a b => exact h a b

theorem reported_withCode {f g : Code → Host.Outcome State Fault Refusal} (hs : ∀ c, s.code = some c → CodeInv c)
    (h : ∀ c, CodeInv c → reported (f c) = reported (g c.bare)) :
    reported (withCode s f) = reported (withCode (bareState s) g) := by
  cases hc : s.code with
  | none => simp [withCode, bareState, hc, reported, raise, finish]
  | some c =>
    have hbare : (bareState s).code = some c.bare := by simp [bareState, hc]
    rw [withCode_some hc, withCode_some hbare]
    exact h c (hs c hc)

theorem reported_withWord {role : Role} {v : Reg} {L : Nat} {f g : BitWord role L → Host.Outcome State Fault Refusal}
    (h : ∀ w, reported (f w) = reported (g w)) :
    reported (withWord role v L s f) = reported (withWord role v L (bareState s) g) := by
  unfold withWord bareState
  cases operand role s.cfg.nMax v L with
  | none => rfl
  | some w => exact h w

theorem reported_withLength {role : Role} {L required : Nat} {w : BitWord role L}
    {f g : BitWord role required → Host.Outcome State Fault Refusal} (h : ∀ w', reported (f w') = reported (g w')) :
    reported (withLength w required s f) = reported (withLength w required (bareState s) g) := by
  unfold withLength
  split
  · exact h _
  · rfl

theorem reported_withinRange {p : Bool} {k k' : Host.Outcome State Fault Refusal} (h : reported k = reported k') :
    reported (withinRange p s k) = reported (withinRange p (bareState s) k') := by
  cases p with
  | true => exact h
  | false => rfl

theorem reported_withEntry {α : Type} {entry : Option α} {f g : α → Host.Outcome State Fault Refusal}
    (h : ∀ x, reported (f x) = reported (g x)) : reported (withEntry entry f) = reported (withEntry entry g) := by
  cases entry with
  | none => rfl
  | some x => exact h x

theorem reported_dite {p : Prop} [Decidable p] {k k' : p → Host.Outcome State Fault Refusal}
    {l l' : ¬p → Host.Outcome State Fault Refusal} (hk : ∀ hp, reported (k hp) = reported (k' hp))
    (hl : ∀ hp, reported (l hp) = reported (l' hp)) : reported (dite p k l) = reported (dite p k' l') := by
  split
  · exact hk _
  · exact hl _

theorem reported_ite {p : Prop} [Decidable p] {k k' l l' : Host.Outcome State Fault Refusal}
    (hk : reported k = reported k') (hl : reported l = reported l') :
    reported (if p then k else l) = reported (if p then k' else l') := by
  split
  · exact hk
  · exact hl

theorem reported_withStandardArray {c : Code} {k k' : Host.Outcome State Fault Refusal} (h : reported k = reported k') :
    reported (withStandardArray c k) = reported (withStandardArray c.bare k') :=
  reported_ite rfl h

end Shared

/-! ### What a build gives, from a code and from the bare code -/

section Caches

variable {c : Code} (h : CodeInv c)
include h

theorem CodeInv.parityOf_bare : parityOf c = parityOf c.bare := h.parityOf_eq

theorem CodeInv.arrayOf_bare : arrayOf c = arrayOf c.bare := h.arrayOf_eq

theorem CodeInv.tableOf_bare : tableOf c = tableOf c.bare := h.tableOf_eq

theorem CodeInv.syndromeOf_bare (r : BitWord .code c.n) : syndromeOf c r = syndromeOf c.bare r :=
  congrArg (syndromeWord (c.n - c.k) · r) h.parityOf_bare

end Caches

/-! ### The commands that read the code -/

section Commands

variable {s : State} (hs : ∀ c, s.code = some c → CodeInv c)
include hs

theorem execEncode_reported (len : Nat) : reported (execEncode len s) = reported (execEncode len (bareState s)) :=
  reported_withLatched fun _ _ => reported_withCode hs fun _ _ => reported_withWord fun _ => reported_withLength fun _ =>
    rfl

theorem execProps_reported : reported (execProps s) = reported (execProps (bareState s)) :=
  reported_withLatched fun _ _ => reported_withCode hs fun _ _ => rfl

theorem execRdg_reported : reported (execRdg s) = reported (execRdg (bareState s)) :=
  reported_withLatched fun _ _ => reported_withCode hs fun _ _ => reported_withinRange (reported_withEntry fun _ => rfl)

theorem execRdcw_reported : reported (execRdcw s) = reported (execRdcw (bareState s)) :=
  reported_withLatched fun _ _ => reported_withCode hs fun _ _ => reported_withinRange (reported_withEntry fun _ => rfl)

theorem execRdh_reported : reported (execRdh s) = reported (execRdh (bareState s)) := by
  refine reported_withLatched fun _ _ => reported_withCode hs fun c hc => reported_withinRange ?_
  rw [hc.parityOf_bare]
  exact reported_withEntry fun _ => rfl

theorem execSynd_reported (len : Nat) : reported (execSynd len s) = reported (execSynd len (bareState s)) := by
  refine reported_withLatched fun _ _ => reported_withCode hs fun c hc => reported_withWord fun _ =>
    reported_withLength fun r => ?_
  rw [hc.syndromeOf_bare]
  rfl

theorem execContains_reported (len : Nat) :
    reported (execContains len s) = reported (execContains len (bareState s)) := by
  refine reported_withLatched fun _ _ => reported_withCode hs fun c hc => reported_withWord fun w => ?_
  refine reported_dite (fun _ => ?_) fun _ => rfl
  rw [hc.syndromeOf_bare]
  rfl

theorem execRdsa_reported : reported (execRdsa s) = reported (execRdsa (bareState s)) := by
  refine reported_withLatched fun _ _ => reported_withCode hs fun c hc => reported_withinRange
    (reported_withStandardArray ?_)
  rw [hc.arrayOf_bare]
  exact reported_withEntry fun _ => rfl

theorem execDecodeSa_reported (len : Nat) :
    reported (execDecodeSa len s) = reported (execDecodeSa len (bareState s)) := by
  refine reported_withLatched fun _ _ => reported_withCode hs fun c hc => reported_withWord fun _ =>
    reported_withLength fun r => reported_withStandardArray ?_
  rw [hc.arrayOf_bare]
  exact reported_withEntry fun _ => reported_ite rfl rfl

theorem execRdst_reported : reported (execRdst s) = reported (execRdst (bareState s)) := by
  refine reported_withLatched fun _ _ => reported_withCode hs fun c hc => reported_withinRange ?_
  rw [hc.tableOf_bare]
  exact reported_withEntry fun _ => rfl

theorem execDecodeSt_reported (len : Nat) :
    reported (execDecodeSt len s) = reported (execDecodeSt len (bareState s)) := by
  refine reported_withLatched fun _ _ => reported_withCode hs fun c hc => reported_withWord fun _ =>
    reported_withLength fun r => ?_
  have hlookup : tableLookup (tableOf c.bare) (syndromeOf c.bare r) = tableLookup (tableOf c) (syndromeOf c r) := by
    rw [hc.tableOf_bare, hc.syndromeOf_bare]
    rfl
  rw [hlookup]
  cases tableLookup (tableOf c) (syndromeOf c r) with
  | none => rfl
  | some e => exact reported_ite rfl rfl

end Commands

/-! ### The commands that do not read the code -/

section NoCode

variable (s : State)

theorem execNop_reported : reported (execNop s) = reported (execNop (bareState s)) :=
  reported_withLatched fun _ _ => rfl

theorem execGrow_reported (len : Nat) : reported (execGrow len s) = reported (execGrow len (bareState s)) :=
  reported_withLatched fun _ _ => reported_withWord fun _ => reported_withinRange rfl

@[simp] theorem bareState_gs (s : State) : (bareState s).gs = s.gs := rfl

theorem installCode_reported (n k : Nat) (G : List (BitVec n)) :
    reported (installCode n k G s) = reported (installCode n k G (bareState s)) := by
  refine reported_ite rfl (reported_ite rfl ?_)
  cases minDistance (codewordList k G) with
  | none => rfl
  | some d => rfl

theorem execGload_reported (len : Nat) : reported (execGload len s) = reported (execGload len (bareState s)) := by
  refine reported_withLatched fun a _ => reported_ite rfl (reported_ite rfl (reported_ite rfl ?_))
  rw [bareState_gs]
  cases stagedMatrix len (indexOperand a) s.gs with
  | none => rfl
  | some G => exact installCode_reported s len _ G

theorem execWeight_reported (len : Nat) : reported (execWeight len s) = reported (execWeight len (bareState s)) :=
  reported_withLatched fun _ _ => reported_withWord fun _ => rfl

theorem execHdist_reported (len : Nat) : reported (execHdist len s) = reported (execHdist len (bareState s)) :=
  reported_withLatched fun _ _ => reported_withWord fun _ => reported_withWord fun _ => rfl

end NoCode

/-- A command reports the same with and without the valid caches. -/
theorem exec_reported (i : Instr) {s : State} (hs : ∀ c, s.code = some c → CodeInv c) :
    reported (exec i s) = reported (exec i (bareState s)) :=
  match i with
  | .nop => execNop_reported s
  | .grow len => execGrow_reported s len
  | .gload len => execGload_reported s len
  | .encode len => execEncode_reported hs len
  | .synd len => execSynd_reported hs len
  | .contains len => execContains_reported hs len
  | .decodeSa len => execDecodeSa_reported hs len
  | .decodeSt len => execDecodeSt_reported hs len
  | .props => execProps_reported hs
  | .rdg => execRdg_reported hs
  | .rdh => execRdh_reported hs
  | .rdcw => execRdcw_reported hs
  | .rdsa => execRdsa_reported hs
  | .rdst => execRdst_reported hs
  | .weight len => execWeight_reported s len
  | .hdist len => execHdist_reported s len

/-- Settles O14: both states report what their common bare state reports. -/
theorem cachesNeverChangeAResult : Obligations.CachesNeverChangeAResult := by
  intro i s s' t hs hs' hsame hexec
  refine sameReport_of_reported ?_
  calc reported (exec i s')
    _ = reported (exec i (bareState s')) := exec_reported i hs'.code_inv
    _ = reported (exec i (bareState s)) := by rw [hsame]
    _ = reported (exec i s) := (exec_reported i hs.code_inv).symm
    _ = reported (.next t) := by rw [hexec]

end Sys2Proof.Machine
end

section
/-! PROOFS. The steps of R60: the host's admitted accesses and the window they reach (O27, O28), the submission of a
command (O7), the turn of the command in flight (O6), and that its turn comes (O15). -/

namespace Sys2Proof.Machine

/-! ### The admitted accesses and the window (R50, R52, R53, R57) -/

theorem not_admitted_iff {off : BitVec 8} {bytes : Nat} :
    ¬admitted off bytes = true ↔ bytes ≠ 4 ∨ off.toNat % 4 ≠ 0 := by
  rw [admitted_iff, Classical.not_and_iff_not_or_not]

theorem perform_read_busError {off : BitVec 8} {bytes : Nat} (h : bytes ≠ 4 ∨ off.toNat % 4 ≠ 0) (s : State) :
    perform (.read off bytes) s = .fault .busError := if_neg (not_admitted_iff.mpr h)

theorem perform_write_busError {off : BitVec 8} {bytes : Nat} (h : bytes ≠ 4 ∨ off.toNat % 4 ≠ 0) (v : Reg)
    (s : State) : perform (.write off bytes v) s = .fault .busError := if_neg (not_admitted_iff.mpr h)

/-- Settles O27: the step is `perform` of the access, which asks whether it is admitted before all else. -/
theorem onlyAlignedWordAccessesAreAdmitted : Obligations.OnlyAlignedWordAccessesAreAdmitted := by
  rintro s off bytes v rest hm (hi | hi) <;> refine ⟨?_, fun hbad => ?_⟩ <;> rw [step_input hm hi]
  · rintro ⟨rfl, ha⟩
    exact ⟨_, perform_write ha v _⟩
  · exact perform_write_busError hbad v _
  · rintro ⟨rfl, ha⟩
    exact ⟨_, perform_read ha _⟩
  · exact perform_read_busError hbad _

theorem windowOffset_outside {addr : Nat} (h : addr < Config.base ∨ Config.base + 256 ≤ addr) :
    windowOffset addr = none := if_neg (by omega)

/-- A byte lane is a digit of the register in base 256. -/
theorem byteLane_toNat (v : Reg) (i : Fin 4) : (byteLane v i).toNat = v.toNat / 2 ^ (8 * i.val) % 256 := by
  simp [byteLane, Nat.shiftRight_eq_div_pow]

/-- Settles O28: BASE is 256 times its block number, and the lanes are the register's four digits in base 256. -/
theorem windowIsTheBytesFromBase : Obligations.WindowIsTheBytesFromBase := by
  refine ⟨Nat.mul_mod_right 256 _, windowOffset_base, fun _ => windowOffset_outside, fun v => ?_⟩
  have hv := v.isLt
  simp only [byteLane_toNat, Fin.isValue, Fin.coe_ofNat_eq_mod, Nat.reduceMod, Nat.reduceMul, Nat.reducePow]
  omega

/-! ### Whose turn it is (R60) -/

theorem engineMoves_of_idle {s : State} (h : s.eng = .idle) : engineMoves s = false := by
  simp [engineMoves, busyFlag, h]

theorem engineMoves_of_delay {s : State} {op : Input} {rest : List Input} (hi : s.inputs = op :: rest)
    (hd : s.delay ≠ 0) : engineMoves s = false := by simp [engineMoves, hi, hd]

/-- A command in flight whose turn it is not waits for an input, and its delay is not used up. -/
theorem waits_for_input {s : State} {c a b : Reg} (hbusy : s.eng = .busy c a b) (hm : engineMoves s = false) :
    s.delay ≠ 0 ∧ ∃ op rest, s.inputs = op :: rest := by
  have hwait : ¬(s.delay = 0 ∨ s.inputs = []) := fun h =>
    Bool.eq_false_iff.mp hm (engineMoves_iff.mpr ⟨⟨c, a, b, hbusy⟩, h⟩)
  obtain ⟨hd, hi⟩ := not_or.mp hwait
  exact ⟨hd, List.exists_cons_of_ne_nil hi⟩

theorem step_complete {s : State} {c a b : Reg} (hbusy : s.eng = .busy c a b) (hm : engineMoves s = true) :
    step s = complete c s := by
  rw [step_engine hm, engineTurn, hbusy]

theorem complete_of_decode {c : Reg} {i : Instr} (h : decode c = .ok i) (s : State) : complete c s = exec i s := by
  rw [complete, h]

/-- Settles O6: `engineMoves` says whose turn it is, and either turn has its own equation. -/
theorem stepRunsTheDecodedCommand : Obligations.StepRunsTheDecodedCommand := by
  refine fun s c a b hbusy => ⟨fun i hdecode hturn => ?_, fun op rest hi hd => ?_⟩
  · have hm : engineMoves s = true := engineMoves_iff.mpr ⟨⟨c, a, b, hbusy⟩, hturn⟩
    rw [step_complete hbusy hm, complete_of_decode hdecode]
  · exact step_input (engineMoves_of_delay hi hd) hi

/-! ### Submission (R55, R56) -/

theorem step_submit {s : State} {v : Reg} {rest : List Input} (hm : engineMoves s = false) (hr : s.inReset = false)
    (hi : s.inputs = .write 0x0C 4 v :: rest) :
    step s = .next (submit v { s with inputs := rest, delay := s.delay - 1 }) := step_write hm hr rfl hi

/-- Settles O7: the step is `submit`, at an engine that is idle or busy. -/
theorem cmdWritesAreAcceptedOnlyWhenIdle : Obligations.CmdWritesAreAcceptedOnlyWhenIdle := by
  refine fun s v rest hr hi => ⟨fun hidle => ?_, fun c a b hbusy hd => ⟨s.delay - 1, ?_⟩⟩
  · refine ⟨Config.latency s.tick, s.tick + 1, ?_⟩
    rw [step_submit (engineMoves_of_idle hidle) hr hi, submit_idle]
    exact hidle
  · rw [step_submit (engineMoves_of_delay hi hd) hr hi, submit_busy]
    exact hbusy

/-! ### The command in flight gets its turn (R60, R267) -/

/-- The command in flight, the storage and the parameters stay. -/
structure KeepsFlight (s t : State) : Prop where
  eng : t.eng = s.eng
  code : t.code = s.code
  gs : t.gs = s.gs
  cfg : t.cfg = s.cfg

theorem KeepsFlight.refl (s : State) : KeepsFlight s s := ⟨rfl, rfl, rfl, rfl⟩

theorem KeepsFlight.trans {s t u : State} (h : KeepsFlight s t) (h' : KeepsFlight t u) : KeepsFlight s u :=
  ⟨h'.eng.trans h.eng, h'.code.trans h.code, h'.gs.trans h.gs, h'.cfg.trans h.cfg⟩

/-- A register write other than SRST while a command is in flight: a CMD write only sets OVERRUN. -/
theorem writeReg_keepsFlight {r : RegName} {v : Reg} {s : State} {c a b : Reg} (hbusy : s.eng = .busy c a b)
    (hq : ¬(r = .ctrl ∧ v.getLsbD 1 = true)) :
    KeepsFlight s (writeReg r v s) ∧ (writeReg r v s).delay = s.delay := by
  obtain h | h | h | ⟨-, h⟩ | ⟨-, -, h⟩ | ⟨hr, hv, -⟩ | ⟨-, h⟩ := writeReg_cases r v s
  case inr.inr.inr.inr.inr.inl => exact absurd ⟨hr, hv⟩ hq
  case inr.inr.inr.inr.inr.inr => rw [h, submit_busy hbusy]; exact ⟨⟨rfl, rfl, rfl, rfl⟩, rfl⟩
  all_goals rw [h]; exact ⟨⟨rfl, rfl, rfl, rfl⟩, rfl⟩

theorem hostWrite_inputs (r : RegName) (v : Reg) (s : State) : (hostWrite r v s).inputs = s.inputs := by
  cases hr : s.inReset with
  | true => rw [hostWrite_held hr]
  | false => rw [hostWrite_released hr, writeReg_inputs]

theorem hostWrite_keepsFlight {r : RegName} {v : Reg} {s : State} {c a b : Reg} (hbusy : s.eng = .busy c a b)
    (hq : ¬(r = .ctrl ∧ v.getLsbD 1 = true)) :
    KeepsFlight s (hostWrite r v s) ∧ (hostWrite r v s).delay = s.delay := by
  cases hr : s.inReset with
  | true =>
    rw [hostWrite_held hr]
    exact ⟨.refl s, rfl⟩
  | false =>
    rw [hostWrite_released hr]
    exact writeReg_keepsFlight hbusy hq

/-- A quiet input while a command is in flight answers a next state and leaves the command; at most a `wait` is put
back. -/
theorem perform_quiet {op : Input} {s : State} {c a b : Reg} (hbusy : s.eng = .busy c a b) (hq : quietInput op) :
    ∃ t, perform op s = .next t ∧ KeepsFlight s t ∧ t.delay = s.delay ∧ t.inputs ⊆ op :: s.inputs := by
  cases op with
  | read off bytes => exact ⟨_, if_pos hq, ⟨rfl, rfl, rfl, rfl⟩, rfl, List.subset_cons_self _ _⟩
  | write off bytes v =>
    obtain ⟨ha, hctrl⟩ := hq
    obtain ⟨hkeep, hdelay⟩ := hostWrite_keepsFlight hbusy hctrl
    refine ⟨_, if_pos ha, hkeep, hdelay, ?_⟩
    rw [hostWrite_inputs]
    exact List.subset_cons_self _ _
  | wait =>
    have hback : busyFlag s = true := busyFlag_iff.mpr ⟨c, a, b, hbusy⟩
    refine ⟨_, rfl, ⟨rfl, rfl, rfl, rfl⟩, rfl, ?_⟩
    rw [if_pos hback]
    exact List.Subset.refl _
  | assertReset => exact hq.elim
  | releaseReset => exact hq.elim

/-- The host's step before the turn of the command in flight uses up one of its delay and leaves it in flight. -/
theorem step_quiet {s : State} {c a b : Reg} (hbusy : s.eng = .busy c a b) (hm : engineMoves s = false)
    (hq : ∀ op ∈ s.inputs, quietInput op) :
    ∃ t, step s = .next t ∧ KeepsFlight s t ∧ t.delay < s.delay ∧ ∀ op ∈ t.inputs, quietInput op := by
  obtain ⟨hd, op, rest, hi⟩ := waits_for_input hbusy hm
  rw [hi] at hq
  obtain ⟨t, hperform, hkeep, hdelay, hsub⟩ :=
    perform_quiet (s := { s with inputs := rest, delay := s.delay - 1 }) hbusy (hq op List.mem_cons_self)
  obtain ⟨heng, hcode, hgs, hcfg⟩ := hkeep
  exact ⟨t, (step_input hm hi).trans hperform, ⟨heng, hcode, hgs, hcfg⟩, hdelay ▸ Nat.sub_one_lt hd,
    fun op hop => hq op (hsub hop)⟩

theorem run_succ_of_step {M : Host.Core} {s t : M.State} (h : M.step s = .next t) (n : Nat) :
    M.run (n + 1) s = M.run n t := by
  rw [Host.Core.run, h]

/-- Each host step makes the delay smaller, so the delay bounds the steps to the engine's turn. -/
theorem run_to_engineMoves {d : Nat} {s : State} {c a b : Reg} (hd : s.delay ≤ d) (hbusy : s.eng = .busy c a b)
    (hq : ∀ op ∈ s.inputs, quietInput op) :
    ∃ n ≤ d, ∃ t, Host.Core.run Sys2Proof.core n s = .next t ∧ engineMoves t = true ∧ KeepsFlight s t := by
  induction d generalizing s with
  | zero =>
    have hm : engineMoves s = true := engineMoves_iff.mpr ⟨⟨c, a, b, hbusy⟩, .inl (Nat.le_zero.mp hd)⟩
    exact ⟨0, le_rfl, s, rfl, hm, .refl s⟩
  | succ d ih =>
    cases hm : engineMoves s with
    | true => exact ⟨0, Nat.zero_le _, s, rfl, hm, .refl s⟩
    | false =>
      obtain ⟨t, hstep, hkeep, hlt, hqt⟩ := step_quiet hbusy hm hq
      obtain ⟨n, hn, u, hrun, hmu, hkeepu⟩ := ih (by omega) (hkeep.eng.trans hbusy) hqt
      have hsucc := run_succ_of_step (M := Sys2Proof.core) hstep n
      exact ⟨n + 1, Nat.succ_le_succ hn, u, hsucc.trans hrun, hmu, hkeep.trans hkeepu⟩

/-- Settles O15: the host's steps to the engine's turn keep the command, and that turn is its completion. -/
theorem acceptedCommandsReachTheirCompletion : Obligations.AcceptedCommandsReachTheirCompletion := by
  intro s c a b hbusy hq
  obtain ⟨n, hn, t, hrun, hm, hkeep⟩ := run_to_engineMoves le_rfl hbusy hq
  have heng := hkeep.eng.trans hbusy
  exact ⟨n, hn, t, hrun, heng, hm, hkeep.code, hkeep.gs, hkeep.cfg, step_complete heng hm⟩

end Sys2Proof.Machine
end

section
/-! PROOFS. The command word (R80 to R87): its fields as digits, decoder and encoder as inverses of each other (O1, O2),
the legality check and the outcome of an illegal word (O3), and the sample words (O4). -/

namespace Sys2Proof

/-! ### The fields of a word (R80) -/

theorem opcOf_toNat (c : Reg) : (opcOf c).toNat = c.toNat % 256 := by simp [opcOf]

theorem lenOf_eq (c : Reg) : lenOf c = c.toNat / 256 % 32 := by simp [lenOf, Nat.shiftRight_eq_div_pow]

theorem rsv0Of_toNat (c : Reg) : (rsv0Of c).toNat = c.toNat / 8192 % 8 := by
  simp [rsv0Of, Nat.shiftRight_eq_div_pow]

theorem stratOf_toNat (c : Reg) : (stratOf c).toNat = c.toNat / 65536 % 2 := by
  simp [stratOf, BitVec.getLsbD, Nat.toNat_testBit]

theorem rsv1Of_toNat (c : Reg) : (rsv1Of c).toNat = c.toNat / 131072 := by
  have hc := c.isLt
  simp only [rsv1Of, BitVec.extractLsb'_toNat, Nat.shiftRight_eq_div_pow]
  omega

theorem lenOf_le (c : Reg) : lenOf c ≤ 31 := by
  rw [lenOf_eq]
  omega

/-- The five fields are the whole word. -/
theorem reg_eq_of_fields {c c' : Reg} (hrsv1 : rsv1Of c = rsv1Of c') (hstrat : stratOf c = stratOf c')
    (hrsv0 : rsv0Of c = rsv0Of c') (hlen : lenOf c = lenOf c') (hopc : opcOf c = opcOf c') : c = c' := by
  replace hrsv1 := congrArg BitVec.toNat hrsv1
  replace hstrat := congrArg Bool.toNat hstrat
  replace hrsv0 := congrArg BitVec.toNat hrsv0
  replace hopc := congrArg BitVec.toNat hopc
  rw [rsv1Of_toNat, rsv1Of_toNat] at hrsv1
  rw [stratOf_toNat, stratOf_toNat] at hstrat
  rw [rsv0Of_toNat, rsv0Of_toNat] at hrsv0
  rw [lenOf_eq, lenOf_eq] at hlen
  rw [opcOf_toNat, opcOf_toNat] at hopc
  exact BitVec.eq_of_toNat_eq (by omega)

/-! ### The legality check (R84) -/

theorem usesLen_iff {opc : BitVec 8} :
    usesLen opc = true ↔ opc.toNat ∈ [0x01, 0x02, 0x03, 0x04, 0x05, 0x06, 0x0D, 0x0E] := by
  simp [usesLen, ← BitVec.toNat_inj, or_assoc]

/-- The clauses of `legal` on the fields. -/
theorem legal_iff {c : Reg} : legal c = true ↔ rsv1Of c = 0 ∧ rsv0Of c = 0 ∧ (opcOf c).toNat ≤ 0x0E ∧
    (stratOf c = false ∨ (opcOf c).toNat = 0x06) ∧ (lenOf c = 0 ∨ usesLen (opcOf c) = true) := by
  simp [legal, ← BitVec.toNat_inj, and_assoc]

/-- The clauses of `legal` on the digits of the word. -/
theorem legal_iff_digits {c : Reg} : legal c = true ↔
    c.toNat / 131072 = 0 ∧ c.toNat / 8192 % 8 = 0 ∧ c.toNat % 256 ≤ 0x0E ∧
      (c.toNat / 65536 % 2 = 0 ∨ c.toNat % 256 = 0x06) ∧
      (c.toNat / 256 % 32 = 0 ∨ c.toNat % 256 ∈ [0x01, 0x02, 0x03, 0x04, 0x05, 0x06, 0x0D, 0x0E]) := by
  rw [legal_iff, usesLen_iff, ← BitVec.toNat_inj, ← BitVec.toNat_inj, ← Bool.toNat_eq_zero, rsv1Of_toNat, rsv0Of_toNat,
    stratOf_toNat, lenOf_eq, opcOf_toNat]
  rfl

/-! ### The fields of a command's word -/

theorem legalEncoding : ∀ i : Instr, Laws.LegalEncoding.Statement i
  | .nop => Laws.LegalEncoding.nop
  | .grow len => Laws.LegalEncoding.grow len
  | .gload len => Laws.LegalEncoding.gload len
  | .encode len => Laws.LegalEncoding.encode len
  | .synd len => Laws.LegalEncoding.synd len
  | .contains len => Laws.LegalEncoding.contains len
  | .decodeSa len => Laws.LegalEncoding.decodeSa len
  | .decodeSt len => Laws.LegalEncoding.decodeSt len
  | .props => Laws.LegalEncoding.props
  | .rdg => Laws.LegalEncoding.rdg
  | .rdh => Laws.LegalEncoding.rdh
  | .rdcw => Laws.LegalEncoding.rdcw
  | .rdsa => Laws.LegalEncoding.rdsa
  | .rdst => Laws.LegalEncoding.rdst
  | .weight len => Laws.LegalEncoding.weight len
  | .hdist len => Laws.LegalEncoding.hdist len

theorem stratOf_encode (i : Instr) : stratOf (encode i) = (strategy i).getLsbD 0 := by
  simp only [stratOf, encode, BitVec.getLsbD_append]
  simp

/-- A command's word is its three fields at their places. -/
theorem encode_toNat {i : Instr} (h : i.WellFormed) :
    (encode i).toNat = (strategy i).toNat <<< 16 ||| i.len <<< 8 ||| (opcode i).toNat := by
  have hlen : i.len % 32 = i.len := Nat.mod_eq_of_lt (Nat.lt_succ_of_le h)
  simp only [encode, BitVec.toNat_append, BitVec.toNat_ofNat, Nat.reducePow, hlen]
  simp [Nat.shiftLeft_or_distrib, ← Nat.shiftLeft_add]

/-! ### The decoder and the encoder (R85) -/

theorem decodePlain_eq_ok {i j : Instr} {len : Nat} : decodePlain i len = .ok j ↔ len = 0 ∧ i = j := by
  unfold decodePlain
  split <;> simp [*]

theorem decodeOpcode_fields (i : Instr) : decodeOpcode (opcode i) ((strategy i).getLsbD 0) i.len = .ok i := by
  cases i <;> simp only [opcode, strategy] <;> rfl

/-- The row of R85 that matches has the word's OPC, STRAT and LEN. -/
theorem decodeOpcode_eq_ok {opc : BitVec 8} {strat : Bool} {len : Nat} {i : Instr} :
    decodeOpcode opc strat len = .ok i ↔ opcode i = opc ∧ (strategy i).getLsbD 0 = strat ∧ i.len = len := by
  refine ⟨fun h => ?_, ?_⟩
  · unfold decodeOpcode at h
    split at h
    case h_17 | h_18 => cases h
    all_goals rename_i hopc
    case h_1 | h_9 | h_10 | h_11 | h_12 | h_13 | h_14 =>
      obtain ⟨rfl, rfl⟩ := decodePlain_eq_ok.mp h
      exact ⟨BitVec.eq_of_toNat_eq hopc.symm, by simp [strategy], rfl⟩
    all_goals
      cases h
      exact ⟨BitVec.eq_of_toNat_eq hopc.symm, by simp [strategy], rfl⟩
  · rintro ⟨rfl, rfl, rfl⟩
    exact decodeOpcode_fields i

/-- Under the clauses of R84 a row of R85 matches. -/
theorem exists_decodeOpcode {opc : BitVec 8} {strat : Bool} {len : Nat} (hopc : opc.toNat ≤ 0x0E)
    (hstrat : strat = false ∨ opc.toNat = 0x06) (hlen : len = 0 ∨ usesLen opc = true) :
    ∃ i, decodeOpcode opc strat len = .ok i := by
  rw [usesLen_iff] at hlen
  unfold decodeOpcode
  split
  case h_1 | h_9 | h_10 | h_11 | h_12 | h_13 | h_14 =>
    rename_i hn
    exact ⟨_, decodePlain_eq_ok.mpr ⟨hlen.resolve_right (by simp [hn]), rfl⟩⟩
  case h_17 =>
    simp only [imp_false] at *
    omega
  case h_18 =>
    rename_i hne
    exact absurd (hstrat.resolve_left nofun) hne
  all_goals exact ⟨_, rfl⟩

/-- A word decodes to a command exactly if it is that command's word. -/
theorem decode_eq_ok {c : Reg} {i : Instr} : decode c = .ok i ↔ i.WellFormed ∧ encode i = c := by
  refine ⟨fun h => ?_, ?_⟩
  · unfold decode at h
    split at h
    case isFalse => cases h
    case isTrue hrsv =>
      obtain ⟨hopc, hstrat, hlen⟩ := decodeOpcode_eq_ok.mp h
      have hw : i.WellFormed := hlen.trans_le (lenOf_le c)
      obtain ⟨hlegal, hopc', hlen'⟩ := legalEncoding i hw
      obtain ⟨hrsv1, hrsv0, -⟩ := legal_iff.mp hlegal
      exact ⟨hw, reg_eq_of_fields (hrsv1.trans hrsv.1.symm) ((stratOf_encode i).trans hstrat)
        (hrsv0.trans hrsv.2.symm) (hlen'.trans hlen) (hopc'.trans hopc)⟩
  · rintro ⟨hw, rfl⟩
    obtain ⟨hlegal, hopc, hlen⟩ := legalEncoding i hw
    obtain ⟨hrsv1, hrsv0, -⟩ := legal_iff.mp hlegal
    rw [decode, if_pos ⟨hrsv1, hrsv0⟩, hopc, stratOf_encode, hlen, decodeOpcode_fields]

/-- The legal words are those that decode (R84). -/
theorem legal_iff_decodes {c : Reg} : legal c = true ↔ ∃ i, decode c = .ok i := by
  refine ⟨fun h => ?_, ?_⟩
  · obtain ⟨hrsv1, hrsv0, hopc, hstrat, hlen⟩ := legal_iff.mp h
    rw [decode, if_pos ⟨hrsv1, hrsv0⟩]
    exact exists_decodeOpcode hopc hstrat hlen
  · rintro ⟨i, hi⟩
    obtain ⟨hw, rfl⟩ := decode_eq_ok.mp hi
    exact (legalEncoding i hw).1

/-- Settles O1: the command's word is the one word that decodes to it. -/
theorem decodeOfEncodeIsTheCommand : Obligations.DecodeOfEncodeIsTheCommand := fun _ hw =>
  decode_eq_ok.mpr ⟨hw, rfl⟩

/-- Settles O2: the word's five fields are those of its command's word. -/
theorem encodeOfDecodeIsTheWord : Obligations.EncodeOfDecodeIsTheWord := fun _ _ => decode_eq_ok.mp

/-- Settles O4: closed facts of the decoder. -/
theorem sampleWordsDecodeAsTheTableSays : Obligations.SampleWordsDecodeAsTheTableSays := by
  unfold Obligations.SampleWordsDecodeAsTheTableSays
  decide

end Sys2Proof

namespace Sys2Proof.Machine

theorem complete_of_illegal {c : Reg} (h : legal c = false) (s : State) : complete c s = raise .illegalCommand s := by
  obtain ⟨i, hi, -⟩ | ⟨-, hraise⟩ := complete_cases c s
  · exact absurd (legal_iff_decodes.mpr ⟨i, hi⟩) (Bool.eq_false_iff.mp h)
  · exact hraise

/-- Settles O3: the legal words are those that decode, and the engine raises IllegalCommand for every other. -/
theorem legalWordsDecodeAndOthersAreIllegal : Obligations.LegalWordsDecodeAndOthersAreIllegal := by
  refine ⟨fun c => ⟨legal_iff_digits.symm, fun hlegal => ?_⟩, fun s c a b hbusy hillegal => ?_⟩
  · obtain ⟨i, hi⟩ := legal_iff_decodes.mp hlegal
    obtain ⟨hw, hword⟩ := decode_eq_ok.mp hi
    refine ⟨i, ⟨hw, hword, hi⟩, ?_⟩
    rintro j ⟨-, -, hj⟩
    exact Except.ok.inj (hj.symm.trans hi)
  · rw [engineTurn, hbusy]
    exact complete_of_illegal hillegal s

end Sys2Proof.Machine
end

section
/-! PROOFS. The host's statements: the expansion of a command statement as one list of writes (R90, O5), and the poll of
STATUS by a `wait` (R91, O16). -/

namespace Sys2Proof.Machine

/-! ### The parts of an expansion (R90) -/

theorem andThen_eq_some {x y : Option (List Input)} {ops : List Input} :
    andThen x y = some ops ↔ ∃ xs ys, x = some xs ∧ y = some ys ∧ xs ++ ys = ops := by
  cases x <;> cases y <;> simp [andThen]

@[simp] theorem andThen_some_nil (x : Option (List Input)) : andThen (some []) x = x := by cases x <;> rfl

theorem storeWord_eq_some {off : BitVec 8} {v : Nat} {ops : List Input} :
    storeWord off v = some ops ↔ v < 2 ^ 32 ∧ [.write off 4 (BitVec.ofNat 32 v)] = ops := by
  unfold storeWord
  split <;> simp only [*, true_and, false_and, Option.some.injEq, reduceCtorEq]

/-- The write of an operand register, where the statement gives it a value. -/
def storeOperand (off : BitVec 8) : Option Nat → Option (List Input)
  | none => some []
  | some v => storeWord off v

theorem storeOperand_eq_some {off : BitVec 8} {v : Option Nat} {ops : List Input} :
    storeOperand off v = some ops ↔
      (∀ n, v = some n → n < 2 ^ 32) ∧ v.toList.map (fun n => .write off 4 (BitVec.ofNat 32 n)) = ops := by
  cases v with
  | none => simp [storeOperand]
  | some n => simp [storeOperand, storeWord_eq_some]

/-- The write of a command's fields to CMD. -/
def storeInstr (i : Instr) : Option (List Input) :=
  storeCommand ((strategy i).toNat <<< 16) i.len (opcode i).toNat

/-- The CMD write of a well-formed command writes its word. -/
theorem storeInstr_eq_some {i : Instr} {ops : List Input} :
    storeInstr i = some ops ↔ i.WellFormed ∧ [.write 0x0C 4 (encode i)] = ops := by
  unfold storeInstr storeCommand
  split
  case isTrue hw =>
    have hlt := (encode i).isLt
    rw [← encode_toNat hw, storeWord_eq_some, BitVec.ofNat_toNat, BitVec.setWidth_eq]
    simp [hw, hlt]
  case isFalse hw => simp [hw]

/-! ### The expansion (R90) -/

/-- The words of an HDIST have one length (R90). -/
def WordsAgree (st : CmdStmt) : Prop := ∀ x y, st = .hdist x y → x.length = y.length

/-- The expansion is the OPA write, the OPB write and the CMD write, each where the statement has it. -/
theorem assembleCmd_of_wordsAgree {st : CmdStmt} (h : WordsAgree st) : assembleCmd st =
    andThen (storeOperand 0x10 (opaWritten st))
      (andThen (storeOperand 0x14 (opbWritten st)) (storeInstr (commandOf st))) := by
  cases st
  case' hdist x y => rw [assembleCmd, if_pos (h x y rfl)]
  all_goals simp [assembleCmd, opaWritten, opbWritten, storeOperand, commandOf, storeInstr, strategy, opcode, Instr.len]

theorem assembleCmd_wordsAgree {st : CmdStmt} {ops : List Input} (h : assembleCmd st = some ops) : WordsAgree st := by
  rintro x y rfl
  by_contra hne
  simp [assembleCmd, hne] at h

/-- Which statements are accepted, and what they expand to. -/
theorem assembleCmd_eq_some {st : CmdStmt} {ops : List Input} : assembleCmd st = some ops ↔
    ((commandOf st).WellFormed ∧ (∀ v, opaWritten st = some v → v < 2 ^ 32) ∧
      (∀ v, opbWritten st = some v → v < 2 ^ 32) ∧ WordsAgree st) ∧
    ops = (opaWritten st).toList.map (fun v => .write 0x10 4 (BitVec.ofNat 32 v)) ++
      (opbWritten st).toList.map (fun v => .write 0x14 4 (BitVec.ofNat 32 v)) ++
      [.write 0x0C 4 (encode (commandOf st))] := by
  refine ⟨fun h => ?_, ?_⟩
  · have hagree := assembleCmd_wordsAgree h
    rw [assembleCmd_of_wordsAgree hagree, andThen_eq_some] at h
    obtain ⟨as, bs, hopa, hrest, rfl⟩ := h
    obtain ⟨bs, cs, hopb, hcmd, rfl⟩ := andThen_eq_some.mp hrest
    obtain ⟨ha, rfl⟩ := storeOperand_eq_some.mp hopa
    obtain ⟨hb, rfl⟩ := storeOperand_eq_some.mp hopb
    obtain ⟨hw, rfl⟩ := storeInstr_eq_some.mp hcmd
    exact ⟨⟨hw, ha, hb, hagree⟩, (List.append_assoc ..).symm⟩
  · rintro ⟨⟨hw, ha, hb, hagree⟩, rfl⟩
    rw [assembleCmd_of_wordsAgree hagree, List.append_assoc]
    refine andThen_eq_some.mpr ⟨_, _, storeOperand_eq_some.mpr ⟨ha, rfl⟩, ?_, rfl⟩
    exact andThen_eq_some.mpr ⟨_, _, storeOperand_eq_some.mpr ⟨hb, rfl⟩, storeInstr_eq_some.mpr ⟨hw, rfl⟩, rfl⟩

/-- Settles O5: the word written to CMD is the command's, which decodes to it. -/
theorem commandStatementsSubmitTheirCommand : Obligations.CommandStatementsSubmitTheirCommand := by
  refine fun st => ⟨fun ops h => ?_, ?_⟩
  · obtain ⟨⟨hw, -⟩, hops⟩ := assembleCmd_eq_some.mp h
    exact ⟨encode (commandOf st), decode_eq_ok.mpr ⟨hw, rfl⟩, hops⟩
  · rw [Option.isSome_iff_exists]
    simp only [assembleCmd_eq_some, exists_and_left, exists_eq, and_true]
    rfl

/-! ### The poll of STATUS (R91) -/

/-- Settles O16: the step is the poll, and bit 0 of the value read is BUSY. -/
theorem waitStaysWhileBusyReadsOne : Obligations.WaitStaysWhileBusyReadsOne := by
  intro s rest hm hi
  obtain ⟨hbusy, -⟩ : (readReg s .status).getLsbD 0 = busyFlag s ∧ _ := statusWord_fields s
  refine ⟨⟨s.delay - 1, ?_⟩, hbusy⟩
  rw [hbusy]
  exact step_input hm hi

end Sys2Proof.Machine
end

section
/-! PROOFS. The word algebra of R104 (O36) and the hamming_distance_lut unit (O37, O38): weight as a count of a word's
bits, its laws under ⊕, and the rules of WEIGHT and HDIST. -/

namespace Sys2Proof.Machine

theorem bits_inj {role : Role} {L : Nat} {a b : BitWord role L} : a.bits = b.bits ↔ a = b :=
  (BitWord.mk.injEq ..).symm.to_iff

/-! ### Addition (R9) -/

section
variable {role : Role} {L : Nat} (a b c : BitWord role L)

theorem addWord_comm : addWord a b = addWord b a := congrArg BitWord.mk (BitVec.xor_comm ..)

theorem addWord_assoc : addWord (addWord a b) c = addWord a (addWord b c) :=
  congrArg BitWord.mk (BitVec.xor_assoc ..)

@[simp] theorem addWord_zeroWord : addWord a (zeroWord role L) = a := congrArg BitWord.mk BitVec.xor_zero

@[simp] theorem addWord_self : addWord a a = zeroWord role L := congrArg BitWord.mk BitVec.xor_self

end

/-! ### Weight and distance (R9) -/

theorem weight_eq_zero {L : Nat} {w : BitVec L} : weight w = 0 ↔ w = 0 := by
  simp only [weight, List.countP_eq_zero, List.mem_range, Bool.not_eq_true]
  refine ⟨fun h => BitVec.eq_of_getMsbD_eq fun i hi => ?_, ?_⟩
  · simp [h i hi]
  · rintro rfl
    simp

/-- At most the elements that satisfy one of two predicates satisfy exactly one. -/
theorem countP_xor_le {α : Type} (p q : α → Bool) (l : List α) :
    l.countP (fun x => p x ^^ q x) ≤ l.countP p + l.countP q := by
  induction l with
  | nil => simp
  | cons x l ih =>
    simp only [List.countP_cons]
    cases p x <;> cases q x <;> simp <;> omega

theorem weight_xor_le {L : Nat} (a b : BitVec L) : weight (a ^^^ b) ≤ weight a + weight b := by
  simpa [weight] using countP_xor_le a.getMsbD b.getMsbD (List.range L)

theorem distance_eq_zero {L : Nat} {a b : BitVec L} : distance a b = 0 ↔ a = b :=
  weight_eq_zero.trans BitVec.xor_eq_zero_iff

theorem distance_comm {L : Nat} (a b : BitVec L) : distance a b = distance b a :=
  congrArg weight (BitVec.xor_comm ..)

/-- The triangle inequality: the two differences on the right add up to the one on the left. -/
theorem distance_triangle {L : Nat} (a b c : BitVec L) : distance a c ≤ distance a b + distance b c := by
  have hsum : a ^^^ c = (a ^^^ b) ^^^ (b ^^^ c) := by
    rw [BitVec.xor_assoc, ← BitVec.xor_assoc b, BitVec.xor_self, BitVec.zero_xor]
  simpa only [distance, hsum] using weight_xor_le (a ^^^ b) (b ^^^ c)

/-- Settles O36: ⊕ is XOR, and the weight of a sum is at most the sum of the weights. -/
theorem wordAlgebraLaws : Obligations.WordAlgebraLaws := fun _ a b c =>
  ⟨addWord_comm a b, addWord_assoc a b c, addWord_zeroWord a, addWord_self a,
    weight_eq_zero.trans bits_inj, weight_le a.bits,
    distance_eq_zero.trans bits_inj, distance_comm a.bits b.bits,
    distance_triangle a.bits b.bits c.bits⟩

/-! ### The bits of a register (R100) -/

/-- The weight counted from bit 0 up: the positions run over the same bits backwards. -/
theorem weight_eq_countP_getLsbD {L : Nat} (w : BitVec L) : weight w = (List.range L).countP fun i => w.getLsbD i := by
  have hback : (List.range L).reverse = (List.range L).map (L - 1 - ·) := by
    simpa [List.range_eq_range'] using List.reverse_range' (s := 0) (n := L)
  rw [← List.countP_reverse, hback, List.countP_map, weight]
  refine List.countP_congr fun i hi => ?_
  simp [BitVec.getMsbD_eq_getLsbD, List.mem_range.mp hi]

theorem getLsbD_ofNat_toNat {L i : Nat} (v : Reg) (hi : i < L) :
    (BitVec.ofNat L v.toNat).getLsbD i = v.getLsbD i := by
  simp [hi]

theorem weight_ofNat_toNat (L : Nat) (v : Reg) :
    weight (BitVec.ofNat L v.toNat) = (List.range L).countP fun i => v.getLsbD i := by
  rw [weight_eq_countP_getLsbD]
  refine List.countP_congr fun i hi => ?_
  rw [getLsbD_ofNat_toNat v (List.mem_range.mp hi)]

theorem distance_ofNat_toNat (L : Nat) (a b : Reg) :
    distance (BitVec.ofNat L a.toNat) (BitVec.ofNat L b.toNat) =
      (List.range L).countP fun i => a.getLsbD i != b.getLsbD i := by
  rw [distance, weight_eq_countP_getLsbD]
  refine List.countP_congr fun i hmem => ?_
  have hi := List.mem_range.mp hmem
  rw [BitVec.getLsbD_xor, getLsbD_ofNat_toNat a hi, getLsbD_ofNat_toNat b hi, Bool.bne_eq_xor]

/-! ### The commands' words (R80, R85) -/

/-- The value of a command's word is the sum of its fields at their places. -/
theorem encode_toNat_sum {i : Instr} (h : i.WellFormed) :
    (encode i).toNat = (strategy i).toNat * 65536 + i.len * 256 + (opcode i).toNat := by
  have hlen : i.len % 32 = i.len := Nat.mod_eq_of_lt (Nat.lt_succ_of_le h)
  simp only [encode, toNat_append_add, BitVec.ofNat_eq_ofNat, BitVec.toNat_ofNat, Nat.reducePow, hlen]
  omega

/-- The word written as a number from the command's fields decodes to the command. -/
theorem decode_ofNat_fields {i : Instr} (h : i.WellFormed) :
    decode (BitVec.ofNat 32 ((strategy i).toNat * 65536 + i.len * 256 + (opcode i).toNat)) = .ok i := by
  rw [← encode_toNat_sum h, BitVec.ofNat_toNat, BitVec.setWidth_eq]
  exact decode_eq_ok.mpr ⟨h, rfl⟩

/-! ### WEIGHT and HDIST (R102, R103) -/

section
variable {s : State} {c a b : Reg} {L : Nat} (hbusy : s.eng = .busy c a b)
include hbusy

theorem execWeight_ok (hL : L ≤ s.cfg.nMax) (ha : a.toNat < 2 ^ L) :
    execWeight L s = succeed (setRes0 (BitVec.ofNat 32 (weight (BitVec.ofNat L a.toNat))) s) := by
  rw [execWeight, withLatched_busy hbusy, withWord_ok hL ha]

theorem execWeight_malformed (ha : Malformed s L a) : execWeight L s = raise .malformedInput s := by
  rw [execWeight, withLatched_busy hbusy, withWord_malformed ha]

theorem execHdist_ok (hL : L ≤ s.cfg.nMax) (ha : a.toNat < 2 ^ L) (hb : b.toNat < 2 ^ L) :
    execHdist L s = succeed
      (setRes0 (BitVec.ofNat 32 (distance (BitVec.ofNat L a.toNat) (BitVec.ofNat L b.toNat))) s) := by
  rw [execHdist, withLatched_busy hbusy, withWord_ok hL ha, withWord_ok hL hb]

/-- The OPA word is checked first, and a malformed OPB word is the same error. -/
theorem execHdist_malformed (h : Malformed s L a ∨ Malformed s L b) : execHdist L s = raise .malformedInput s := by
  rw [execHdist, withLatched_busy hbusy]
  by_cases ha : Malformed s L a
  · rw [withWord_malformed ha]
  · obtain ⟨hL, hv⟩ := not_or.mp ha
    rw [withWord_ok (not_lt.mp hL) (not_le.mp hv), withWord_malformed (h.resolve_left ha)]

end

/-- Settles O37: the weight is the count of the register's own bits. -/
theorem weightCountsOnes : Obligations.WeightCountsOnes := by
  refine ⟨fun s c a b L hbusy => ⟨fun hL ha => ?_, execWeight_malformed hbusy⟩, fun L hL => ?_⟩
  · rw [← weight_ofNat_toNat]
    exact execWeight_ok hbusy hL ha
  · simpa [strategy, opcode, Instr.len] using decode_ofNat_fields (i := .weight L) hL

/-- Settles O38: the distance is the count of the bits in which the two registers differ. -/
theorem hdistCountsDifferences : Obligations.HdistCountsDifferences := by
  refine ⟨fun s c a b L hbusy => ⟨fun hL ha hb => ?_, execHdist_malformed hbusy⟩, fun L hL => ?_⟩
  · rw [← distance_ofNat_toNat]
    exact execHdist_ok hbusy hL ha hb
  · simpa [strategy, opcode, Instr.len] using decode_ofNat_fields (i := .hdist L) hL

end Sys2Proof.Machine
end

section
/-! PROOFS. Encoding (R122, R123, O45), the codeword list and the minimum distance (R126, R127, O46): the bits of an
encoding as sums over GF(2), the membership and order of the list, and what `minDistance` finds in it. -/

namespace Sys2Proof.Machine

/-! ### Sums over GF(2) (R11) -/

theorem xorSum_succ (n : Nat) (f : Nat → Bool) : xorSum (n + 1) f = (xorSum n f ^^ f n) := by
  simp [xorSum, List.range_succ]

theorem xorSum_congr {n : Nat} {f g : Nat → Bool} (h : ∀ i < n, f i = g i) : xorSum n f = xorSum n g := by
  induction n with
  | zero => rfl
  | succ n ih => rw [xorSum_succ, xorSum_succ, ih fun i hi => h i (Nat.lt_succ_of_lt hi), h n (Nat.lt_succ_self n)]

@[simp] theorem xorSum_false (n : Nat) : xorSum n (fun _ => false) = false := by
  induction n with
  | zero => rfl
  | succ n ih => rw [xorSum_succ, ih, Bool.xor_false]

/-- The first term of a sum split off. -/
theorem xorSum_succ_left (n : Nat) (f : Nat → Bool) : xorSum (n + 1) f = (f 0 ^^ xorSum n fun i => f (i + 1)) := by
  induction n with
  | zero => simp [xorSum]
  | succ n ih => rw [xorSum_succ, ih, xorSum_succ, Bool.xor_assoc]

/-- Of a sum of terms that vanish but at `j` the term at `j` is left. -/
theorem xorSum_eq_single {n j : Nat} {f : Nat → Bool} (hj : j < n) (h : ∀ i < n, i ≠ j → f i = false) :
    xorSum n f = f j := by
  induction n with
  | zero => cases hj
  | succ n ih =>
    rw [xorSum_succ]
    obtain rfl | hlt := Nat.eq_or_lt_of_le (Nat.le_of_lt_succ hj)
    · rw [xorSum_congr fun i hi => h i (Nat.lt_succ_of_lt hi) (Nat.ne_of_lt hi), xorSum_false, Bool.false_xor]
    · rw [ih hlt fun i hi => h i (Nat.lt_succ_of_lt hi), h n (Nat.lt_succ_self n) (Nat.ne_of_gt hlt), Bool.xor_false]

/-! ### The entries of a matrix (R11) -/

section
variable {n : Nat}

@[simp] theorem matEntry_nil (r j : Nat) : matEntry ([] : List (BitVec n)) r j = false := rfl

@[simp] theorem matEntry_cons_zero (g : BitVec n) (G : List (BitVec n)) (j : Nat) :
    matEntry (g :: G) 0 j = g.getMsbD j := rfl

@[simp] theorem matEntry_cons_succ (g : BitVec n) (G : List (BitVec n)) (r j : Nat) :
    matEntry (g :: G) (r + 1) j = matEntry G r j := rfl

theorem matEntry_eq {G : List (BitVec n)} {r : Nat} {g : BitVec n} (h : G[r]? = some g) (j : Nat) :
    matEntry G r j = g.getMsbD j := by simp [matEntry, h]

theorem standardForm_iff {k : Nat} {G : List (BitVec n)} :
    standardForm k G = true ↔ ∀ r < k, ∀ j < k, matEntry G r j = decide (j = r) := by simp [standardForm]

theorem allZeroRows_iff {G : List (BitVec n)} : allZeroRows G = true ↔ ∀ g ∈ G, g = 0 := by simp [allZeroRows]

theorem allZeroRows_eq_false_iff {G : List (BitVec n)} : allZeroRows G = false ↔ ∃ g ∈ G, g ≠ 0 := by
  simp [allZeroRows]

end

/-! ### Encoding (R122, R123) -/

section
variable {n k : Nat}

/-- Past the last position of `u` no row is selected, so the sum may run to any bound from there on. -/
theorem getMsbD_combineRows (u : BitVec k) {r m : Nat} (hm : k ≤ r + m) (G : List (BitVec n)) (j : Nat) :
    (combineRows u r G).getMsbD j = xorSum m fun i => u.getMsbD (r + i) && matEntry G i j := by
  induction G generalizing r m with
  | nil => simp [combineRows]
  | cons g G ih =>
    have hg : (if u.getMsbD r then g else 0).getMsbD j = (u.getMsbD r && g.getMsbD j) := by
      cases u.getMsbD r <;> simp
    rw [combineRows, BitVec.getMsbD_xor, hg]
    cases m with
    | zero =>
      rw [ih (m := 0) (by omega), BitVec.getMsbD_of_ge _ _ (by omega)]
      rfl
    | succ m =>
      rw [ih (m := m) (by omega), xorSum_succ_left]
      simp [Nat.add_assoc, Nat.add_comm 1]

/-- Bit j of `enc(u)` as R122 defines it. -/
theorem getMsbD_encodeWord (G : List (BitVec n)) (u : BitWord .information k) (j : Nat) :
    (encodeWord G u).bits.getMsbD j = xorSum k fun r => u.bits.getMsbD r && matEntry G r j := by
  simpa [encodeWord, vecMul] using getMsbD_combineRows u.bits (r := 0) (m := k) (by omega) G j

@[simp] theorem encodeWord_zeroWord (G : List (BitVec n)) :
    encodeWord G (zeroWord .information k) = zeroWord .code n := by
  refine bits_inj.mp (BitVec.eq_of_getMsbD_eq fun j _ => ?_)
  rw [getMsbD_encodeWord]
  simp [zeroWord]

/-- The encoding of the unit word with its 1 at position r is row r. -/
theorem encodeWord_unit {G : List (BitVec n)} {r : Nat} {g : BitVec n} (hr : r < k) (hg : G[r]? = some g) :
    encodeWord G (⟨BitVec.twoPow k (k - 1 - r)⟩ : BitWord .information k) = ⟨g⟩ := by
  have hunit : ∀ i < k, (BitVec.twoPow k (k - 1 - r)).getMsbD i = decide (i = r) := by
    intro i hi
    rw [BitVec.getMsbD_twoPow, Bool.eq_iff_iff]
    simp
    omega
  refine bits_inj.mp (BitVec.eq_of_getMsbD_eq fun j _ => ?_)
  rw [getMsbD_encodeWord, xorSum_eq_single hr fun i hi hne => by simp [hunit i hi, hne]]
  simp [hunit r hr, matEntry_eq hg]

theorem getMsbD_leftBits {k : Nat} (hk : k ≤ n) (w : BitVec n) {j : Nat} (hj : j < k) :
    (leftBits k w).getMsbD j = w.getMsbD j := by
  have hplace : n - k + (k - 1 - j) = n - 1 - j := by omega
  have hplaces : k - 1 - j < k ∧ j < n := by omega
  rw [BitVec.getMsbD_eq_getLsbD, BitVec.getMsbD_eq_getLsbD, leftBits, BitVec.getLsbD_ofNat, Nat.testBit_shiftRight,
    hplace]
  simp [hplaces, hj, BitVec.getLsbD]

/-- The leftmost bits of a codeword are the information word (R123). -/
theorem leftBits_encodeWord {G : List (BitVec n)} (hk : k ≤ n) (hG : standardForm k G = true)
    (u : BitWord .information k) : leftBits k (encodeWord G u).bits = u.bits := by
  have hentry := standardForm_iff.mp hG
  refine BitVec.eq_of_getMsbD_eq fun j hj => ?_
  rw [getMsbD_leftBits hk _ hj, getMsbD_encodeWord,
    xorSum_eq_single hj fun i hi hne => by simp [hentry i hi j hj, hne.symm]]
  simp [hentry j hj j hj]

theorem encodeWord_injective {G : List (BitVec n)} (hk : k ≤ n) (hG : standardForm k G = true) :
    Function.Injective (encodeWord G : BitWord .information k → BitWord .code n) := fun u v huv => by
  rw [← bits_inj, ← leftBits_encodeWord hk hG, huv, leftBits_encodeWord hk hG]

end

/-- Settles O45: the leftmost bits give the information word back, and the zero word encodes to the zero word. -/
theorem encodingIsSystematic : Obligations.EncodingIsSystematic := by
  refine fun n k G hk _ hG =>
    ⟨leftBits_encodeWord hk hG, fun _ _ huv => encodeWord_injective hk hG huv, fun u hu => ?_⟩
  apply encodeWord_injective hk hG
  rw [encodeWord_zeroWord]
  exact bits_inj.mp (weight_eq_zero.mp hu)

/-! ### The codeword list (R126) -/

section
variable {n k : Nat} {G : List (BitVec n)}

theorem codewordList_perm (k : Nat) (G : List (BitVec n)) :
    (codewordList k G).Perm ((allWords .information k).map (encodeWord G)) := sortWords_perm _

@[simp] theorem length_codewordList (k : Nat) (G : List (BitVec n)) : (codewordList k G).length = 2 ^ k := by
  simp [(codewordList_perm k G).length_eq]

theorem mem_codewordList {c : BitWord .code n} :
    c ∈ codewordList k G ↔ ∃ u : BitWord .information k, encodeWord G u = c := by
  simp [(codewordList_perm k G).mem_iff]

theorem codewordList_pairwise (k : Nat) (G : List (BitVec n)) :
    (codewordList k G).Pairwise fun v w => precedes w.bits v.bits = false := sortWords_pairwise _

theorem zeroWord_mem_codewordList : zeroWord .code n ∈ codewordList k G :=
  mem_codewordList.mpr ⟨zeroWord .information k, encodeWord_zeroWord G⟩

/-- A row of the generator is a codeword. -/
theorem row_mem_codewordList (hG : G.length ≤ k) {g : BitVec n} (hg : g ∈ G) : ⟨g⟩ ∈ codewordList k G := by
  obtain ⟨r, hr, rfl⟩ := List.getElem_of_mem hg
  exact mem_codewordList.mpr ⟨_, encodeWord_unit (hr.trans_le hG) (List.getElem?_eq_getElem hr)⟩

theorem nodup_codewordList (hk : k ≤ n) (hG : standardForm k G = true) : (codewordList k G).Nodup :=
  (codewordList_perm k G).nodup_iff.mpr ((nodup_allWords .information k).map (encodeWord_injective hk hG))

theorem zero_precedes {w : BitVec n} (h : w ≠ 0) : precedes 0 w = true := by
  have hw : weight w ≠ 0 := mt weight_eq_zero.mp h
  have hz : weight (0 : BitVec n) = 0 := weight_eq_zero.mpr rfl
  rw [precedes_iff]
  omega

/-- The list starts with the zero word, which precedes every other. -/
theorem codewordList_head : (codewordList k G)[0]? = some (zeroWord .code n) := by
  have hmem : zeroWord .code n ∈ codewordList k G := zeroWord_mem_codewordList
  have hsorted := codewordList_pairwise k G
  cases hcw : codewordList k G with
  | nil => simp [hcw] at hmem
  | cons c cw =>
    rw [hcw] at hmem hsorted
    obtain heq | hrest := List.mem_cons.mp hmem
    · rw [heq]
      rfl
    · have hleast := List.rel_of_pairwise_cons hsorted hrest
      have hc : c.bits = 0 := by
        by_contra hne
        exact Bool.eq_false_iff.mp hleast (zero_precedes hne)
      exact congrArg some ((bits_inj (b := zeroWord .code n)).mp hc)

end

/-- Settles O46: the list is the sorted enumeration, and encoding in standard form repeats no word. -/
theorem codewordListIsSortedAndComplete : Obligations.CodewordListIsSortedAndComplete := by
  refine fun n k G => ⟨length_codewordList k G, ?_, codewordList_pairwise k G, fun hk _ hG =>
    ⟨codewordList_head, nodup_codewordList hk hG⟩⟩
  simpa [allWords, Function.comp_def] using codewordList_perm k G

/-! ### The minimum distance (R127) -/

section
variable {n k : Nat} {G : List (BitVec n)}

theorem minDistance_eq_find? (cw : List (BitWord .code n)) :
    minDistance cw = (cw.find? fun c => 0 < weight c.bits).map fun c => weight c.bits := by
  induction cw with
  | nil => rfl
  | cons c cw ih =>
    rw [minDistance, List.find?_cons, ih]
    by_cases h : 0 < weight c.bits <;> simp [h]

theorem weight_pos_iff {c : BitWord .code n} : 0 < weight c.bits ↔ c ≠ zeroWord .code n := by
  rw [Nat.pos_iff_ne_zero, ne_eq, weight_eq_zero.trans (bits_inj (b := zeroWord .code n))]

theorem minDistance_eq_none {cw : List (BitWord .code n)} :
    minDistance cw = none ↔ ∀ c ∈ cw, c = zeroWord .code n := by
  simp [minDistance_eq_find?, weight_pos_iff]

/-- In a list sorted by ≺ the first nonzero word is one of least weight. -/
theorem minDistance_eq_some {cw : List (BitWord .code n)} {d : Nat}
    (hsorted : cw.Pairwise fun v w => precedes w.bits v.bits = false) (hd : minDistance cw = some d) :
    1 ≤ d ∧ (∃ c ∈ cw, weight c.bits = d) ∧ ∀ c ∈ cw, c ≠ zeroWord .code n → d ≤ weight c.bits := by
  rw [minDistance_eq_find?, Option.map_eq_some_iff] at hd
  obtain ⟨b, hfind, rfl⟩ := hd
  obtain ⟨hpos, before, after, rfl, hbefore⟩ := List.find?_eq_some_iff_append.mp hfind
  obtain ⟨-, hsuffix, -⟩ := List.pairwise_append.mp hsorted
  refine ⟨of_decide_eq_true hpos, ⟨b, by simp, rfl⟩, fun c hc hne => ?_⟩
  rw [List.mem_append, List.mem_cons] at hc
  obtain hc | rfl | hc := hc
  · simpa [weight_pos_iff, hne] using hbefore c hc
  · exact le_rfl
  · have hnot := List.rel_of_pairwise_cons hsuffix hc
    rw [Bool.eq_false_iff, ne_eq, precedes_iff] at hnot
    omega

/-- A generator with a nonzero row has a minimum distance (R127). -/
theorem exists_minDistance (hG : G.length ≤ k) (hnz : ∃ g ∈ G, g ≠ 0) :
    ∃ d, minDistance (codewordList k G) = some d := by
  obtain ⟨g, hg, hne⟩ := hnz
  rw [← Option.ne_none_iff_exists', ne_eq, minDistance_eq_none]
  intro hzero
  exact hne (congrArg BitWord.bits (hzero ⟨g⟩ (row_mem_codewordList hG hg)))

/-- The minimum distance is the least weight of a nonzero codeword, and between 1 and n (R127). -/
theorem minDistance_codewordList {d : Nat} (hd : minDistance (codewordList k G) = some d) :
    1 ≤ d ∧ d ≤ n ∧ (∃ u : BitWord .information k, weight (encodeWord G u).bits = d) ∧
      ∀ u : BitWord .information k, encodeWord G u ≠ zeroWord .code n → d ≤ weight (encodeWord G u).bits := by
  obtain ⟨hpos, ⟨c, hc, rfl⟩, hleast⟩ := minDistance_eq_some (codewordList_pairwise k G) hd
  obtain ⟨u, rfl⟩ := mem_codewordList.mp hc
  exact ⟨hpos, weight_le _, ⟨u, rfl⟩, fun v => hleast _ (mem_codewordList.mpr ⟨v, rfl⟩)⟩

end
end Sys2Proof.Machine
end

section
/-! PROOFS. The linear_code_encoder unit (41_linear_code.md): GROW (O40), GLOAD (O41), PROPS (O42), RDG (O43), ENCODE
(O44) and RDCW (O47), each command's rule case by case. -/

namespace Sys2Proof.Machine

/-! ### The shared shape of the commands -/

theorem decode_eq_ok_of_wellFormed {w : Reg} {i : Instr} (h : i.WellFormed) : decode w = .ok i ↔ w = encode i := by
  rw [decode_eq_ok, and_iff_right h, eq_comm]

/-- Without a code a command that needs one reports NotLoaded before all else (R223, R224). -/
theorem withLatched_withCode_none {s : State} {c a b : Reg} (hbusy : s.eng = .busy c a b) (hcode : s.code = none)
    (f : Reg → Reg → Code → Host.Outcome State Fault Refusal) :
    (withLatched s fun a b => withCode s (f a b)) = raise .notLoaded s := by
  rw [withLatched_busy hbusy, withCode_none hcode]

theorem withinRange_of_lt {m n : Nat} (h : m < n) (s : State) (k : Host.Outcome State Fault Refusal) :
    withinRange (m < n) s k = k := by
  rw [decide_eq_true h, withinRange_true]

theorem withinRange_of_ge {m n : Nat} (h : n ≤ m) (s : State) (k : Host.Outcome State Fault Refusal) :
    withinRange (m < n) s k = raise .indexOutOfRange s := by
  rw [decide_eq_false (Nat.not_lt.mpr h), withinRange_false]

theorem withEntry_some {α : Type} {entry : Option α} {x : α} (h : entry = some x)
    (f : α → Host.Outcome State Fault Refusal) : withEntry entry f = f x := by
  rw [h, withEntry]

/-! ### GROW (R121) -/

section
variable {s : State} {c a b : Reg} {L : Nat} (hbusy : s.eng = .busy c a b)
include hbusy

theorem execGrow_ok (hL : L ≤ s.cfg.nMax) (ha : a.toNat < 2 ^ L) (hb : b.toNat < s.cfg.nMax) :
    execGrow L s = succeed (setStaged b.toNat ⟨L, BitVec.ofNat L a.toNat⟩ s) := by
  rw [execGrow, withLatched_busy hbusy, withWord_ok hL ha, indexOperand, withinRange_of_lt hb]

theorem execGrow_malformed (ha : Malformed s L a) : execGrow L s = raise .malformedInput s := by
  rw [execGrow, withLatched_busy hbusy, withWord_malformed ha]

theorem execGrow_outOfRange (hL : L ≤ s.cfg.nMax) (ha : a.toNat < 2 ^ L) (hb : s.cfg.nMax ≤ b.toNat) :
    execGrow L s = raise .indexOutOfRange s := by
  rw [execGrow, withLatched_busy hbusy, withWord_ok hL ha, indexOperand, withinRange_of_ge hb]

end

/-- Settles O40: the list of staging rows is set at the one index. -/
theorem growStagesOneRow : Obligations.GrowStagesOneRow := by
  refine ⟨fun s c a b L hbusy hgs => ⟨fun hL ha hb => ?_, execGrow_malformed hbusy, execGrow_outOfRange hbusy⟩,
    fun L hL => ?_⟩
  · refine ⟨s.gs.set b.toNat (some ⟨L, BitVec.ofNat L a.toNat⟩), execGrow_ok hbusy hL ha hb, ?_, ?_,
      fun r hr => ?_⟩
    · rw [List.length_set, hgs]
    · rw [List.getElem?_set_self (hgs ▸ hb)]
    · rw [List.getElem?_set_ne hr.symm]
  · simpa [strategy, opcode, Instr.len] using decode_ofNat_fields (i := .grow L) hL

/-! ### The staged matrix (R124) -/

section
variable {n k : Nat}

theorem stagedRow_eq_some {g : Option StagedRow} {row : BitVec n} :
    stagedRow n g = some row ↔ g = some ⟨n, row⟩ := by
  cases g with
  | none => simp [stagedRow]
  | some g =>
    obtain ⟨len, w⟩ := g
    by_cases hlen : len = n
    · subst hlen
      simp [stagedRow]
    · simp [stagedRow, hlen]

theorem stagedMatrix_succ_eq_some {g : Option StagedRow} {gs : List (Option StagedRow)} {G : List (BitVec n)} :
    stagedMatrix n (k + 1) (g :: gs) = some G ↔
      ∃ row rows, G = row :: rows ∧ g = some ⟨n, row⟩ ∧ stagedMatrix n k gs = some rows := by
  simp only [stagedMatrix, ← stagedRow_eq_some]
  cases stagedRow n g <;> cases stagedMatrix n k gs <;> simp [eq_comm]

/-- The staged matrix is the first k rows, where each of them is staged with n columns. -/
theorem stagedMatrix_eq_some {gs : List (Option StagedRow)} {G : List (BitVec n)} :
    stagedMatrix n k gs = some G ↔ G.length = k ∧ G.map (fun row => some ⟨n, row⟩) <+: gs := by
  induction k generalizing gs G with
  | zero => cases G <;> simp [stagedMatrix]
  | succ k ih =>
    cases gs with
    | nil => cases G <;> simp [stagedMatrix]
    | cons g gs =>
      rw [stagedMatrix_succ_eq_some]
      cases G with
      | nil => simp
      | cons row rows => simp [ih, List.cons_prefix_cons, eq_comm, and_left_comm]

theorem stagedMatrix_of_rows {gs : List (Option StagedRow)} {G : List (BitVec n)} (hlen : G.length = k)
    (hrows : ∀ r, (h : r < G.length) → gs[r]? = some (some ⟨n, G[r]⟩)) : stagedMatrix n k gs = some G :=
  stagedMatrix_eq_some.mpr
    ⟨hlen, List.prefix_iff_getElem?.mpr fun r hr => by simpa using hrows r (by simpa using hr)⟩

theorem stagedMatrix_eq_none {gs : List (Option StagedRow)}
    (h : ∃ r < k, ∀ row : BitVec n, gs[r]? ≠ some (some ⟨n, row⟩)) : stagedMatrix n k gs = none := by
  obtain ⟨r, hr, hmissing⟩ := h
  refine Option.eq_none_iff_forall_ne_some.mpr fun G hG => ?_
  obtain ⟨rfl, hprefix⟩ := stagedMatrix_eq_some.mp hG
  have hrow := List.prefix_iff_getElem?.mp hprefix r (by simpa using hr)
  exact hmissing G[r] (by simpa using hrow)

end

/-! ### GLOAD (R124) -/

section
variable {s : State} {n k : Nat} {G : List (BitVec n)}

theorem installCode_zero (hG : ∀ g ∈ G, g = 0) : installCode n k G s = raise .invalidCode s := by
  rw [installCode, if_pos (allZeroRows_iff.mpr hG)]

theorem installCode_notStandardForm (hG : ∃ g ∈ G, g ≠ 0) (hcheck : s.cfg.sfCheck = true)
    (hsf : standardForm k G = false) : installCode n k G s = raise .notStandardForm s := by
  simp [installCode, allZeroRows_eq_false_iff.mpr hG, hcheck, hsf]

theorem installCode_ok (hG : ∃ g ∈ G, g ≠ 0) (hsf : s.cfg.sfCheck = true → standardForm k G = true) {d : Nat}
    (hd : minDistance (codewordList k G) = some d) :
    installCode n k G s = succeed (setCode (newCode n k G (codewordList k G) d) s) := by
  have hcheck : ¬(s.cfg.sfCheck && !standardForm k G) = true := by simpa using hsf
  rw [installCode, allZeroRows_eq_false_iff.mpr hG, if_neg Bool.false_ne_true, if_neg hcheck, hd]

end

section
variable {s : State} {c a b : Reg} {n : Nat} (hbusy : s.eng = .busy c a b)
include hbusy

theorem execGload_tooLarge (h : s.cfg.nMax < n ∨ n < a.toNat) : execGload n s = raise .dimensionMismatch s := by
  rw [execGload, withLatched_busy hbusy]
  by_cases hn : s.cfg.nMax < n
  · rw [if_pos hn]
  · rw [if_neg hn, indexOperand, if_pos (h.resolve_left hn)]

theorem execGload_zeroRows (hn : n ≤ s.cfg.nMax) (hk : a.toNat = 0) : execGload n s = raise .invalidCode s := by
  rw [execGload, withLatched_busy hbusy, if_neg (by omega), indexOperand, if_neg (by omega), if_pos hk]

theorem execGload_unstaged (hn : n ≤ s.cfg.nMax) (hk : 1 ≤ a.toNat) (hkn : a.toNat ≤ n)
    (hG : stagedMatrix n a.toNat s.gs = none) : execGload n s = raise .dimensionMismatch s := by
  rw [execGload, withLatched_busy hbusy, if_neg (by omega), indexOperand, if_neg (by omega), if_neg (by omega), hG]

theorem execGload_staged (hn : n ≤ s.cfg.nMax) (hk : 1 ≤ a.toNat) (hkn : a.toNat ≤ n) {G : List (BitVec n)}
    (hG : stagedMatrix n a.toNat s.gs = some G) : execGload n s = installCode n a.toNat G s := by
  rw [execGload, withLatched_busy hbusy, if_neg (by omega), indexOperand, if_neg (by omega), if_neg (by omega), hG]

end

/-- Settles O41: each check of R124 in its place; past them the nonzero generator has a minimum distance. -/
theorem gloadInstallsTheStagedCodeOrRejects : Obligations.GloadInstallsTheStagedCodeOrRejects := by
  refine ⟨fun s c a b n hbusy => ⟨execGload_tooLarge hbusy, execGload_zeroRows hbusy, fun hn hk hkn hmissing => ?_,
    fun G hn hk hkn hlen hrows => ?_⟩, fun n hn => ?_⟩
  · exact execGload_unstaged hbusy hn hk hkn (stagedMatrix_eq_none hmissing)
  · have hinstall : exec (.gload n) s = installCode n a.toNat G s :=
      execGload_staged hbusy hn hk hkn (stagedMatrix_of_rows hlen hrows)
    rw [hinstall]
    refine ⟨installCode_zero, fun hnz hcheck hbad => installCode_notStandardForm hnz hcheck ?_, fun hnz hsf => ?_⟩
    · simpa [← Bool.not_eq_true, standardForm_iff] using hbad
    · obtain ⟨d, hd⟩ := exists_minDistance hlen.le hnz
      have hstandard : s.cfg.sfCheck = true → standardForm a.toNat G = true := fun hcheck =>
        standardForm_iff.mpr (hsf hcheck)
      exact ⟨d, installCode_ok hnz hstandard hd, minDistance_codewordList hd⟩
  · simpa [strategy, opcode, Instr.len] using decode_ofNat_fields (i := .gload n) hn

/-! ### The commands that read the installed code (R128 to R131) -/

section
variable {s : State} {c a b : Reg} {code : Code} (hbusy : s.eng = .busy c a b) (hcode : s.code = some code)
include hbusy hcode

theorem execProps_ok : execProps s = succeed
    (setRes1 ((0 : BitVec 16) ++ BitVec.ofNat 8 code.cor ++ BitVec.ofNat 8 code.det)
      (setRes0 ((0 : BitVec 8) ++ BitVec.ofNat 8 code.d ++ BitVec.ofNat 8 code.k ++ BitVec.ofNat 8 code.n) s)) := by
  rw [execProps, withLatched_busy hbusy, withCode_some hcode]

theorem execRdg_ok {row : BitVec code.n} (ha : a.toNat < code.k) (hrow : code.G[a.toNat]? = some row) :
    execRdg s = succeed (setRes0 (toReg row) s) := by
  rw [execRdg, withLatched_busy hbusy, withCode_some hcode, indexOperand, withinRange_of_lt ha, withEntry_some hrow]

theorem execRdg_outOfRange (ha : code.k ≤ a.toNat) : execRdg s = raise .indexOutOfRange s := by
  rw [execRdg, withLatched_busy hbusy, withCode_some hcode, indexOperand, withinRange_of_ge ha]

theorem execRdcw_ok {w : BitWord .code code.n} (ha : a.toNat < 2 ^ code.k) (hw : code.cw[a.toNat]? = some w) :
    execRdcw s = succeed (setRes0 (toReg w.bits) s) := by
  rw [execRdcw, withLatched_busy hbusy, withCode_some hcode, indexOperand, withinRange_of_lt ha, withEntry_some hw]

theorem execRdcw_outOfRange (ha : 2 ^ code.k ≤ a.toNat) : execRdcw s = raise .indexOutOfRange s := by
  rw [execRdcw, withLatched_busy hbusy, withCode_some hcode, indexOperand, withinRange_of_ge ha]

theorem execEncode_ok (hL : code.k ≤ s.cfg.nMax) (ha : a.toNat < 2 ^ code.k) :
    execEncode code.k s = succeed (setRes0
      (toReg (encodeWord code.G (⟨BitVec.ofNat code.k a.toNat⟩ : BitWord .information code.k)).bits) s) := by
  rw [execEncode, withLatched_busy hbusy, withCode_some hcode, withWord_ok hL ha, withLength_self]

theorem execEncode_malformed {L : Nat} (ha : Malformed s L a) : execEncode L s = raise .malformedInput s := by
  rw [execEncode, withLatched_busy hbusy, withCode_some hcode, withWord_malformed ha]

theorem execEncode_otherLength {L : Nat} (hL : L ≤ s.cfg.nMax) (ha : a.toNat < 2 ^ L) (hk : L ≠ code.k) :
    execEncode L s = raise .dimensionMismatch s := by
  rw [execEncode, withLatched_busy hbusy, withCode_some hcode, withWord_ok hL ha, withLength_ne _ _ hk]

end

/-- Settles O42: the fields are the digits of the two registers in base 256. -/
theorem propsPacksTheProperties : Obligations.PropsPacksTheProperties := by
  refine ⟨fun s c a b code hbusy hcode => ⟨_, _, execProps_ok hbusy hcode, ?_, ?_⟩,
    fun s c a b hbusy hcode => withLatched_withCode_none hbusy hcode _,
    fun w => decode_eq_ok_of_wellFormed (Nat.zero_le _)⟩
  · simp only [setRes0_res0, toNat_append_add, BitVec.ofNat_eq_ofNat, BitVec.toNat_ofNat]
    omega
  · simp only [toNat_append_add, BitVec.ofNat_eq_ofNat, BitVec.toNat_ofNat]
    omega

/-- Settles O43: a generator of k rows has the row. -/
theorem rdgReadsTheInstalledRow : Obligations.RdgReadsTheInstalledRow := by
  refine ⟨fun s c a b code hbusy hcode hinv => ⟨fun ha => ?_, execRdg_outOfRange hbusy hcode⟩,
    fun s c a b hbusy hcode => withLatched_withCode_none hbusy hcode _,
    fun w => decode_eq_ok_of_wellFormed (Nat.zero_le _)⟩
  have hrow := List.getElem?_eq_getElem (l := code.G) (i := a.toNat) (by rwa [hinv.rows])
  exact ⟨_, hrow, execRdg_ok hbusy hcode ha hrow⟩

/-- Settles O47: the list of the invariant is that of the generator, and has 2^k entries. -/
theorem rdcwReadsTheSortedList : Obligations.RdcwReadsTheSortedList := by
  refine ⟨fun s c a b code hbusy hcode hinv => ⟨fun ha => ?_, execRdcw_outOfRange hbusy hcode⟩,
    fun s c a b hbusy hcode => withLatched_withCode_none hbusy hcode _,
    fun w => decode_eq_ok_of_wellFormed (Nat.zero_le _)⟩
  have hw := List.getElem?_eq_getElem (l := codewordList code.k code.G) (i := a.toNat) (by rwa [length_codewordList])
  exact ⟨_, hw, execRdcw_ok hbusy hcode ha (by rw [hinv.cw_eq, hw])⟩

/-- Settles O44: the codeword's bits are those of `getMsbD_encodeWord`. -/
theorem encodeMultipliesByTheGenerator : Obligations.EncodeMultipliesByTheGenerator := by
  refine ⟨fun s c a b code L hbusy hcode =>
      ⟨?_, execEncode_malformed hbusy hcode, execEncode_otherLength hbusy hcode⟩,
    fun s c a b L hbusy hcode => withLatched_withCode_none hbusy hcode _, fun L hL => ?_⟩
  · rintro hL ha rfl
    exact ⟨_, execEncode_ok hbusy hcode hL ha, fun j _ => getMsbD_encodeWord code.G _ j⟩
  · simpa [strategy, opcode, Instr.len] using decode_ofNat_fields (i := .encode L) hL

end Sys2Proof.Machine
end

section
/-! PROOFS. The keys of the syndrome table (R190): they are distinct, and the syndrome of every word is among them. -/

namespace Sys2Proof.Machine

section
variable {n m : Nat}

theorem tableLookup_isSome {st : List (BitWord .syndrome m × BitWord .code n)} {v : BitWord .syndrome m} :
    (tableLookup st v).isSome = true ↔ v ∈ st.map Prod.fst := by
  induction st with
  | nil => simp [tableLookup]
  | cons entry st ih =>
    obtain ⟨t, x⟩ := entry
    rw [tableLookup, List.map_cons, List.mem_cons, ← ih]
    by_cases h : t = v
    · simp [h]
    · simp [h, Ne.symm h]

variable {H : List (BitVec n)} {rows : Nat}

/-- The loop only adds entries. -/
theorem prefix_fillTable (ws : List (BitWord .code n)) (st : List (BitWord .syndrome m × BitWord .code n)) :
    st <+: fillTable H rows ws st := by
  fun_induction fillTable H rows ws st with
  | case1 | case2 => exact List.prefix_rfl
  | case3 _ _ _ _ _ ih => exact ih
  | case4 _ _ _ _ _ ih => exact (List.prefix_append _ _).trans ih

/-- A word enters under a new key alone. -/
theorem nodup_keys_fillTable (ws : List (BitWord .code n)) (st : List (BitWord .syndrome m × BitWord .code n))
    (h : (st.map Prod.fst).Nodup) : ((fillTable H rows ws st).map Prod.fst).Nodup := by
  fun_induction fillTable H rows ws st with
  | case1 | case2 => exact h
  | case3 _ _ _ _ _ ih => exact ih h
  | case4 x _ st _ hnew ih =>
    rw [tableLookup_isSome] at hnew
    rw [List.map_append, List.map_singleton, ← List.concat_eq_append] at ih
    exact ih (h.concat hnew)

/-- Unless the table is full, the loop leaves a key for every word it scans. -/
theorem key_mem_fillTable (ws : List (BitWord .code n)) (st : List (BitWord .syndrome m × BitWord .code n))
    (hfree : (fillTable H rows ws st).length ≠ rows) :
    ∀ x ∈ ws, syndromeWord m H x ∈ (fillTable H rows ws st).map Prod.fst := by
  fun_induction fillTable H rows ws st with
  | case1 => exact nofun
  | case2 _ _ _ hfull => exact absurd hfull hfree
  | case3 x rest st _ hold ih =>
    refine List.forall_mem_cons.mpr ⟨?_, ih hfree⟩
    exact ((prefix_fillTable rest st).map Prod.fst).subset (tableLookup_isSome.mp hold)
  | case4 x rest st _ _ ih =>
    refine List.forall_mem_cons.mpr ⟨?_, ih hfree⟩
    exact ((prefix_fillTable rest _).map Prod.fst).subset (by simp)

/-- As many distinct words as there are words of the length are all of them. -/
theorem mem_of_nodup_of_length {role : Role} {L : Nat} {ws : List (BitWord role L)} (hnodup : ws.Nodup)
    (hlen : ws.length = 2 ^ L) (w : BitWord role L) : w ∈ ws := by
  have hsub : ws.Subperm (allWords role L) := hnodup.subperm fun v _ => mem_allWords v
  exact (hsub.perm_of_length_le (by rw [length_allWords, hlen])).mem_iff.mpr (mem_allWords w)

/-- The table has an entry for the syndrome of every word: the scan has met the word, or every syndrome is a key. -/
theorem tableLookup_syndromeTable_isSome (m : Nat) (H : List (BitVec n)) (x : BitWord .code n) :
    (tableLookup (syndromeTable m H) (syndromeWord m H x)).isSome = true := by
  rw [tableLookup_isSome]
  by_cases hfull : (syndromeTable m H).length = 2 ^ m
  · have hnodup : ((syndromeTable m H).map Prod.fst).Nodup := nodup_keys_fillTable _ [] List.nodup_nil
    exact mem_of_nodup_of_length hnodup (by rw [List.length_map, hfull]) _
  · exact key_mem_fillTable _ [] hfull x (mem_scanWords x)

end

theorem CodeInv.tableLookup_isSome {c : Code} (h : CodeInv c) (r : BitWord .code c.n) :
    (tableLookup (tableOf c) (syndromeOf c r)).isSome = true := by
  rw [syndromeOf, h.tableOf_eq, h.parityOf_eq]
  exact tableLookup_syndromeTable_isSome _ _ r

end Sys2Proof.Machine
end

section
/-! PROOFS. The errors each command can report in a state of the invariant, from which the two defensive ones are absent
(R127, R192, O19). -/

namespace Sys2Proof.Machine

/-- The errors a command's rule lists under Exceptions, without the two that stand there as defensive only. -/
def errorsOf : Instr → List ErrorKind
  | .nop => []
  | .grow _ => [.malformedInput, .indexOutOfRange]
  | .gload _ => [.dimensionMismatch, .invalidCode, .notStandardForm]
  | .contains _ => [.notLoaded, .malformedInput]
  | .encode _ | .synd _ => [.notLoaded, .malformedInput, .dimensionMismatch]
  | .decodeSa _ | .decodeSt _ => [.notLoaded, .malformedInput, .dimensionMismatch, .uncorrectableError]
  | .props => [.notLoaded]
  | .rdg | .rdh | .rdcw | .rdsa | .rdst => [.notLoaded, .indexOutOfRange]
  | .weight _ | .hdist _ => [.malformedInput]

/-- An outcome that answers a next state reports OK there or one of the errors of the list. -/
def Reports (es : List ErrorKind) (o : Host.Outcome State Fault Refusal) : Prop :=
  ∀ t, o = .next t → ∀ e, t.err = some e → e ∈ es

section Shared

variable {es : List ErrorKind} {s : State}

theorem reports_succeed {s : State} : Reports es (succeed s) := by
  intro t ht e he
  obtain rfl := succeed_eq_next.mp ht
  cases he

theorem reports_raise {e : ErrorKind} {s : State} (he : e ∈ es := by simp [errorsOf]) : Reports es (raise e s) := by
  intro t ht e' he'
  obtain rfl := raise_eq_next.mp ht
  exact Option.some.inj he' ▸ he

theorem reports_fault (r : Fault) : Reports es (.fault r) := fun _ h => by cases h

theorem reports_refused (r : Refusal) : Reports es (.refused r) := fun _ h => by cases h

theorem reports_withLatched {f : Reg → Reg → Host.Outcome State Fault Refusal} (hf : ∀ a b, Reports es (f a b)) :
    Reports es (withLatched s f) := by
  unfold withLatched
  split
  · exact hf _ _
  · exact reports_fault _

theorem reports_withCode {f : Code → Host.Outcome State Fault Refusal}
    (hf : ∀ c, s.code = some c → Reports es (f c)) (he : .notLoaded ∈ es := by simp [errorsOf]) :
    Reports es (withCode s f) := by
  unfold withCode
  split
  · exact hf _ ‹_›
  · exact reports_raise he

theorem reports_withWord {role : Role} {v : Reg} {L : Nat} {f : BitWord role L → Host.Outcome State Fault Refusal}
    (hf : ∀ w, Reports es (f w)) (he : .malformedInput ∈ es := by simp [errorsOf]) :
    Reports es (withWord role v L s f) := by
  unfold withWord
  split
  · exact hf _
  · exact reports_raise he

theorem reports_withLength {role : Role} {L required : Nat} {w : BitWord role L}
    {f : BitWord role required → Host.Outcome State Fault Refusal} (hf : ∀ w', Reports es (f w'))
    (he : .dimensionMismatch ∈ es := by simp [errorsOf]) : Reports es (withLength w required s f) := by
  unfold withLength
  split
  · exact hf _
  · exact reports_raise he

theorem reports_withinRange {p : Bool} {k : Host.Outcome State Fault Refusal} (hk : Reports es k)
    (he : .indexOutOfRange ∈ es := by simp [errorsOf]) : Reports es (withinRange p s k) := by
  unfold withinRange
  split
  · exact hk
  · exact reports_raise he

theorem reports_withEntry {α : Type} {entry : Option α} {f : α → Host.Outcome State Fault Refusal}
    (hf : ∀ x, Reports es (f x)) : Reports es (withEntry entry f) := by
  unfold withEntry
  split
  · exact hf _
  · exact reports_fault _

theorem reports_withStandardArray {c : Code} {k : Host.Outcome State Fault Refusal} (hk : Reports es k) :
    Reports es (withStandardArray c k) := by
  unfold withStandardArray
  split
  · exact reports_refused _
  · exact hk

end Shared

/-- The minimum distance of the staged generator exists, so its derivation does not fail (R127). -/
theorem installCode_reports {n k : Nat} {G : List (BitVec n)} {s : State} (hG : G.length = k) :
    Reports (errorsOf (.gload n)) (installCode n k G s) := by
  unfold installCode
  split
  · exact reports_raise
  · rename_i hnz
    split
    · exact reports_raise
    · obtain ⟨d, hd⟩ := exists_minDistance hG.le (allZeroRows_eq_false_iff.mp (Bool.eq_false_iff.mpr hnz))
      rw [hd]
      exact reports_succeed

theorem execGload_reports (len : Nat) (s : State) : Reports (errorsOf (.gload len)) (execGload len s) := by
  refine reports_withLatched fun a _ => ?_
  split
  · exact reports_raise
  · split
    · exact reports_raise
    · split
      · exact reports_raise
      · split
        · exact reports_raise
        · rename_i hG
          exact installCode_reports (length_stagedMatrix hG)

/-- The table of the invariant has the syndrome's entry, so the lookup does not fail (R192). -/
theorem execDecodeSt_reports {s : State} (hs : ∀ c, s.code = some c → CodeInv c) (len : Nat) :
    Reports (errorsOf (.decodeSt len)) (execDecodeSt len s) := by
  refine reports_withLatched fun _ _ => reports_withCode fun c hc => reports_withWord fun _ =>
    reports_withLength fun r => ?_
  obtain ⟨e, he⟩ := Option.isSome_iff_exists.mp ((hs c hc).tableLookup_isSome r)
  rw [he]
  dsimp only
  split
  · exact reports_raise
  · exact reports_succeed

/-- In a state of the invariant a command reports OK or an error of its list. -/
theorem exec_reports {s : State} (hs : ∀ c, s.code = some c → CodeInv c) (i : Instr) :
    Reports (errorsOf i) (exec i s) := by
  cases i with
  | nop => exact reports_withLatched fun _ _ => reports_succeed
  | grow len => exact reports_withLatched fun _ _ => reports_withWord fun _ => reports_withinRange reports_succeed
  | gload len => exact execGload_reports len s
  | encode len =>
    exact reports_withLatched fun _ _ => reports_withCode fun _ _ => reports_withWord fun _ =>
      reports_withLength fun _ => reports_succeed
  | synd len =>
    exact reports_withLatched fun _ _ => reports_withCode fun _ _ => reports_withWord fun _ =>
      reports_withLength fun _ => reports_succeed
  | contains len =>
    refine reports_withLatched fun _ _ => reports_withCode fun _ _ => reports_withWord fun _ => ?_
    split <;> exact reports_succeed
  | decodeSa len =>
    refine reports_withLatched fun _ _ => reports_withCode fun _ _ => reports_withWord fun _ =>
      reports_withLength fun _ => reports_withStandardArray (reports_withEntry fun _ => ?_)
    split
    · exact reports_raise
    · exact reports_succeed
  | decodeSt len => exact execDecodeSt_reports hs len
  | props => exact reports_withLatched fun _ _ => reports_withCode fun _ _ => reports_succeed
  | rdg | rdh | rdcw | rdst =>
    exact reports_withLatched fun _ _ => reports_withCode fun _ _ => reports_withinRange
      (reports_withEntry fun _ => reports_succeed)
  | rdsa =>
    exact reports_withLatched fun _ _ => reports_withCode fun _ _ => reports_withinRange
      (reports_withStandardArray (reports_withEntry fun _ => reports_succeed))
  | weight len => exact reports_withLatched fun _ _ => reports_withWord fun _ => reports_succeed
  | hdist len =>
    exact reports_withLatched fun _ _ => reports_withWord fun _ => reports_withWord fun _ => reports_succeed

/-- Settles O19: neither error is in a command's list. -/
theorem defensiveErrorsAreUnreachable : Obligations.DefensiveErrorsAreUnreachable := by
  intro i s t hs hexec
  have hlist := exec_reports hs.code_inv i t hexec
  obtain ⟨hderivation, hcorrupt⟩ : .propertyDerivationFailed ∉ errorsOf i ∧ .lookupTableCorrupt ∉ errorsOf i := by
    cases i <;> simp [errorsOf]
  exact ⟨fun h => hderivation (hlist _ h), fun h => hcorrupt (hlist _ h)⟩

end Sys2Proof.Machine
end

section
/-! PROOFS. The parity_check_matrix_gen unit (42_parity_syndrome.md): the bits of the parity-check matrix and of the
syndrome (R150, R151), the laws of the syndrome (R155, O51), and RDH (O48), SYND (O49) and CONTAINS (O50). -/

namespace Sys2Proof.Machine

/-! ### A word written from its bits (R8) -/

/-- Doubling and adding makes the last bit of the list bit 0 of the number. -/
theorem testBit_foldl_double (bs : List Bool) (i : Nat) :
    (bs.foldl (fun v (b : Bool) => 2 * v + b.toNat) 0).testBit i = bs.reverse.getD i false := by
  induction bs using List.reverseRecOn generalizing i with
  | nil => simp
  | append_singleton bs b ih =>
    rw [List.foldl_append, List.foldl_cons, List.foldl_nil, ← Nat.bit_val, List.reverse_concat]
    cases i with
    | zero => simp
    | succ i => rw [Nat.testBit_bit_succ, ih, List.getD_cons_succ]

theorem getMsbD_wordOfBits {L : Nat} {bs : List Bool} (hlen : bs.length = L) {i : Nat} (hi : i < bs.length) :
    (wordOfBits L bs).getMsbD i = bs[i] := by
  subst hlen
  obtain ⟨hlt, hplace⟩ : bs.length - 1 - i < bs.length ∧ bs.length - 1 - (bs.length - 1 - i) = i := by omega
  rw [BitVec.getMsbD_eq_getLsbD, wordOfBits, BitVec.getLsbD_ofNat, testBit_foldl_double, List.getD_eq_getElem?_getD,
    List.getElem?_reverse hlt, hplace]
  simp [hi, hlt]

/-! ### Sums over GF(2) (R11) -/

theorem xorSum_xor (n : Nat) (f g : Nat → Bool) : (xorSum n fun i => f i ^^ g i) = (xorSum n f ^^ xorSum n g) := by
  induction n with
  | zero => rfl
  | succ n ih => simp only [xorSum_succ, ih, Bool.xor_assoc, Bool.xor_left_comm (f n)]

/-- A sum split at a position. -/
theorem xorSum_add (k m : Nat) (f : Nat → Bool) : xorSum (k + m) f = (xorSum k f ^^ xorSum m fun i => f (k + i)) := by
  induction m with
  | zero => simp [xorSum]
  | succ m ih => rw [← Nat.add_assoc, xorSum_succ, ih, xorSum_succ, Bool.xor_assoc]

/-! ### The parity-check matrix and the syndrome (R150, R151) -/

section
variable {n k : Nat}

@[simp] theorem length_parityMatrix (k : Nat) (G : List (BitVec n)) : (parityMatrix k G).length = n - k := by
  simp [parityMatrix]

variable {G : List (BitVec n)}

theorem getMsbD_parityMatrix {i j : Nat} (hi : i < (parityMatrix k G).length) (hj : j < n) :
    (parityMatrix k G)[i].getMsbD j = parityEntry k G i j := by
  simp only [parityMatrix, List.getElem_map, List.getElem_range]
  rw [getMsbD_wordOfBits (by simp) (by simpa using hj), List.getElem_map, List.getElem_range, parityEntry]

theorem getMsbD_syndromeWord (r : BitWord .code n) {i : Nat} (hi : i < n - k) :
    (syndromeWord (n - k) (parityMatrix k G) r).bits.getMsbD i = syndromeBit k G r.bits i := by
  rw [syndromeWord, getMsbD_wordOfBits (by simp) (by simpa using hi), List.getElem_map]
  exact xorSum_congr fun j hj => by rw [getMsbD_parityMatrix _ hj]

theorem syndromeWord_eq_zero_iff {r : BitWord .code n} :
    syndromeWord (n - k) (parityMatrix k G) r = zeroWord .syndrome (n - k) ↔
      ∀ i < n - k, syndromeBit k G r.bits i = false := by
  rw [← bits_inj]
  refine ⟨fun h i hi => ?_, fun h => BitVec.eq_of_getMsbD_eq fun i hi => ?_⟩
  · rw [← getMsbD_syndromeWord r hi, h]
    simp [zeroWord]
  · rw [getMsbD_syndromeWord r hi, h i hi]
    simp [zeroWord]

/-! ### The laws of the syndrome (R151, R155) -/

theorem syndromeBit_xor (x y : BitVec n) (i : Nat) :
    syndromeBit k G (x ^^^ y) i = (syndromeBit k G x i ^^ syndromeBit k G y i) := by
  simp only [syndromeBit, BitVec.getMsbD_xor, Bool.and_xor_distrib_right, xorSum_xor]

/-- The syndrome is linear (R151). -/
theorem syndromeWord_addWord (x y : BitWord .code n) :
    syndromeWord (n - k) (parityMatrix k G) (addWord x y) =
      addWord (syndromeWord (n - k) (parityMatrix k G) x) (syndromeWord (n - k) (parityMatrix k G) y) := by
  refine bits_inj.mp (BitVec.eq_of_getMsbD_eq fun i hi => ?_)
  simp only [addWord, BitVec.getMsbD_xor, getMsbD_syndromeWord _ hi, syndromeBit_xor]

/-- Bit i of the syndrome compares check bit i of the word with the one that the word's leftmost bits encode to: the
columns of `Aᵗ` recompute it and the identity reads it. -/
theorem syndromeBit_eq_xor_encodeWord (hk : k ≤ n) (r : BitVec n) {i : Nat} (hi : i < n - k) :
    syndromeBit k G r i =
      ((encodeWord G (⟨leftBits k r⟩ : BitWord .information k)).bits.getMsbD (k + i) ^^ r.getMsbD (k + i)) := by
  have hn : n = k + (n - k) := by omega
  have hleft : (xorSum k fun j => r.getMsbD j && parityEntry k G i j) =
      (encodeWord G (⟨leftBits k r⟩ : BitWord .information k)).bits.getMsbD (k + i) := by
    rw [getMsbD_encodeWord]
    exact xorSum_congr fun j hj => by rw [getMsbD_leftBits hk r hj, parityEntry, if_pos hj]
  have hright : (xorSum (n - k) fun j => r.getMsbD (k + j) && parityEntry k G i (k + j)) = r.getMsbD (k + i) := by
    rw [xorSum_eq_single hi fun j _ hne => by simp [parityEntry, hne]]
    simp [parityEntry]
  rw [syndromeBit, ← hleft, ← hright, ← xorSum_add, ← hn]

/-- In standard form a word has syndrome zero exactly if its leftmost bits encode to it. -/
theorem syndromeWord_eq_zero_iff_encodeWord (hk : k ≤ n) (hG : standardForm k G = true) {r : BitWord .code n} :
    syndromeWord (n - k) (parityMatrix k G) r = zeroWord .syndrome (n - k) ↔
      encodeWord G (⟨leftBits k r.bits⟩ : BitWord .information k) = r := by
  rw [syndromeWord_eq_zero_iff]
  refine ⟨fun h => bits_inj.mp (BitVec.eq_of_getMsbD_eq fun j hj => ?_), fun h i hi => ?_⟩
  · obtain hjk | ⟨i, rfl⟩ := (Nat.lt_or_ge j k).imp_right Nat.exists_eq_add_of_le
    · rw [← getMsbD_leftBits hk _ hjk, leftBits_encodeWord hk hG, getMsbD_leftBits hk _ hjk]
    · have hi : i < n - k := by omega
      simpa [syndromeBit_eq_xor_encodeWord hk r.bits hi] using h i hi
  · rw [syndromeBit_eq_xor_encodeWord hk r.bits hi, h, Bool.xor_self]

/-- The kernel of the syndrome is the code (R155). -/
theorem syndromeWord_eq_zero_iff_mem (hk : k ≤ n) (hG : standardForm k G = true) (r : BitWord .code n) :
    syndromeWord (n - k) (parityMatrix k G) r = zeroWord .syndrome (n - k) ↔ r ∈ codewordList k G := by
  rw [syndromeWord_eq_zero_iff_encodeWord hk hG, mem_codewordList]
  refine ⟨fun h => ⟨_, h⟩, ?_⟩
  rintro ⟨u, rfl⟩
  rw [leftBits_encodeWord hk hG]

/-- Words share their syndrome exactly when they share a coset of the code (R155). -/
theorem syndromeWord_eq_iff_mem (hk : k ≤ n) (hG : standardForm k G = true) (x y : BitWord .code n) :
    syndromeWord (n - k) (parityMatrix k G) x = syndromeWord (n - k) (parityMatrix k G) y ↔
      addWord x y ∈ codewordList k G := by
  rw [← syndromeWord_eq_zero_iff_mem hk hG, syndromeWord_addWord, ← bits_inj, ← bits_inj]
  exact BitVec.xor_eq_zero_iff.symm

/-- The word of zeros and then `v` has the syndrome `v`: it is the sum of the unit words of R155. -/
theorem syndromeWord_setWidth (hk : k ≤ n) (v : BitWord .syndrome (n - k)) :
    syndromeWord (n - k) (parityMatrix k G) ⟨v.bits.setWidth n⟩ = v := by
  have hzero : (⟨leftBits k (v.bits.setWidth n)⟩ : BitWord .information k) = zeroWord .information k := by
    refine bits_inj.mp (BitVec.eq_of_getMsbD_eq fun j hj => ?_)
    have hleft : ¬n ≤ j + (n - k) := by omega
    rw [getMsbD_leftBits hk _ hj, BitVec.getMsbD_setWidth]
    simp [zeroWord, hleft]
  refine bits_inj.mp (BitVec.eq_of_getMsbD_eq fun i hi => ?_)
  rw [getMsbD_syndromeWord _ hi, syndromeBit_eq_xor_encodeWord hk _ hi, hzero, encodeWord_zeroWord,
    BitVec.getMsbD_setWidth]
  obtain ⟨hpast, hplace⟩ : n ≤ k + i + (n - k) ∧ k + i + (n - k) - n = i := by omega
  simp [zeroWord, hpast, hplace]

end

/-- Settles O51: the rows are codewords, so they lie in the kernel, and every syndrome is that of a word of zeros and
then the syndrome. -/
theorem syndromeKernelIsTheCode : Obligations.SyndromeKernelIsTheCode := by
  refine fun n k G hk hlen => ⟨syndromeWord_addWord, fun hG => ⟨fun g hg => ?_, syndromeWord_eq_zero_iff_mem hk hG,
    syndromeWord_eq_iff_mem hk hG, fun v => ⟨_, syndromeWord_setWidth hk v⟩⟩⟩
  exact (syndromeWord_eq_zero_iff_mem hk hG _).mpr (row_mem_codewordList hlen.le hg)

/-! ### RDH, SYND and CONTAINS (R152 to R154) -/

theorem CodeInv.withParity_eq {code : Code} (h : CodeInv code) : Machine.withParity code = code.parityBuilt := by
  rw [Machine.withParity, Code.parityBuilt, h.parityOf_eq]

theorem CodeInv.syndromeOf_eq {code : Code} (h : CodeInv code) (r : BitWord .code code.n) :
    syndromeOf code r = syndromeWord (code.n - code.k) (parityMatrix code.k code.G) r := by
  rw [syndromeOf, h.parityOf_eq]

section
variable {s : State} {c a b : Reg} {code : Code} {L : Nat} (hbusy : s.eng = .busy c a b) (hcode : s.code = some code)
include hbusy hcode

theorem execRdh_ok (hinv : CodeInv code) (ha : a.toNat < code.n - code.k) {row : BitVec code.n}
    (hrow : (parityMatrix code.k code.G)[a.toNat]? = some row) :
    execRdh s = succeed (setRes0 (toReg row) (setCode code.parityBuilt s)) := by
  rw [execRdh, withLatched_busy hbusy, withCode_some hcode, indexOperand, withinRange_of_lt ha, hinv.parityOf_eq,
    withEntry_some hrow, hinv.withParity_eq]

theorem execRdh_outOfRange (ha : code.n - code.k ≤ a.toNat) : execRdh s = raise .indexOutOfRange s := by
  rw [execRdh, withLatched_busy hbusy, withCode_some hcode, indexOperand, withinRange_of_ge ha]

theorem execSynd_ok (hinv : CodeInv code) (hL : code.n ≤ s.cfg.nMax) (ha : a.toNat < 2 ^ code.n) :
    execSynd code.n s = succeed (setRes0 (toReg (syndromeWord (code.n - code.k) (parityMatrix code.k code.G)
      ⟨BitVec.ofNat code.n a.toNat⟩).bits) (setCode code.parityBuilt s)) := by
  rw [execSynd, withLatched_busy hbusy, withCode_some hcode, withWord_ok hL ha, withLength_self, hinv.syndromeOf_eq,
    hinv.withParity_eq]

theorem execSynd_malformed (ha : Malformed s L a) : execSynd L s = raise .malformedInput s := by
  rw [execSynd, withLatched_busy hbusy, withCode_some hcode, withWord_malformed ha]

theorem execSynd_otherLength (hL : L ≤ s.cfg.nMax) (ha : a.toNat < 2 ^ L) (hn : L ≠ code.n) :
    execSynd L s = raise .dimensionMismatch s := by
  rw [execSynd, withLatched_busy hbusy, withCode_some hcode, withWord_ok hL ha, withLength_ne _ _ hn]

theorem execContains_ok (hinv : CodeInv code) (hL : code.n ≤ s.cfg.nMax) (ha : a.toNat < 2 ^ code.n) :
    execContains code.n s = succeed (setRes0
      (if syndromeWord (code.n - code.k) (parityMatrix code.k code.G) ⟨BitVec.ofNat code.n a.toNat⟩ =
        zeroWord .syndrome (code.n - code.k) then 1 else 0) (setCode code.parityBuilt s)) := by
  rw [execContains, withLatched_busy hbusy, withCode_some hcode, withWord_ok hL ha, dif_pos rfl, BitVec.cast_eq,
    hinv.syndromeOf_eq, hinv.withParity_eq]

theorem execContains_malformed (ha : Malformed s L a) : execContains L s = raise .malformedInput s := by
  rw [execContains, withLatched_busy hbusy, withCode_some hcode, withWord_malformed ha]

theorem execContains_otherLength (hL : L ≤ s.cfg.nMax) (ha : a.toNat < 2 ^ L) (hn : L ≠ code.n) :
    execContains L s = succeed (setRes0 0 s) := by
  rw [execContains, withLatched_busy hbusy, withCode_some hcode, withWord_ok hL ha, dif_neg hn]

end

/-- Settles O48: the matrix of the invariant is that of the generator, and has n - k rows. -/
theorem rdhReadsTheParityMatrix : Obligations.RdhReadsTheParityMatrix := by
  refine ⟨fun s c a b code hbusy hcode hinv => ⟨fun ha => ?_, execRdh_outOfRange hbusy hcode⟩,
    fun s c a b hbusy hcode => withLatched_withCode_none hbusy hcode _,
    fun w => decode_eq_ok_of_wellFormed (Nat.zero_le _)⟩
  have hrow := List.getElem?_eq_getElem (l := parityMatrix code.k code.G) (i := a.toNat) (by rwa [length_parityMatrix])
  exact ⟨_, fun j hj => getMsbD_parityMatrix _ hj, execRdh_ok hbusy hcode hinv ha hrow⟩

/-- Settles O49: the syndrome's bits are those of `getMsbD_syndromeWord`. -/
theorem syndComputesTheSyndrome : Obligations.SyndComputesTheSyndrome := by
  refine ⟨fun s c a b code L hbusy hcode hinv =>
      ⟨?_, execSynd_malformed hbusy hcode, execSynd_otherLength hbusy hcode⟩,
    fun s c a b L hbusy hcode => withLatched_withCode_none hbusy hcode _, fun L hL => ?_⟩
  · rintro hL ha rfl
    exact ⟨_, fun i hi => getMsbD_syndromeWord _ hi, execSynd_ok hbusy hcode hinv hL ha⟩
  · simpa [strategy, opcode, Instr.len] using decode_ofNat_fields (i := .synd L) hL

/-- Settles O50: the syndrome is the zero word exactly if each of its bits is 0. -/
theorem containsTestsTheSyndrome : Obligations.ContainsTestsTheSyndrome := by
  refine ⟨fun s c a b code L hbusy hcode hinv =>
      ⟨?_, execContains_malformed hbusy hcode, execContains_otherLength hbusy hcode⟩,
    fun s c a b L hbusy hcode => withLatched_withCode_none hbusy hcode _, fun L hL => ?_⟩
  · rintro hL ha rfl
    refine ⟨_, fun hzero => if_pos (syndromeWord_eq_zero_iff.mpr hzero), ?_, execContains_ok hbusy hcode hinv hL ha⟩
    rintro ⟨i, hi, hbit⟩
    exact if_neg fun hzero => Bool.eq_false_iff.mp (syndromeWord_eq_zero_iff.mp hzero i hi) hbit
  · simpa [strategy, opcode, Instr.len] using decode_ofNat_fields (i := .contains L) hL

end Sys2Proof.Machine
end

section
/-! PROOFS. The standard array (R170 to R173): each of its rows is a coset of the codeword list, the cosets split the
scan, and O52 and O53 from the list of their leaders. -/

namespace Sys2Proof.Machine

/-! ### The codeword list under addition (R122) -/

theorem addWord_cancel_left {role : Role} {L : Nat} (a b : BitWord role L) : addWord a (addWord a b) = b := by
  rw [← addWord_assoc, addWord_self, addWord_comm, addWord_zeroWord]

theorem addWord_addWord_left {role : Role} {L : Nat} (a b : BitWord role L) : addWord (addWord a b) a = b := by
  rw [addWord_comm, addWord_cancel_left]

theorem addWord_addWord_right {role : Role} {L : Nat} (a b : BitWord role L) : addWord (addWord a b) b = a := by
  rw [addWord_assoc, addWord_self, addWord_zeroWord]

theorem addWord_injective {role : Role} {L : Nat} (a : BitWord role L) : Function.Injective (addWord a) :=
  fun b c h => by rw [← addWord_cancel_left a b, h, addWord_cancel_left]

section
variable {n k : Nat} {G : List (BitVec n)}

/-- Encoding is linear (R122). -/
theorem encodeWord_addWord (u v : BitWord .information k) :
    encodeWord G (addWord u v) = addWord (encodeWord G u) (encodeWord G v) := by
  refine bits_inj.mp (BitVec.eq_of_getMsbD_eq fun j _ => ?_)
  simp only [addWord, BitVec.getMsbD_xor, getMsbD_encodeWord, Bool.and_xor_distrib_right, xorSum_xor]

theorem addWord_mem_codewordList {c d : BitWord .code n} (hc : c ∈ codewordList k G) (hd : d ∈ codewordList k G) :
    addWord c d ∈ codewordList k G := by
  obtain ⟨u, rfl⟩ := mem_codewordList.mp hc
  obtain ⟨v, rfl⟩ := mem_codewordList.mp hd
  exact mem_codewordList.mpr ⟨addWord u v, encodeWord_addWord u v⟩

/-- Row 0 of the array is the codeword list: the zero word stands first, and without repeats nowhere else. -/
theorem zero_cons_rowZeroColumns (h : (codewordList k G).Nodup) :
    zeroWord .code n :: rowZeroColumns (codewordList k G) = codewordList k G := by
  have hhead := codewordList_head (k := k) (G := G)
  cases hcw : codewordList k G with
  | nil => simp [hcw] at hhead
  | cons c cw =>
    rw [hcw] at hhead h
    obtain rfl : c = zeroWord .code n := by simpa using hhead
    have hkeep : cw.filter (fun c => c != zeroWord .code n) = cw :=
      List.filter_eq_self.mpr fun c hc => bne_iff_ne.mpr fun hz => (List.nodup_cons.mp h).1 (hz ▸ hc)
    simp [rowZeroColumns, hkeep]

/-- Distinct codewords are at most as many as the words of their length. -/
theorem dimension_le (h : (codewordList k G).Nodup) : k ≤ n := by
  have hsub : (codewordList k G).Subperm (allWords .code n) := h.subperm fun c _ => mem_allWords c
  have hle := hsub.length_le
  rw [length_codewordList, length_allWords] at hle
  exact (Nat.pow_le_pow_iff_right Nat.one_lt_two).mp hle

end

/-! ### Cosets -/

/-- The coset of `e`: `e` plus each word of the list, in the list's order. -/
def coset {n : Nat} (cw : List (BitWord .code n)) (e : BitWord .code n) : List (BitWord .code n) := cw.map (addWord e)

/-- A list of codewords as R170 needs it: row 0 of the array, distinct, and closed under addition. -/
structure IsGroupList {n : Nat} (cw : List (BitWord .code n)) : Prop where
  zero_cons : zeroWord .code n :: rowZeroColumns cw = cw
  nodup : cw.Nodup
  add_mem : ∀ c ∈ cw, ∀ d ∈ cw, addWord c d ∈ cw

theorem isGroupList_codewordList {n k : Nat} {G : List (BitVec n)} (h : (codewordList k G).Nodup) :
    IsGroupList (codewordList k G) :=
  ⟨zero_cons_rowZeroColumns h, h, fun _ hc _ hd => addWord_mem_codewordList hc hd⟩

/-- The words still to place while the array is built: in ≺ order, and with a word its whole coset (R170). -/
structure IsUnused {n : Nat} (cw unused : List (BitWord .code n)) : Prop where
  ascending : unused.Pairwise fun v w => precedes v.bits w.bits = true
  add_mem : ∀ x ∈ unused, ∀ c ∈ cw, addWord x c ∈ unused

/-- What R172 says of the leaders of rows that hold the given words: they ascend, each is the ≺-least word of its coset,
and the cosets are the words, each once. -/
structure AreLeaders {n : Nat} (cw words leaders : List (BitWord .code n)) : Prop where
  ascending : leaders.Pairwise fun v w => precedes v.bits w.bits = true
  least : ∀ e ∈ leaders, ∀ w ∈ coset cw e, w = e ∨ precedes e.bits w.bits = true
  perm : (leaders.flatMap (coset cw)).Perm words

section
variable {n : Nat} {cw : List (BitWord .code n)}

theorem mem_coset {e w : BitWord .code n} : w ∈ coset cw e ↔ ∃ c ∈ cw, addWord e c = w := List.mem_map

@[simp] theorem length_coset (e : BitWord .code n) : (coset cw e).length = cw.length := List.length_map _

@[simp] theorem coset_zeroWord : coset cw (zeroWord .code n) = cw :=
  (List.map_congr_left fun c _ => (addWord_comm _ c).trans (addWord_zeroWord c)).trans (List.map_id cw)

theorem isUnused_scanWords : IsUnused cw (scanWords .code n) :=
  ⟨scanWords_pairwise_precedes .code n, fun _ _ _ _ => mem_scanWords _⟩

theorem AreLeaders.not_precedes {words leaders : List (BitWord .code n)} (h : AreLeaders cw words leaders)
    {e w : BitWord .code n} (he : e ∈ leaders) (hw : w ∈ coset cw e) : precedes w.bits e.bits = false := by
  obtain rfl | hlt := h.least e he w hw
  · exact precedes_irrefl _
  · refine Bool.eq_false_iff.mpr fun hgt => ?_
    simpa [precedes_irrefl] using precedes_trans hlt hgt

variable {unused : List (BitWord .code n)}

theorem IsUnused.nodup (h : IsUnused cw unused) : unused.Nodup :=
  h.ascending.imp fun {v w} hvw heq => by simp [heq, precedes_irrefl] at hvw

variable (hcw : IsGroupList cw)
include hcw

theorem IsGroupList.zero_mem : zeroWord .code n ∈ cw := hcw.zero_cons ▸ List.mem_cons_self

theorem IsGroupList.getElem?_zero : cw[0]? = some (zeroWord .code n) := by
  rw [← hcw.zero_cons]
  rfl

theorem IsGroupList.self_mem_coset (e : BitWord .code n) : e ∈ coset cw e :=
  mem_coset.mpr ⟨_, hcw.zero_mem, addWord_zeroWord e⟩

theorem IsGroupList.nodup_coset (e : BitWord .code n) : (coset cw e).Nodup := hcw.nodup.map (addWord_injective e)

/-- The row of a leader (R170) is its coset. -/
theorem cosetRow_eq_coset (e : BitWord .code n) : cosetRow (rowZeroColumns cw) e = coset cw e := by
  conv_rhs => rw [coset, ← hcw.zero_cons, List.map_cons, addWord_zeroWord]
  rw [cosetRow]

/-- Placing the row of an unused word takes exactly its coset from the unused words. -/
theorem coset_append_dropUsed (h : IsUnused cw unused) {e : BitWord .code n} (he : e ∈ unused) :
    (coset cw e ++ dropUsed (coset cw e) unused).Perm unused := by
  have hrow : (unused.filter fun x => (coset cw e).contains x).Perm (coset cw e) := by
    refine (List.perm_ext_iff_of_nodup (h.nodup.filter _) (hcw.nodup_coset e)).mpr fun w => ?_
    rw [List.mem_filter, List.contains_iff_mem, and_iff_right_iff_imp, mem_coset]
    rintro ⟨c, hc, rfl⟩
    exact h.add_mem e he c hc
  exact (hrow.symm.append_right _).trans (List.filter_append_perm _ unused)

/-- The words left by a row are again in ≺ order, and with a word its whole coset: a word whose sum with a codeword lies
in the row lies there itself. -/
theorem IsUnused.after_row (h : IsUnused cw unused) (e : BitWord .code n) :
    IsUnused cw (dropUsed (coset cw e) unused) := by
  refine ⟨h.ascending.filter _, fun x hx c hc => ?_⟩
  simp only [dropUsed, List.mem_filter, Bool.not_eq_true', List.contains_eq_mem, decide_eq_false_iff_not] at hx ⊢
  refine ⟨h.add_mem x hx.1 c hc, fun hin => hx.2 ?_⟩
  obtain ⟨d, hd, hed⟩ := mem_coset.mp hin
  refine mem_coset.mpr ⟨addWord d c, hcw.add_mem d hd c hc, ?_⟩
  rw [← addWord_assoc, hed, addWord_comm x, addWord_comm, addWord_cancel_left]

/-- The ≺-least unused word leads its coset, and the leaders of the words after its row come after it. -/
theorem AreLeaders.cons (h : IsUnused cw unused) {e : BitWord .code n} {leaders : List (BitWord .code n)}
    (he : e ∈ unused) (hfirst : ∀ w ∈ unused, w = e ∨ precedes e.bits w.bits = true)
    (hl : AreLeaders cw (dropUsed (coset cw e) unused) leaders) : AreLeaders cw unused (e :: leaders) := by
  have hperm := coset_append_dropUsed hcw h he
  refine ⟨List.pairwise_cons.mpr ⟨fun x hx => ?_, hl.ascending⟩, List.forall_mem_cons.mpr ⟨fun w hw => ?_, hl.least⟩, ?_⟩
  · have hleft : x ∈ dropUsed (coset cw e) unused :=
      hl.perm.subset (List.mem_flatMap.mpr ⟨x, hx, hcw.self_mem_coset x⟩)
    refine (hfirst x (hperm.subset (List.mem_append_right _ hleft))).resolve_left ?_
    rintro rfl
    simp [dropUsed, hcw.self_mem_coset x] at hleft
  · exact hfirst w (hperm.subset (List.mem_append_left _ hw))
  · rw [List.flatMap_cons]
    exact (hl.perm.append_left _).trans hperm

/-- The words that a coset leaves are as many as the other cosets hold. -/
theorem length_dropUsed (h : IsUnused cw unused) {e : BitWord .code n} (he : e ∈ unused) {rows : Nat}
    (hlen : unused.length = (rows + 1) * cw.length) :
    (dropUsed (coset cw e) unused).length = rows * cw.length := by
  have hsplit := (coset_append_dropUsed hcw h he).length_eq
  rw [List.length_append, length_coset, hlen, Nat.succ_mul] at hsplit
  omega

/-- As many rows as the unused words fill are the cosets of their leaders. -/
theorem exists_leaders (rows : Nat) (unused : List (BitWord .code n)) (h : IsUnused cw unused)
    (hlen : unused.length = rows * cw.length) :
    ∃ leaders, leaders.length = rows ∧ cosetRows (rowZeroColumns cw) rows unused = leaders.map (coset cw) ∧
      AreLeaders cw unused leaders := by
  induction rows generalizing unused with
  | zero =>
    obtain rfl : unused = [] := by simpa using hlen
    exact ⟨[], rfl, rfl, .nil, nofun, .nil⟩
  | succ rows ih =>
    cases unused with
    | nil =>
      have hpos := List.length_pos_of_mem hcw.zero_mem
      simp only [List.length_nil, Nat.succ_mul] at hlen
      omega
    | cons e rest =>
      have hfirst : ∀ w ∈ e :: rest, w = e ∨ precedes e.bits w.bits = true := fun w hw =>
        (List.mem_cons.mp hw).imp_right (List.rel_of_pairwise_cons h.ascending)
      obtain ⟨leaders, hcount, hrows, hl⟩ :=
        ih _ (h.after_row hcw e) (length_dropUsed hcw h List.mem_cons_self hlen)
      refine ⟨e :: leaders, by rw [List.length_cons, hcount], ?_, hl.cons hcw h List.mem_cons_self hfirst⟩
      rw [cosetRows, cosetRow_eq_coset hcw, hrows, List.map_cons]

end

/-! ### The array of a codeword list (R170 to R172) -/

section
variable {n k : Nat} {G : List (BitVec n)} (h : (codewordList k G).Nodup)
include h

/-- The array is built of cosets: row 0 that of the zero word, which precedes every other, and the later rows those of
the words row 0 leaves. -/
theorem exists_leaders_standardArray :
    ∃ leaders, leaders.length = 2 ^ (n - k) ∧
      standardArray k (codewordList k G) = leaders.map (coset (codewordList k G)) ∧
      AreLeaders (codewordList k G) (scanWords .code n) leaders := by
  have hcw := isGroupList_codewordList h
  have hscan : IsUnused (codewordList k G) (scanWords .code n) := isUnused_scanWords
  have hzero := mem_scanWords (zeroWord .code n)
  have hfirst : ∀ w ∈ scanWords .code n, w = zeroWord .code n ∨ precedes (zeroWord .code n).bits w.bits = true :=
    fun w _ => (eq_or_ne w (zeroWord .code n)).imp_right fun hne => zero_precedes (mt bits_inj.mp hne)
  have hcount : 2 ^ (n - k) - 1 + 1 = 2 ^ (n - k) := Nat.sub_add_cancel Nat.one_le_two_pow
  have hlen : (scanWords .code n).length = (2 ^ (n - k) - 1 + 1) * (codewordList k G).length := by
    rw [hcount, length_scanWords, length_codewordList, ← Nat.pow_add, Nat.sub_add_cancel (dimension_le h)]
  obtain ⟨leaders, hrows, heq, hl⟩ :=
    exists_leaders hcw _ _ (hscan.after_row hcw (zeroWord .code n)) (length_dropUsed hcw hscan hzero hlen)
  refine ⟨zeroWord .code n :: leaders, by rw [List.length_cons, hrows, hcount], ?_, hl.cons hcw hscan hzero hfirst⟩
  rw [coset_zeroWord] at heq
  rw [standardArray, hcw.zero_cons, heq, List.map_cons, coset_zeroWord]

end

/-- Settles O52: the rows are as many as the leaders, each as long as the codeword list, and together a permutation of
the scan. -/
theorem standardArrayPartitionsAllWords : Obligations.StandardArrayPartitionsAllWords := by
  intro n k G h
  obtain ⟨leaders, hcount, hrows, hl⟩ := exists_leaders_standardArray h
  rw [hrows, ← List.flatMap_def]
  refine ⟨by rw [List.length_map, hcount], ?_, hl.perm.nodup_iff.mpr (nodup_scanWords .code n),
    fun r => hl.perm.mem_iff.mpr (mem_scanWords r)⟩
  rintro row hrow
  obtain ⟨e, -, rfl⟩ := List.mem_map.mp hrow
  rw [length_coset, length_codewordList]

/-! ### The entries of the array (R172) -/

section
variable {n : Nat} {cw leaders : List (BitWord .code n)}

theorem arrayEntry_coset {j p : Nat} {w : BitWord .code n} :
    arrayEntry (leaders.map (coset cw)) j p = some w ↔
      ∃ e c, leaders[j]? = some e ∧ cw[p]? = some c ∧ addWord e c = w := by
  rw [arrayEntry, List.getElem?_map]
  cases leaders[j]? with
  | none => simp
  | some e => simp [coset]

/-- The entry at position 0 of a row is its leader. -/
theorem arrayEntry_leader (hcw : IsGroupList cw) {j : Nat} :
    arrayEntry (leaders.map (coset cw)) j 0 = leaders[j]? := by
  ext w
  rw [arrayEntry_coset, hcw.getElem?_zero]
  simp

theorem arrayEntry_row_zero (hcw : IsGroupList cw) (k p : Nat) : arrayEntry (standardArray k cw) 0 p = cw[p]? := by
  rw [standardArray, hcw.zero_cons, arrayEntry, List.getElem?_cons_zero]

end

/-- Settles O53: an entry is the sum of a leader and a codeword, and the leaders ascend. -/
theorem leadersAreLeastOfTheirCosets : Obligations.LeadersAreLeastOfTheirCosets := by
  intro n k G h j p e w he hw
  have hcw := isGroupList_codewordList h
  obtain ⟨leaders, -, hrows, hl⟩ := exists_leaders_standardArray h
  rw [arrayEntry_row_zero hcw]
  rw [hrows] at he hw ⊢
  rw [arrayEntry_leader hcw] at he
  obtain ⟨e', c, he', hc, rfl⟩ := arrayEntry_coset.mp hw
  obtain rfl : e' = e := Option.some.inj (he'.symm.trans he)
  refine ⟨hl.least e' (List.mem_of_getElem? he) _ (mem_coset.mpr ⟨c, List.mem_of_getElem? hc, rfl⟩), ⟨c, hc, rfl⟩, ?_⟩
  intro j' e'' hj he''
  rw [arrayEntry_leader hcw] at he''
  obtain ⟨hj', rfl⟩ := List.getElem?_eq_some_iff.mp he''
  obtain ⟨_, rfl⟩ := List.getElem?_eq_some_iff.mp he
  exact List.pairwise_iff_getElem.mp hl.ascending _ _ _ _ hj

end Sys2Proof.Machine
end

section
/-! PROOFS. The standard_array_constructor unit (43_standard_array.md): what `locate` finds (R173), RDSA (O54), DECODE.SA
(O55) and its correction radius (O56). -/

namespace Sys2Proof.Machine

/-! ### Locating a word and decoding it (R173) -/

section
variable {n : Nat}

theorem exists_locateFrom {r : BitWord .code n} {rows : List (List (BitWord .code n))} (hr : r ∈ rows.flatten) (j : Nat) :
    ∃ i p, locateFrom r j rows = some (j + i, p) ∧ arrayEntry rows i p = some r := by
  induction rows generalizing j with
  | nil => simp at hr
  | cons row rows ih =>
    by_cases hrow : r ∈ row
    · exact ⟨0, row.idxOf r, by simp [locateFrom, hrow], by simp [arrayEntry, List.getElem?_idxOf hrow]⟩
    · obtain ⟨i, p, hloc, hentry⟩ := ih (by simpa [hrow] using hr) (j + 1)
      refine ⟨i + 1, p, ?_, by simpa [arrayEntry] using hentry⟩
      rw [locateFrom, if_neg (by simpa using hrow), hloc, Nat.add_assoc, Nat.add_comm 1]

/-- A word that stands in the array is located where it stands. -/
theorem exists_locate {sa : List (List (BitWord .code n))} {r : BitWord .code n} (hr : r ∈ sa.flatten) :
    ∃ j p, locate sa r = some (j, p) ∧ arrayEntry sa j p = some r := by
  simpa [locate] using exists_locateFrom hr 0

/-- The corrected codeword of a word at position p, `0^n` for a leader (C2), is the entry of row 0 there. -/
theorem correctedWord_eq {cw : List (BitWord .code n)} (hcw : IsGroupList cw) (k p : Nat) :
    (if p = 0 then some (zeroWord .code n) else arrayEntry (standardArray k cw) 0 p) = cw[p]? := by
  rw [arrayEntry_row_zero hcw]
  split
  · next hp => rw [hp, hcw.getElem?_zero]
  · rfl

/-- What standard-array decoding finds for r: the ≺-least word e of r's coset, and the codeword `r ⊕ e`. -/
theorem arrayDecode_standardArray {k : Nat} {G : List (BitVec n)} (h : (codewordList k G).Nodup) (r : BitWord .code n) :
    ∃ e, arrayDecode (standardArray k (codewordList k G)) r = some (e, addWord r e) ∧
      addWord r e ∈ codewordList k G ∧ ∀ w ∈ codewordList k G, precedes (addWord r w).bits e.bits = false := by
  have hcw := isGroupList_codewordList h
  obtain ⟨leaders, -, hrows, hl⟩ := exists_leaders_standardArray h
  obtain ⟨-, -, -, hall⟩ := standardArrayPartitionsAllWords n k G h
  obtain ⟨j, p, hloc, hentry⟩ := exists_locate (hall r)
  have hleader : arrayEntry (standardArray k (codewordList k G)) j 0 = leaders[j]? := by
    rw [hrows, arrayEntry_leader hcw]
  rw [hrows, arrayEntry_coset] at hentry
  obtain ⟨e, c, he, hc, rfl⟩ := hentry
  refine ⟨e, ?_⟩
  rw [addWord_addWord_left]
  refine ⟨?_, List.mem_of_getElem? hc, fun w hw => ?_⟩
  · rw [arrayDecode, hloc]
    simp only [hleader, he, correctedWord_eq hcw, hc]
  · exact hl.not_precedes (List.mem_of_getElem? he)
      (mem_coset.mpr ⟨addWord c w, hcw.add_mem c (List.mem_of_getElem? hc) w hw, (addWord_assoc e c w).symm⟩)

end

/-! ### The refusal of dependent rows (R134) -/

theorem hasRepeat_eq_false_iff {n : Nat} {cw : List (BitWord .code n)} : hasRepeat cw = false ↔ cw.Nodup := by
  induction cw with
  | nil => simp [hasRepeat]
  | cons c cw ih => simp [hasRepeat, ih]

theorem withStandardArray_of_nodup {code : Code} (h : code.cw.Nodup) (o : Host.Outcome State Fault Refusal) :
    withStandardArray code o = o := by
  simp [withStandardArray, hasRepeat_eq_false_iff.mpr h]

theorem withStandardArray_of_repeat {code : Code} (h : ¬code.cw.Nodup) (o : Host.Outcome State Fault Refusal) :
    withStandardArray code o = .refused .dependentRows := by
  rw [← hasRepeat_eq_false_iff, Bool.not_eq_false] at h
  simp [withStandardArray, h]

theorem CodeInv.withArray_eq {code : Code} (h : CodeInv code) : Machine.withArray code = code.arrayBuilt := by
  rw [Machine.withArray, Code.arrayBuilt, h.arrayOf_eq]

/-! ### RDSA (R174) -/

section
variable {s : State} {c a b : Reg} {code : Code} (hbusy : s.eng = .busy c a b) (hcode : s.code = some code)
include hbusy hcode

theorem execRdsa_inRange (ha : a.toNat < 2 ^ (code.n - code.k)) (hb : b.toNat < 2 ^ code.k) :
    execRdsa s = withStandardArray code (withEntry (arrayEntry (arrayOf code) a.toNat b.toNat) fun w =>
      succeed (setRes0 (toReg w.bits) (setCode (withArray code) s))) := by
  simp only [execRdsa, withLatched_busy hbusy, withCode_some hcode, indexOperand, ha, hb, decide_true, Bool.and_self,
    withinRange_true]

theorem execRdsa_outOfRange (h : 2 ^ (code.n - code.k) ≤ a.toNat ∨ 2 ^ code.k ≤ b.toNat) :
    execRdsa s = raise .indexOutOfRange s := by
  have hrange : (decide (a.toNat < 2 ^ (code.n - code.k)) && decide (b.toNat < 2 ^ code.k)) = false := by
    simpa [Nat.not_lt, or_iff_not_imp_left] using h
  rw [execRdsa, withLatched_busy hbusy, withCode_some hcode, indexOperand, indexOperand, hrange, withinRange_false]

theorem execRdsa_ok (hinv : CodeInv code) (hnodup : code.cw.Nodup) (ha : a.toNat < 2 ^ (code.n - code.k))
    (hb : b.toNat < 2 ^ code.k) {w : BitWord .code code.n}
    (hw : arrayEntry (standardArray code.k code.cw) a.toNat b.toNat = some w) :
    execRdsa s = succeed (setRes0 (toReg w.bits) (setCode code.arrayBuilt s)) := by
  rw [execRdsa_inRange hbusy hcode ha hb, withStandardArray_of_nodup hnodup, hinv.arrayOf_eq, withEntry_some hw,
    hinv.withArray_eq]

theorem execRdsa_dependent (hrepeat : ¬code.cw.Nodup) (ha : a.toNat < 2 ^ (code.n - code.k))
    (hb : b.toNat < 2 ^ code.k) : execRdsa s = .refused .dependentRows := by
  rw [execRdsa_inRange hbusy hcode ha hb, withStandardArray_of_repeat hrepeat]

end

/-- An array of the right shape has an entry at every index in range. -/
theorem exists_arrayEntry {n k : Nat} {G : List (BitVec n)} (h : (codewordList k G).Nodup) {j p : Nat}
    (hj : j < 2 ^ (n - k)) (hp : p < 2 ^ k) :
    ∃ w, arrayEntry (standardArray k (codewordList k G)) j p = some w := by
  obtain ⟨leaders, hcount, hrows, -⟩ := exists_leaders_standardArray h
  rw [← hcount] at hj
  rw [← length_codewordList k G] at hp
  rw [hrows]
  exact ⟨_, arrayEntry_coset.mpr ⟨_, _, List.getElem?_eq_getElem hj, List.getElem?_eq_getElem hp, rfl⟩⟩

/-- Settles O54: the array of the invariant has its whole shape, so an index in range has an entry. -/
theorem rdsaReadsTheStandardArray : Obligations.RdsaReadsTheStandardArray := by
  refine ⟨fun s c a b code hbusy hcode hinv => ⟨fun hnodup ha hb => ?_, execRdsa_outOfRange hbusy hcode,
      fun ha hb hrepeat => execRdsa_dependent hbusy hcode hrepeat ha hb⟩,
    fun s c a b hbusy hcode => withLatched_withCode_none hbusy hcode _,
    fun w => decode_eq_ok_of_wellFormed (Nat.zero_le _)⟩
  obtain ⟨w, hw⟩ := exists_arrayEntry (hinv.cw_eq ▸ hnodup) ha hb
  rw [← hinv.cw_eq] at hw
  exact ⟨w, hw, execRdsa_ok hbusy hcode hinv hnodup ha hb hw⟩

/-! ### DECODE.SA (R175, R176) -/

/-- The leftmost k bits of a word in a register (R9, R12). -/
theorem toReg_leftBits {n k : Nat} (hk : k ≤ n) (w : BitVec n) :
    toReg (leftBits k w) = BitVec.ofNat 32 (w.toNat / 2 ^ (n - k)) := by
  have hlt : w.toNat / 2 ^ (n - k) < 2 ^ k := by
    rw [Nat.div_lt_iff_lt_mul (Nat.two_pow_pos _), ← Nat.pow_add, Nat.add_sub_cancel' hk]
    exact w.isLt
  rw [toReg, leftBits, BitVec.toNat_ofNat, Nat.shiftRight_eq_div_pow, Nat.mod_eq_of_lt hlt]

section
variable {s : State} {c a b : Reg} {code : Code} {L : Nat} (hbusy : s.eng = .busy c a b) (hcode : s.code = some code)
include hbusy hcode

theorem execDecodeSa_malformed (ha : Malformed s L a) : execDecodeSa L s = raise .malformedInput s := by
  rw [execDecodeSa, withLatched_busy hbusy, withCode_some hcode, withWord_malformed ha]

theorem execDecodeSa_otherLength (hL : L ≤ s.cfg.nMax) (ha : a.toNat < 2 ^ L) (hn : L ≠ code.n) :
    execDecodeSa L s = raise .dimensionMismatch s := by
  rw [execDecodeSa, withLatched_busy hbusy, withCode_some hcode, withWord_ok hL ha, withLength_ne _ _ hn]

theorem execDecodeSa_dependent (hL : code.n ≤ s.cfg.nMax) (ha : a.toNat < 2 ^ code.n) (hrepeat : ¬code.cw.Nodup) :
    execDecodeSa code.n s = .refused .dependentRows := by
  rw [execDecodeSa, withLatched_busy hbusy, withCode_some hcode, withWord_ok hL ha, withLength_self,
    withStandardArray_of_repeat hrepeat]

/-- The two outcomes of a decoding whose leader is e: an error pattern too heavy to trust, or the correction. -/
theorem execDecodeSa_found (hinv : CodeInv code) (hL : code.n ≤ s.cfg.nMax) (ha : a.toNat < 2 ^ code.n)
    (hnodup : code.cw.Nodup) {e v : BitWord .code code.n}
    (hfound : arrayDecode (standardArray code.k code.cw) ⟨BitVec.ofNat code.n a.toNat⟩ = some (e, v)) :
    execDecodeSa code.n s =
      if code.det < weight e.bits then raise .uncorrectableError (setCode code.arrayBuilt s)
      else succeed (setRes1 (toReg e.bits) (setRes0 (toReg (leftBits code.k v.bits)) (setCode code.arrayBuilt s))) := by
  rw [execDecodeSa, withLatched_busy hbusy, withCode_some hcode, withWord_ok hL ha, withLength_self,
    withStandardArray_of_nodup hnodup, hinv.arrayOf_eq, withEntry_some hfound, hinv.withArray_eq]

end

/-- Settles O55: what is found for r is the leader of its coset and their sum, and the threshold decides the outcome. -/
theorem decodeSaReturnsTheCosetLeader : Obligations.DecodeSaReturnsTheCosetLeader := by
  refine ⟨fun s c a b code L hbusy hcode hinv =>
      ⟨?_, ?_, execDecodeSa_malformed hbusy hcode, execDecodeSa_otherLength hbusy hcode⟩,
    fun s c a b L hbusy hcode => withLatched_withCode_none hbusy hcode _, fun L hL => ?_⟩
  · rintro hnodup hL ha rfl
    obtain ⟨e, hfound, hmem, hleast⟩ := arrayDecode_standardArray (hinv.cw_eq ▸ hnodup) ⟨BitVec.ofNat code.n a.toNat⟩
    rw [← hinv.cw_eq] at hfound hmem hleast
    have hexec := execDecodeSa_found hbusy hcode hinv hL ha hnodup hfound
    refine ⟨_, e, by rw [BitVec.toNat_ofNat, Nat.mod_eq_of_lt ha], hmem, hleast, fun hheavy => ?_, fun hlight => ?_⟩
    · exact hexec.trans (if_pos hheavy)
    · rw [if_neg (Nat.not_lt.mpr hlight), toReg_leftBits hinv.k_le_n] at hexec
      exact hexec
  · rintro hrepeat hL ha rfl
    exact execDecodeSa_dependent hbusy hcode hL ha hrepeat
  · simpa [strategy, opcode, Instr.len] using decode_ofNat_fields (i := .decodeSa L) hL

/-! ### The correction radius (R177) -/

theorem weight_le_of_not_precedes {n : Nat} {a b : BitVec n} (h : precedes a b = false) : weight b ≤ weight a := by
  rw [Bool.eq_false_iff, ne_eq, precedes_iff] at h
  omega

/-- Two errors within the radius that differ by a codeword are one: their sum is lighter than every nonzero codeword. -/
theorem CodeInv.error_unique {code : Code} (h : CodeInv code) {e e' : BitWord .code code.n}
    (he : weight e.bits ≤ code.cor) (he' : weight e'.bits ≤ code.cor) (hmem : addWord e e' ∈ code.cw) : e = e' := by
  obtain ⟨hpos, -, hleast⟩ := minDistance_eq_some (h.cw_eq ▸ codewordList_pairwise code.k code.G) h.d_eq
  have hsum : weight (addWord e e').bits ≤ weight e.bits + weight e'.bits := weight_xor_le _ _
  have hcor := h.cor_eq
  by_contra hne
  have hheavy : code.d ≤ weight (addWord e e').bits :=
    hleast _ hmem fun hz => hne (bits_inj.mp (BitVec.xor_eq_zero_iff.mp (congrArg BitWord.bits hz)))
  omega

/-- Settles O56: the leader found for `c ⊕ e` is no heavier than e and differs from it by a codeword, so it is e. -/
theorem decodingCorrectsUpToTheRadius : Obligations.DecodingCorrectsUpToTheRadius := by
  intro s w a b code c e hbusy hcode hinv hnodup hfits hn hc he ha
  have haval : a.toNat = (addWord c e).bits.toNat := by
    have hlt := (addWord c e).bits.isLt.trans_le (Nat.pow_le_pow_right Nat.two_pos hn)
    rw [ha, BitVec.toNat_ofNat, Nat.mod_eq_of_lt hlt]
  obtain ⟨r, e', hr, hmem, hleast, -, hok⟩ :=
    (decodeSaReturnsTheCosetLeader.1 s w a b code code.n hbusy hcode hinv).1 hnodup hfits
      (haval ▸ (addWord c e).bits.isLt) rfl
  obtain rfl : r = addWord c e := bits_inj.mp (BitVec.eq_of_toNat_eq (hr.trans haval))
  have hlight : weight e'.bits ≤ weight e.bits := by
    simpa [addWord_addWord_left] using weight_le_of_not_precedes (hleast c hc)
  have hsum : addWord e e' ∈ code.cw := by
    have hclosed := addWord_mem_codewordList (hinv.cw_eq ▸ hc) (hinv.cw_eq ▸ hmem)
    rwa [addWord_assoc, addWord_cancel_left, ← hinv.cw_eq] at hclosed
  obtain rfl := hinv.error_unique he (hlight.trans he) hsum
  have htrust : weight e.bits ≤ code.det := by
    have hcor := hinv.cor_eq
    have hdet := hinv.det_eq
    omega
  simpa [addWord_addWord_right] using hok htrust

end Sys2Proof.Machine
end

section
/-! PROOFS. The syndrome_decoder unit (44_syndrome_decoder.md): the contents of the syndrome table (R190, R191, O57),
RDST (O58), DECODE.ST (O59) and the agreement of the two decoders (O60). -/

namespace Sys2Proof.Machine

/-! ### The contents of the syndrome table (R190, R191) -/

theorem precedes_asymm {L : Nat} {a b : BitVec L} (h : precedes a b = true) : precedes b a = false := by
  rw [precedes_iff] at h
  rw [Bool.eq_false_iff, ne_eq, precedes_iff]
  omega

section
variable {n m : Nat}

theorem tableLookup_append_singleton (st : List (BitWord .syndrome m × BitWord .code n)) (v s : BitWord .syndrome m)
    (x : BitWord .code n) :
    tableLookup (st ++ [(s, x)]) v = (tableLookup st v).or (if s = v then some x else none) := by
  induction st with
  | nil => simp [tableLookup]
  | cons entry st ih =>
    obtain ⟨t, y⟩ := entry
    rw [List.cons_append, tableLookup, tableLookup, ih]
    by_cases h : t = v <;> simp [h]

variable {H : List (BitVec n)} {v : BitWord .syndrome m} {e : BitWord .code n}

/-- What the loop leaves under a syndrome stood there before, or is the first scanned word that has the syndrome. -/
theorem tableLookup_fillTable {rows : Nat} (ws : List (BitWord .code n))
    (st : List (BitWord .syndrome m × BitWord .code n)) (h : tableLookup (fillTable H rows ws st) v = some e) :
    (tableLookup st v).or (ws.find? fun x => syndromeWord m H x = v) = some e := by
  fun_induction fillTable H rows ws st with
  | case1 => simpa using h
  | case2 => rw [h, Option.some_or]
  | case3 x rest st _ hold ih =>
    specialize ih h
    by_cases hx : syndromeWord m H x = v
    · rw [hx] at hold
      rwa [Option.or_of_isSome hold] at ih ⊢
    · rwa [List.find?_cons_of_neg (by simpa using hx)]
  | case4 x rest st _ _ ih =>
    specialize ih h
    rw [tableLookup_append_singleton, Option.or_assoc] at ih
    by_cases hx : syndromeWord m H x = v <;> simpa [hx] using ih

/-- An entry is the ≺-least word of its syndrome (R191): the scan meets the words in ≺ order. -/
theorem tableLookup_syndromeTable_least (h : tableLookup (syndromeTable m H) v = some e) :
    syndromeWord m H e = v ∧ ∀ x, syndromeWord m H x = v → precedes x.bits e.bits = false := by
  have hfind : (scanWords .code n).find? (fun x => syndromeWord m H x = v) = some e := tableLookup_fillTable _ [] h
  obtain ⟨he, before, after, hscan, hbefore⟩ := List.find?_eq_some_iff_append.mp hfind
  refine ⟨of_decide_eq_true he, fun x hx => ?_⟩
  have hsorted := scanWords_pairwise_precedes .code n
  have hmem := mem_scanWords x
  rw [hscan] at hsorted hmem
  obtain ⟨-, hsuffix, -⟩ := List.pairwise_append.mp hsorted
  rw [List.mem_append, List.mem_cons] at hmem
  obtain hmem | rfl | hmem := hmem
  · simpa [hx] using hbefore x hmem
  · exact precedes_irrefl _
  · exact precedes_asymm (List.rel_of_pairwise_cons hsuffix hmem)

end

section
variable {n k : Nat} {G : List (BitVec n)}

/-- Every syndrome is that of some word (R155), so it has an entry, which is the ≺-least word with it. -/
theorem exists_tableLookup (hk : k ≤ n) (v : BitWord .syndrome (n - k)) :
    ∃ e, tableLookup (syndromeTable (n - k) (parityMatrix k G)) v = some e ∧
      syndromeWord (n - k) (parityMatrix k G) e = v ∧
      ∀ x : BitWord .code n, syndromeWord (n - k) (parityMatrix k G) x = v → precedes x.bits e.bits = false := by
  have hsome := tableLookup_syndromeTable_isSome (n - k) (parityMatrix k G) ⟨v.bits.setWidth n⟩
  rw [syndromeWord_setWidth hk] at hsome
  obtain ⟨e, he⟩ := Option.isSome_iff_exists.mp hsome
  exact ⟨e, he, tableLookup_syndromeTable_least he⟩

/-- The keys are the syndromes, each once. -/
theorem keys_syndromeTable_perm (hk : k ≤ n) :
    ((syndromeTable (n - k) (parityMatrix k G)).map Prod.fst).Perm (allWords .syndrome (n - k)) := by
  have hnodup : ((syndromeTable (n - k) (parityMatrix k G)).map Prod.fst).Nodup :=
    nodup_keys_fillTable _ [] List.nodup_nil
  refine (List.perm_ext_iff_of_nodup hnodup (nodup_allWords _ _)).mpr fun v => iff_of_true ?_ (mem_allWords v)
  obtain ⟨e, he, -⟩ := exists_tableLookup (G := G) hk v
  exact tableLookup_isSome.mp (Option.isSome_of_eq_some he)

end

/-- Settles O57: the keys are a permutation of all syndromes, and the scan in ≺ order enters the least word of each. -/
theorem syndromeTableHoldsTheLeastWords : Obligations.SyndromeTableHoldsTheLeastWords := by
  intro n k G hk
  have hkeys := keys_syndromeTable_perm (G := G) hk
  exact ⟨by simpa using hkeys.length_eq, hkeys.nodup_iff.mpr (nodup_allWords _ _), exists_tableLookup hk⟩

/-! ### RDST (R193) -/

theorem CodeInv.withTable_eq {code : Code} (h : CodeInv code) : Machine.withTable code = code.tableBuilt := by
  cases hst : code.st with
  | none => rw [Machine.withTable, hst, Code.tableBuilt, h.parityOf_eq, h.tableOf_eq]
  | some st =>
    obtain ⟨rfl, hvalid⟩ := h.st_eq st hst
    obtain ⟨H, hH⟩ := Option.isSome_iff_exists.mp hvalid
    obtain rfl := h.H_eq H hH
    rw [Machine.withTable_valid (Option.isSome_of_eq_some hst), Code.tableBuilt, ← hst, ← hH]

/-- The word `word_m(a)` of a value in range is the only one with that value (R8). -/
theorem bits_toNat_eq_iff {role : Role} {m i : Nat} (hi : i < 2 ^ m) {v : BitWord role m} :
    v.bits.toNat = i ↔ v = ⟨BitVec.ofNat m i⟩ := by
  rw [BitVec.toNat_eq_nat, and_iff_right hi]
  exact bits_inj (b := ⟨BitVec.ofNat m i⟩)

section
variable {s : State} {c a b : Reg} {code : Code} (hbusy : s.eng = .busy c a b) (hcode : s.code = some code)
include hbusy hcode

theorem execRdst_ok (hinv : CodeInv code) (ha : a.toNat < 2 ^ (code.n - code.k)) {e : BitWord .code code.n}
    (he : tableLookup (syndromeTable (code.n - code.k) (parityMatrix code.k code.G))
      ⟨BitVec.ofNat (code.n - code.k) a.toNat⟩ = some e) :
    execRdst s = succeed (setRes0 (toReg e.bits) (setCode code.tableBuilt s)) := by
  rw [execRdst, withLatched_busy hbusy, withCode_some hcode, indexOperand, withinRange_of_lt ha, hinv.tableOf_eq,
    withEntry_some he, hinv.withTable_eq]

theorem execRdst_outOfRange (ha : 2 ^ (code.n - code.k) ≤ a.toNat) : execRdst s = raise .indexOutOfRange s := by
  rw [execRdst, withLatched_busy hbusy, withCode_some hcode, indexOperand, withinRange_of_ge ha]

end

/-- Settles O58: the entry of the syndrome of value OPA is the ≺-least word whose syndrome has that value. -/
theorem rdstReadsTheSyndromeTable : Obligations.RdstReadsTheSyndromeTable := by
  refine ⟨fun s c a b code hbusy hcode hinv => ⟨fun ha => ?_, execRdst_outOfRange hbusy hcode⟩,
    fun s c a b hbusy hcode => withLatched_withCode_none hbusy hcode _,
    fun w => decode_eq_ok_of_wellFormed (Nat.zero_le _)⟩
  obtain ⟨e, hlookup, he, hleast⟩ := exists_tableLookup (G := code.G) hinv.k_le_n ⟨BitVec.ofNat _ a.toNat⟩
  exact ⟨e, (bits_toNat_eq_iff ha).mpr he, fun x hx => hleast x ((bits_toNat_eq_iff ha).mp hx),
    execRdst_ok hbusy hcode hinv ha hlookup⟩

/-! ### DECODE.ST (R194, R195) -/

section
variable {s : State} {c a b : Reg} {code : Code} {L : Nat} (hbusy : s.eng = .busy c a b) (hcode : s.code = some code)
include hbusy hcode

theorem execDecodeSt_malformed (ha : Malformed s L a) : execDecodeSt L s = raise .malformedInput s := by
  rw [execDecodeSt, withLatched_busy hbusy, withCode_some hcode, withWord_malformed ha]

theorem execDecodeSt_otherLength (hL : L ≤ s.cfg.nMax) (ha : a.toNat < 2 ^ L) (hn : L ≠ code.n) :
    execDecodeSt L s = raise .dimensionMismatch s := by
  rw [execDecodeSt, withLatched_busy hbusy, withCode_some hcode, withWord_ok hL ha, withLength_ne _ _ hn]

/-- The two outcomes of a decoding whose table entry is e: an error pattern past the threshold, or the correction. -/
theorem execDecodeSt_found (hinv : CodeInv code) (hL : code.n ≤ s.cfg.nMax) (ha : a.toNat < 2 ^ code.n)
    {e : BitWord .code code.n} (he : tableLookup (syndromeTable (code.n - code.k) (parityMatrix code.k code.G))
      (syndromeWord (code.n - code.k) (parityMatrix code.k code.G) ⟨BitVec.ofNat code.n a.toNat⟩) = some e) :
    execDecodeSt code.n s =
      if s.cfg.stCheck && code.det < weight e.bits then raise .uncorrectableError (setCode code.tableBuilt s)
      else succeed (setRes1 (toReg e.bits)
        (setRes0 (toReg (leftBits code.k (addWord ⟨BitVec.ofNat code.n a.toNat⟩ e).bits))
          (setCode code.tableBuilt s))) := by
  rw [execDecodeSt, withLatched_busy hbusy, withCode_some hcode, withWord_ok hL ha, withLength_self, hinv.tableOf_eq,
    hinv.syndromeOf_eq, he, hinv.withTable_eq]

end

/-- Settles O59: the entry of r's syndrome is the ≺-least word with it, and the threshold decides the outcome. -/
theorem decodeStReturnsTheSyndromeLeader : Obligations.DecodeStReturnsTheSyndromeLeader := by
  refine ⟨fun s c a b code L hbusy hcode hinv =>
      ⟨?_, execDecodeSt_malformed hbusy hcode, execDecodeSt_otherLength hbusy hcode⟩,
    fun s c a b L hbusy hcode => withLatched_withCode_none hbusy hcode _, fun L hL => ?_⟩
  · rintro hL ha rfl
    obtain ⟨e, hlookup, he, hleast⟩ := exists_tableLookup (G := code.G) hinv.k_le_n
      (syndromeWord _ (parityMatrix code.k code.G) ⟨BitVec.ofNat code.n a.toNat⟩)
    have hexec := execDecodeSt_found hbusy hcode hinv hL ha hlookup
    refine ⟨_, e, (bits_toNat_eq_iff ha).mpr rfl, he, hleast, fun hcheck hheavy => ?_, fun hpass => ?_⟩
    · exact hexec.trans (if_pos (by simp [hcheck, hheavy]))
    · rw [if_neg (by simpa [or_iff_not_imp_left] using hpass), toReg_leftBits hinv.k_le_n] at hexec
      exact hexec
  · simpa [strategy, opcode, Instr.len] using decode_ofNat_fields (i := .decodeSt L) hL

/-! ### The two decoders (R196) -/

/-- In standard form the entry of r's syndrome is the leader of r's coset (R191): both are the ≺-least word of
one set. -/
theorem arrayDecode_eq_of_tableLookup {n k : Nat} {G : List (BitVec n)} (hk : k ≤ n) (hG : standardForm k G = true)
    {r e : BitWord .code n} (he : tableLookup (syndromeTable (n - k) (parityMatrix k G))
      (syndromeWord (n - k) (parityMatrix k G) r) = some e) :
    arrayDecode (standardArray k (codewordList k G)) r = some (e, addWord r e) := by
  obtain ⟨hsyn, hleast⟩ := tableLookup_syndromeTable_least he
  obtain ⟨e', hfound, hmem, hleast'⟩ := arrayDecode_standardArray (nodup_codewordList hk hG) r
  have hnot : precedes e'.bits e.bits = false := hleast e' ((syndromeWord_eq_iff_mem hk hG r e').mpr hmem).symm
  have hnot' : precedes e.bits e'.bits = false := by
    simpa [addWord_cancel_left] using hleast' _ ((syndromeWord_eq_iff_mem hk hG r e).mp hsyn.symm)
  have heq : e' = e := by
    by_contra hne
    simpa [hnot, hnot'] using precedes_total (mt bits_inj.mp hne)
  rw [hfound, heq]

/-- Settles O60: the operand checks are the same, and past them both decoders find the same e for r. -/
theorem bothDecodersAgree : Obligations.BothDecodersAgree := by
  intro s c a b code L hbusy hcode hinv hG hcheck
  by_cases hbad : Malformed s L a
  · exact ⟨_, _, execDecodeSa_malformed hbusy hcode hbad, execDecodeSt_malformed hbusy hcode hbad, rfl, rfl, rfl⟩
  obtain ⟨hL, ha⟩ : L ≤ s.cfg.nMax ∧ a.toNat < 2 ^ L := by simpa using hbad
  by_cases hn : L = code.n
  · subst hn
    have hk := hinv.k_le_n
    obtain ⟨e, hlookup, -⟩ := exists_tableLookup (G := code.G) hk
      (syndromeWord _ (parityMatrix code.k code.G) ⟨BitVec.ofNat code.n a.toNat⟩)
    have hfound := arrayDecode_eq_of_tableLookup hk hG hlookup
    rw [← hinv.cw_eq] at hfound
    have hSa := execDecodeSa_found hbusy hcode hinv hL ha (hinv.cw_eq ▸ nodup_codewordList hk hG) hfound
    have hSt := execDecodeSt_found hbusy hcode hinv hL ha hlookup
    by_cases hheavy : code.det < weight e.bits
    · exact ⟨_, _, hSa.trans (if_pos hheavy), hSt.trans (if_pos (by simp [hcheck, hheavy])), rfl, rfl, rfl⟩
    · exact ⟨_, _, hSa.trans (if_neg hheavy), hSt.trans (if_neg (by simp [hheavy])), rfl, rfl, rfl⟩
  · exact ⟨_, _, execDecodeSa_otherLength hbusy hcode hL ha hn, execDecodeSt_otherLength hbusy hcode hL ha hn,
      rfl, rfl, rfl⟩

end Sys2Proof.Machine
end

section
/-! PROOFS. NOP (R210): its completion, its one word, and the other words with OPC 0 (O39). -/

namespace Sys2Proof

theorem decode_eq_nop {w : Reg} : decode w = .ok .nop ↔ w = 0 := by
  have hword : encode .nop = 0 := by decide
  rw [decode_eq_ok, hword]
  exact ⟨fun h => h.2.symm, fun h => ⟨Nat.zero_le _, h.symm⟩⟩

/-- With OPC 0 every other field of a legal word is 0 as well: STRAT and LEN are for other opcodes (R84). -/
theorem eq_zero_of_legal {w : Reg} (hlegal : legal w = true) (hopc : w.toNat % 256 = 0) : w = 0 := by
  obtain ⟨hrsv1, hrsv0, -, hstrat, hlen⟩ := legal_iff_digits.mp hlegal
  have hstrat0 : w.toNat / 65536 % 2 = 0 := hstrat.resolve_right (by simp [hopc])
  have hlen0 : w.toNat / 256 % 32 = 0 := hlen.resolve_right (by simp [hopc])
  exact BitVec.eq_of_toNat_eq (show w.toNat = 0 by omega)

end Sys2Proof

namespace Sys2Proof.Machine

theorem execNop_ok {s : State} {c a b : Reg} (hbusy : s.eng = .busy c a b) : execNop s = succeed s := by
  rw [execNop, withLatched_busy hbusy]

/-- Settles O39: NOP's rule has no check, and a word with OPC 0 is legal only as NOP's word. -/
theorem nopCompletesWithoutEffect : Obligations.NopCompletesWithoutEffect := by
  refine ⟨fun s c a b hbusy => execNop_ok hbusy, fun w => decode_eq_nop, fun s w a b hbusy hopc hne => ?_⟩
  have hillegal : legal w = false := Bool.eq_false_iff.mpr fun hlegal => hne (eq_zero_of_legal hlegal hopc)
  exact legalWordsDecodeAndOthersAreIllegal.2 s w a b hbusy hillegal

end Sys2Proof.Machine
end

section
/-! PROOFS. Every command completes on a block with P_SF_CHECK = 1 (O18): past its checks each table that a command
reads has the entry, and the standard array's codewords are distinct (R134, U9). -/

namespace Sys2Proof.Machine

/-- The command completes: a next state, with the engine idle (R220), and neither a fault nor a refusal. -/
def Completes (o : Host.Outcome State Fault Refusal) : Prop := ∃ t, o = .next t ∧ t.eng = .idle

/-! ### The shared operations complete -/

section Shared

variable {s : State}

theorem completes_succeed (s : State) : Completes (succeed s) := ⟨_, rfl, rfl⟩

theorem completes_raise (e : ErrorKind) (s : State) : Completes (raise e s) := ⟨_, rfl, rfl⟩

theorem completes_ite {p : Prop} [Decidable p] {o o' : Host.Outcome State Fault Refusal} (h : Completes o)
    (h' : Completes o') : Completes (if p then o else o') := by
  split
  · exact h
  · exact h'

theorem completes_withLatched {c a b : Reg} {f : Reg → Reg → Host.Outcome State Fault Refusal}
    (hbusy : s.eng = .busy c a b) (hf : Completes (f a b)) : Completes (withLatched s f) := by
  rwa [withLatched_busy hbusy]

theorem completes_withCode {f : Code → Host.Outcome State Fault Refusal}
    (hf : ∀ c, s.code = some c → Completes (f c)) : Completes (withCode s f) := by
  unfold withCode
  split
  · exact hf _ ‹_›
  · exact completes_raise _ s

theorem completes_withWord {role : Role} {v : Reg} {L : Nat} {f : BitWord role L → Host.Outcome State Fault Refusal}
    (hf : ∀ w, Completes (f w)) : Completes (withWord role v L s f) := by
  unfold withWord
  split
  · exact hf _
  · exact completes_raise _ s

theorem completes_withLength {role : Role} {L required : Nat} {w : BitWord role L}
    {f : BitWord role required → Host.Outcome State Fault Refusal} (hf : ∀ w', Completes (f w')) :
    Completes (withLength w required s f) := by
  unfold withLength
  split
  · exact hf _
  · exact completes_raise _ s

theorem completes_withinRange {p : Bool} {k : Host.Outcome State Fault Refusal} (hk : p = true → Completes k) :
    Completes (withinRange p s k) := by
  cases p with
  | true => exact hk rfl
  | false => exact completes_raise _ s

theorem completes_withEntry {α : Type} {entry : Option α} {f : α → Host.Outcome State Fault Refusal}
    (hentry : ∃ x, entry = some x) (hf : ∀ x, Completes (f x)) : Completes (withEntry entry f) := by
  obtain ⟨x, hx⟩ := hentry
  rw [withEntry_some hx]
  exact hf x

theorem completes_withStandardArray {c : Code} {k : Host.Outcome State Fault Refusal} (hnodup : c.cw.Nodup)
    (hk : Completes k) : Completes (withStandardArray c k) := by
  rwa [withStandardArray_of_nodup hnodup]

end Shared

/-! ### The tables of an installed code have their entries (U9) -/

section Tables

variable {c : Code} (h : CodeInv c)
include h

theorem CodeInv.exists_generatorRow {r : Nat} (hr : r < c.k) : ∃ row, c.G[r]? = some row :=
  ⟨_, List.getElem?_eq_getElem (h.rows ▸ hr)⟩

theorem CodeInv.exists_parityRow {r : Nat} (hr : r < c.n - c.k) : ∃ row, (parityOf c)[r]? = some row := by
  rw [h.parityOf_eq]
  exact ⟨_, List.getElem?_eq_getElem (by rwa [length_parityMatrix])⟩

theorem CodeInv.exists_codeword {i : Nat} (hi : i < 2 ^ c.k) : ∃ w, c.cw[i]? = some w := by
  rw [h.cw_eq]
  exact ⟨_, List.getElem?_eq_getElem (by rwa [length_codewordList])⟩

theorem CodeInv.exists_cosetWord (hnodup : c.cw.Nodup) {j p : Nat} (hj : j < 2 ^ (c.n - c.k)) (hp : p < 2 ^ c.k) :
    ∃ w, arrayEntry (arrayOf c) j p = some w := by
  rw [h.arrayOf_eq, h.cw_eq]
  exact exists_arrayEntry (h.cw_eq ▸ hnodup) hj hp

theorem CodeInv.exists_correction (hnodup : c.cw.Nodup) (r : BitWord .code c.n) :
    ∃ found, arrayDecode (arrayOf c) r = some found := by
  obtain ⟨e, hfound, -⟩ := arrayDecode_standardArray (h.cw_eq ▸ hnodup) r
  rw [h.arrayOf_eq, h.cw_eq]
  exact ⟨_, hfound⟩

theorem CodeInv.exists_leader (v : BitWord .syndrome (c.n - c.k)) : ∃ e, tableLookup (tableOf c) v = some e := by
  obtain ⟨e, he, -⟩ := exists_tableLookup (G := c.G) h.k_le_n v
  rw [h.tableOf_eq]
  exact ⟨e, he⟩

end Tables

/-- Under P_SF_CHECK = 1 the generator is in standard form, so its codewords are distinct (R123, D31). -/
theorem CodeFits.nodup_cw {p : Params} {c : Code} (h : CodeFits p c) (hp : p.sfCheck = true) : c.cw.Nodup := by
  rw [h.inv.cw_eq]
  exact nodup_codewordList h.inv.k_le_n (h.standard hp)

/-! ### The commands complete -/

theorem installCode_completes (n k : Nat) (G : List (BitVec n)) (s : State) : Completes (installCode n k G s) := by
  refine completes_ite (completes_raise _ s) (completes_ite (completes_raise _ s) ?_)
  split
  · exact completes_raise _ s
  · exact completes_succeed _

theorem execGload_completes {s : State} {c a b : Reg} (hbusy : s.eng = .busy c a b) (len : Nat) :
    Completes (execGload len s) := by
  refine completes_withLatched hbusy (completes_ite (completes_raise _ s) (completes_ite (completes_raise _ s)
    (completes_ite (completes_raise _ s) ?_)))
  split
  · exact completes_raise _ s
  · exact installCode_completes ..

theorem execContains_completes {s : State} {c a b : Reg} (hbusy : s.eng = .busy c a b) (len : Nat) :
    Completes (execContains len s) := by
  refine completes_withLatched hbusy (completes_withCode fun _ _ => completes_withWord fun _ => ?_)
  split <;> exact completes_succeed _

theorem execDecodeSt_completes {s : State} {c a b : Reg} (hbusy : s.eng = .busy c a b) (len : Nat) :
    Completes (execDecodeSt len s) := by
  refine completes_withLatched hbusy (completes_withCode fun _ _ => completes_withWord fun _ =>
    completes_withLength fun _ => ?_)
  split
  · exact completes_raise _ _
  · exact completes_ite (completes_raise _ _) (completes_succeed _)

/-- A command in flight completes where an installed code meets its invariant and has distinct codewords. -/
theorem exec_completes {s : State} {c a b : Reg} (hbusy : s.eng = .busy c a b)
    (hinv : ∀ c, s.code = some c → CodeInv c) (hnodup : ∀ c, s.code = some c → c.cw.Nodup) (i : Instr) :
    Completes (exec i s) := by
  cases i with
  | nop => exact completes_withLatched hbusy (completes_succeed s)
  | grow len =>
    exact completes_withLatched hbusy (completes_withWord fun _ => completes_withinRange fun _ => completes_succeed _)
  | gload len => exact execGload_completes hbusy len
  | encode len | synd len =>
    exact completes_withLatched hbusy (completes_withCode fun _ _ => completes_withWord fun _ =>
      completes_withLength fun _ => completes_succeed _)
  | contains len => exact execContains_completes hbusy len
  | decodeSa len =>
    exact completes_withLatched hbusy (completes_withCode fun c hc => completes_withWord fun _ =>
      completes_withLength fun r => completes_withStandardArray (hnodup c hc)
        (completes_withEntry ((hinv c hc).exists_correction (hnodup c hc) r) fun _ =>
          completes_ite (completes_raise _ _) (completes_succeed _)))
  | decodeSt len => exact execDecodeSt_completes hbusy len
  | props => exact completes_withLatched hbusy (completes_withCode fun _ _ => completes_succeed _)
  | rdg =>
    exact completes_withLatched hbusy (completes_withCode fun c hc => completes_withinRange fun ha =>
      completes_withEntry ((hinv c hc).exists_generatorRow (of_decide_eq_true ha)) fun _ => completes_succeed _)
  | rdh =>
    exact completes_withLatched hbusy (completes_withCode fun c hc => completes_withinRange fun ha =>
      completes_withEntry ((hinv c hc).exists_parityRow (of_decide_eq_true ha)) fun _ => completes_succeed _)
  | rdcw =>
    exact completes_withLatched hbusy (completes_withCode fun c hc => completes_withinRange fun ha =>
      completes_withEntry ((hinv c hc).exists_codeword (of_decide_eq_true ha)) fun _ => completes_succeed _)
  | rdsa =>
    refine completes_withLatched hbusy (completes_withCode fun c hc => completes_withinRange fun hab => ?_)
    obtain ⟨ha, hb⟩ := Bool.and_eq_true_iff.mp hab
    exact completes_withStandardArray (hnodup c hc) (completes_withEntry ((hinv c hc).exists_cosetWord (hnodup c hc)
      (of_decide_eq_true ha) (of_decide_eq_true hb)) fun _ => completes_succeed _)
  | rdst =>
    exact completes_withLatched hbusy (completes_withCode fun c hc => completes_withinRange fun _ =>
      completes_withEntry ((hinv c hc).exists_leader _) fun _ => completes_succeed _)
  | weight len => exact completes_withLatched hbusy (completes_withWord fun _ => completes_succeed _)
  | hdist len =>
    exact completes_withLatched hbusy (completes_withWord fun _ => completes_withWord fun _ => completes_succeed _)

theorem complete_completes {s : State} {c a b : Reg} (hs : StateInv s) (hsf : s.cfg.sfCheck = true)
    (hbusy : s.eng = .busy c a b) (w : Reg) : Completes (complete w s) := by
  obtain ⟨i, -, hexec⟩ | ⟨-, hraise⟩ := complete_cases w s
  · rw [hexec]
    exact exec_completes hbusy hs.code_inv (fun _ hc => (hs.codeFits hc).nodup_cw hsf) i
  · rw [hraise]
    exact completes_raise _ s

/-- Settles O18: the engine's step is the completion of the latched word, legal or not. -/
theorem noCommandFailsToComplete : Obligations.NoCommandFailsToComplete := by
  intro s c a b hs hsf hbusy
  rw [engineTurn, hbusy]
  exact complete_completes hs hsf hbusy c

end Sys2Proof.Machine
end

section
/-! PROOFS. Completions: the bookkeeping and the frame of every command as one record (O8), what a failed command leaves
(O9), the error codes (O29) and the interrupt (O30). -/

namespace Sys2Proof.Machine

/-! ### The books of a completion (R220) -/

/-- Beside the bookkeeping a completion writes at most the staging rows, the code and the result registers. -/
theorem Effect.eq_completion {i : Instr} {s t : State} (h : Effect s i t) :
    t = { completion t.err s with gs := t.gs, code := t.code, res0 := t.res0, res1 := t.res1 } := by
  cases h <;> rfl

/-- Settles O8: the fields named are those of the completion's record. -/
theorem everyCompletionKeepsTheBooks : Obligations.EveryCompletionKeepsTheBooks := by
  intro i s t hexec
  rw [(exec_effect hexec).eq_completion]
  exact ⟨rfl, rfl, BitVec.toNat_add .., rfl, rfl, rfl, rfl, rfl, rfl, rfl, rfl, rfl, rfl, rfl⟩

/-! ### What a failed command leaves (R222) -/

/-- A failed command leaves the state but for its completion or, in a decoder, the code it has built. -/
theorem Effect.failed_cases {i : Instr} {s t : State} (h : Effect s i t) (herr : t.err ≠ none) :
    t = completion t.err s ∨
      ∃ c c', s.code = some c ∧ Builds i c c' ∧ decodes i = true ∧ t = completion t.err (setCode c' s) := by
  cases h
  case failed => exact .inl rfl
  case failedBuilt c c' e hc hb hi => exact .inr ⟨c, c', hc, hb, hi, rfl⟩
  all_goals exact absurd rfl herr

/-- The code `o` is c with its lazy caches kept, but for those the decoder i builds: such a cache was not valid and is
what its build rule gives (R222, R34). -/
def CachesKeptOrBuilt (i : Instr) (c : Code) (o : Option Code) : Prop :=
  ∃ (H : Option (List (BitVec c.n))) (sa : Option (List (List (BitWord .code c.n))))
    (st : Option (List (BitWord .syndrome (c.n - c.k) × BitWord .code c.n))),
    o = some { c with H := H, sa := sa, st := st } ∧
      (H = c.H ∨ (c.H = none ∧ H = some (parityMatrix c.k c.G) ∧ ∃ len, i = .decodeSt len)) ∧
      (sa = c.sa ∨ (c.sa = none ∧ sa = some (standardArray c.k c.cw) ∧ ∃ len, i = .decodeSa len)) ∧
      (st = c.st ∨ (c.st = none ∧ (∃ M, H = some M ∧ st = some (syndromeTable (c.n - c.k) M)) ∧
        ∃ len, i = .decodeSt len))

theorem cachesKeptOrBuilt_self (i : Instr) (c : Code) : CachesKeptOrBuilt i c (some c) :=
  ⟨c.H, c.sa, c.st, rfl, .inl rfl, .inl rfl, .inl rfl⟩

theorem some_parityOf (c : Code) :
    some (parityOf c) = c.H ∨ c.H = none ∧ some (parityOf c) = some (parityMatrix c.k c.G) := by
  cases hH : c.H with
  | none => exact .inr ⟨rfl, by rw [parityOf, hH]⟩
  | some H => exact .inl (by rw [parityOf, hH])

theorem some_arrayOf (c : Code) :
    some (arrayOf c) = c.sa ∨ c.sa = none ∧ some (arrayOf c) = some (standardArray c.k c.cw) := by
  cases hsa : c.sa with
  | none => exact .inr ⟨rfl, by rw [arrayOf, hsa]⟩
  | some sa => exact .inl (by rw [arrayOf, hsa])

theorem cachesKeptOrBuilt_withArray (len : Nat) (c : Code) :
    CachesKeptOrBuilt (.decodeSa len) c (some (withArray c)) := by
  refine ⟨c.H, some (arrayOf c), c.st, rfl, .inl rfl, ?_, .inl rfl⟩
  exact (some_arrayOf c).imp_right fun ⟨hsa, hbuilt⟩ => ⟨hsa, hbuilt, len, rfl⟩

theorem cachesKeptOrBuilt_withTable (len : Nat) (c : Code) :
    CachesKeptOrBuilt (.decodeSt len) c (some (withTable c)) := by
  cases hst : c.st with
  | some st =>
    rw [withTable_valid (Option.isSome_of_eq_some hst)]
    exact cachesKeptOrBuilt_self _ c
  | none =>
    have htable : tableOf c = syndromeTable (c.n - c.k) (parityOf c) := by rw [tableOf, hst]
    refine ⟨some (parityOf c), c.sa, some (tableOf c), by rw [withTable, hst], ?_, .inl rfl,
      .inr ⟨hst, ⟨_, rfl, congrArg some htable⟩, len, rfl⟩⟩
    exact (some_parityOf c).imp_right fun ⟨hH, hbuilt⟩ => ⟨hH, hbuilt, len, rfl⟩

theorem Builds.cachesKeptOrBuilt {i : Instr} {c c' : Code} (h : Builds i c c') (hi : decodes i = true) :
    CachesKeptOrBuilt i c (some c') := by
  cases h
  case decodeSa len _ => exact cachesKeptOrBuilt_withArray len c
  case decodeSt len => exact cachesKeptOrBuilt_withTable len c
  all_goals cases hi

/-- Settles O9: a failed command leaves the code it found, or the one a decoder has built from it. -/
theorem errorsArePrecise : Obligations.ErrorsArePrecise := by
  intro i s t hexec herr
  obtain ht | ⟨c, c', hc, hb, hi, ht⟩ := (exec_effect hexec).failed_cases herr
  · have hcode : t.code = s.code := by rw [ht]; rfl
    exact ⟨by rw [hcode]; exact ht, hcode.trans, fun c hc => hcode ▸ hc ▸ cachesKeptOrBuilt_self i c⟩
  · have hcode : t.code = some c' := by rw [ht]; rfl
    refine ⟨by rw [hcode]; exact ht, fun hnone => ?_, fun c₀ hc₀ => ?_⟩
    · rw [hc] at hnone
      cases hnone
    · obtain rfl := Option.some.inj (hc.symm.trans hc₀)
      exact hcode ▸ hb.cachesKeptOrBuilt hi

/-! ### The error codes (R221) -/

/-- R221's table: the outcomes in the order of their numbers. -/
def outcomes : List (Option ErrorKind) :=
  [none, some .malformedInput, some .dimensionMismatch, some .invalidCode, some .propertyDerivationFailed,
    some .uncorrectableError, some .lookupTableCorrupt, some .notLoaded, some .notStandardForm, some .indexOutOfRange,
    some .illegalCommand]

/-- An outcome stands in the table at its error code. -/
theorem outcomes_errorCode (e : Option ErrorKind) : outcomes[(errorCode e).toNat]? = some e := by
  cases e with
  | none => rfl
  | some e => cases e <;> rfl

theorem errorCode_injective : Function.Injective errorCode := fun e e' h =>
  Option.some.inj ((outcomes_errorCode e).symm.trans (h ▸ outcomes_errorCode e'))

theorem errorCode_le (e : Option ErrorKind) : (errorCode e).toNat ≤ 10 := by
  obtain ⟨hlt, -⟩ := List.getElem?_eq_some_iff.mp (outcomes_errorCode e)
  exact Nat.le_of_lt_succ hlt

/-- Settles O29: the code is the outcome's place in the table, and STATUS.ERR shows the completed outcome's code. -/
theorem errorCodesTellOutcomesApart : Obligations.ErrorCodesTellOutcomesApart := by
  refine ⟨by decide, fun e s => ?_, fun _ _ h => errorCode_injective h, errorCode_le⟩
  obtain ⟨-, -, -, -, -, herr, -⟩ := statusWord_fields (completion e s)
  exact herr

/-! ### The interrupt (R230) -/

theorem irq_iff {s : State} : irq s = true ↔ s.ie = true ∧ s.done = true := by rw [irq, Bool.and_eq_true]

theorem Effect.irq_eq {i : Instr} {s t : State} (h : Effect s i t) : irq t = s.ie := by
  rw [h.eq_completion]
  exact Bool.and_true _

/-- Settles O30: a completion sets DONE and keeps IE. -/
theorem interruptFollowsEnableAndDone : Obligations.InterruptFollowsEnableAndDone :=
  ⟨fun _ => irq_iff, fun _ _ _ hexec => (exec_effect hexec).irq_eq⟩

end Sys2Proof.Machine
end

section
/-! PROOFS. NotLoaded (R224): the commands that need a code report it without one, and it is reported nowhere else
(O12). -/

namespace Sys2Proof.Machine

/-- The eleven commands that R224 lists. -/
def needsCode : Instr → Bool
  | .nop | .grow _ | .gload _ | .weight _ | .hdist _ => false
  | _ => true

/-- Without a code NotLoaded comes before every other check (R223, R224). -/
theorem exec_notLoaded {i : Instr} {s : State} {c a b : Reg} (hbusy : s.eng = .busy c a b) (hcode : s.code = none)
    (hi : needsCode i = true) : exec i s = raise .notLoaded s := by
  cases i
  case nop | grow | gload | weight | hdist => cases hi
  all_goals exact withLatched_withCode_none hbusy hcode _

/-- Every error but NotLoaded. -/
abbrev otherErrors : List ErrorKind :=
  [.malformedInput, .dimensionMismatch, .invalidCode, .propertyDerivationFailed, .uncorrectableError,
    .lookupTableCorrupt, .notStandardForm, .indexOutOfRange, .illegalCommand]

/-- With a code its lookup reports nothing (R224). -/
theorem reports_withCode_some {es : List ErrorKind} {s : State} {f : Code → Host.Outcome State Fault Refusal}
    (hcode : s.code ≠ none) (hf : ∀ c, Reports es (f c)) : Reports es (withCode s f) := by
  obtain ⟨c, hc⟩ := Option.ne_none_iff_exists'.mp hcode
  rw [withCode_some hc]
  exact hf c

/-- The commands that need no code never report NotLoaded. -/
theorem exec_reports_other_of_not_needsCode {i : Instr} (hi : needsCode i = false) (s : State) :
    Reports otherErrors (exec i s) := by
  cases i with
  | nop => exact reports_withLatched fun _ _ => reports_succeed
  | grow len => exact reports_withLatched fun _ _ => reports_withWord fun _ => reports_withinRange reports_succeed
  | gload len =>
    intro t ht e he
    have hsub : errorsOf (.gload len) ⊆ otherErrors := by simp [errorsOf]
    exact hsub (execGload_reports len s t ht e he)
  | weight len => exact reports_withLatched fun _ _ => reports_withWord fun _ => reports_succeed
  | hdist len =>
    exact reports_withLatched fun _ _ => reports_withWord fun _ => reports_withWord fun _ => reports_succeed
  | encode | synd | contains | decodeSa | decodeSt | props | rdg | rdh | rdcw | rdsa | rdst => cases hi

/-- With a code no command that needs it reports NotLoaded. -/
theorem exec_reports_other_of_code {i : Instr} {s : State} (hi : needsCode i = true) (hcode : s.code ≠ none) :
    Reports otherErrors (exec i s) := by
  cases i with
  | nop | grow | gload | weight | hdist => cases hi
  | encode len | synd len =>
    exact reports_withLatched fun _ _ => reports_withCode_some hcode fun _ => reports_withWord fun _ =>
      reports_withLength fun _ => reports_succeed
  | contains len =>
    refine reports_withLatched fun _ _ => reports_withCode_some hcode fun _ => reports_withWord fun _ => ?_
    split <;> exact reports_succeed
  | decodeSa len =>
    refine reports_withLatched fun _ _ => reports_withCode_some hcode fun _ => reports_withWord fun _ =>
      reports_withLength fun _ => reports_withStandardArray (reports_withEntry fun _ => ?_)
    split
    · exact reports_raise
    · exact reports_succeed
  | decodeSt len =>
    refine reports_withLatched fun _ _ => reports_withCode_some hcode fun _ => reports_withWord fun _ =>
      reports_withLength fun _ => ?_
    split
    · exact reports_raise
    · split
      · exact reports_raise
      · exact reports_succeed
  | props => exact reports_withLatched fun _ _ => reports_withCode_some hcode fun _ => reports_succeed
  | rdg | rdh | rdcw | rdst =>
    exact reports_withLatched fun _ _ => reports_withCode_some hcode fun _ => reports_withinRange
      (reports_withEntry fun _ => reports_succeed)
  | rdsa =>
    exact reports_withLatched fun _ _ => reports_withCode_some hcode fun _ => reports_withinRange
      (reports_withStandardArray (reports_withEntry fun _ => reports_succeed))

theorem exec_err_ne_notLoaded {i : Instr} {s t : State} (h : s.code ≠ none ∨ needsCode i = false)
    (hexec : exec i s = .next t) : t.err ≠ some .notLoaded := by
  have hreports : Reports otherErrors (exec i s) := by
    cases hi : needsCode i with
    | false => exact exec_reports_other_of_not_needsCode hi s
    | true => exact exec_reports_other_of_code hi (h.resolve_right (by simp [hi]))
  exact fun herr => absurd (hreports t hexec _ herr) (by decide)

/-- Settles O12: R224's list is `needsCode`. -/
theorem codeCommandsNeedALoadedCode : Obligations.CodeCommandsNeedALoadedCode := by
  refine ⟨fun s c a b i hbusy hcode hi => exec_notLoaded hbusy hcode ?_,
    fun i s t hexec h => exec_err_ne_notLoaded (h.imp_right ?_) hexec⟩
  · simp only [List.mem_cons, List.not_mem_nil, or_false] at hi
    obtain (rfl | rfl | rfl | rfl | rfl | rfl) | ⟨len, rfl | rfl | rfl | rfl | rfl⟩ := hi <;> rfl
  · simp only [List.mem_cons, List.not_mem_nil, or_false]
    rintro (rfl | ⟨len, rfl | rfl | rfl | rfl⟩) <;> rfl

end Sys2Proof.Machine
end

section
/-! PROOFS. Repetition (R225, O13): a command run once more in the state its first run left passes the same checks,
finds its caches built, and writes what stands there already. -/

namespace Sys2Proof.Machine

/-- The state in which the command latched in s runs once more, after its first run left t. -/
def again (s t : State) : State := { t with eng := s.eng }

/-- If the first run `o` left t, the second run `o'` leaves t's report and changes nothing but the bookkeeping. -/
def Repeats (s t : State) (o o' : Host.Outcome State Fault Refusal) : Prop :=
  o = .next t → o' = .next (finish t.err (again s t))

/-! ### The shared operations repeat -/

section Writes

variable {s t : State}

/-- A write that finds its own values changes nothing. -/
theorem repeats_finish {e : Option ErrorKind} (w : State → State)
    (hw : w (again s (finish e (w s))) = again s (finish e (w s))) :
    Repeats s t (.next (finish e (w s))) (.next (finish e (w (again s t)))) := by
  intro ht
  obtain rfl := Host.Outcome.next.inj ht
  rw [hw]
  rfl

theorem repeats_succeed (w : State → State) (hw : w (again s (finish none (w s))) = again s (finish none (w s))) :
    Repeats s t (succeed (w s)) (succeed (w (again s t))) := repeats_finish w hw

theorem repeats_raise (e : ErrorKind) : Repeats s t (raise e s) (raise e (again s t)) := repeats_finish id rfl

theorem repeats_raise_built (e : ErrorKind) (c : Code) :
    Repeats s t (raise e (setCode c s)) (raise e (setCode c (again s t))) := repeats_finish (setCode c) rfl

theorem repeats_ite {p : Prop} [Decidable p] {o o' q q' : Host.Outcome State Fault Refusal} (h : Repeats s t o o')
    (h' : Repeats s t q q') : Repeats s t (if p then o else q) (if p then o' else q') := by
  split
  · exact h
  · exact h'

end Writes

section Shared

variable {i : Instr} {s t : State}

theorem repeats_withLatched {f g : Reg → Reg → Host.Outcome State Fault Refusal}
    (hf : ∀ a b, Repeats s t (f a b) (g a b)) : Repeats s t (withLatched s f) (withLatched (again s t) g) := by
  intro ht
  obtain ⟨_, a, b, hbusy, ht⟩ := withLatched_next ht
  rw [withLatched_busy (s := again s t) hbusy]
  exact hf a b ht

theorem repeats_withLength {role : Role} {L required : Nat} {w : BitWord role L}
    {f g : BitWord role required → Host.Outcome State Fault Refusal} (hf : ∀ w', Repeats s t (f w') (g w')) :
    Repeats s t (withLength w required s f) (withLength w required (again s t) g) := by
  unfold withLength
  split
  · exact hf _
  · exact repeats_raise _

theorem repeats_withinRange {p : Bool} {k k' : Host.Outcome State Fault Refusal} (hk : Repeats s t k k') :
    Repeats s t (withinRange p s k) (withinRange p (again s t) k') :=
  repeats_ite hk (repeats_raise _)

theorem repeats_withEntry {α : Type} {entry : Option α} {f g : α → Host.Outcome State Fault Refusal}
    (hf : ∀ x, Repeats s t (f x) (g x)) : Repeats s t (withEntry entry f) (withEntry entry g) := by
  cases entry with
  | none => exact nofun
  | some x => exact hf x

theorem repeats_withStandardArray {c : Code} {k k' : Host.Outcome State Fault Refusal} (hk : Repeats s t k k') :
    Repeats s t (withStandardArray c k) (withStandardArray c k') :=
  repeats_ite nofun hk

variable (h : Effect s i t)
include h

theorem Effect.again_cfg : (again s t).cfg = s.cfg := h.cfg_eq

theorem Effect.repeats_withWord {role : Role} {v : Reg} {L : Nat}
    {f g : BitWord role L → Host.Outcome State Fault Refusal} (hf : ∀ w, Repeats s t (f w) (g w)) :
    Repeats s t (withWord role v L s f) (withWord role v L (again s t) g) := by
  unfold withWord
  rw [h.again_cfg]
  split
  · exact hf _
  · exact repeats_raise _

/-- The second run finds the code of the first, or the one that run has built: it answers alike on both. -/
theorem Effect.repeats_withCode (hi : ∀ len, i ≠ .gload len) {f g : Code → Host.Outcome State Fault Refusal}
    (hf : ∀ c, Repeats s t (f c) (g c)) (hbuilt : ∀ c c', Builds i c c' → g c' = g c) :
    Repeats s t (withCode s f) (withCode (again s t) g) := by
  intro ht
  obtain ⟨c, hc, hfc⟩ | ⟨hc, rfl⟩ := withCode_next ht
  · obtain hsame | ⟨c₀, c', hc₀, hc', hb⟩ | ⟨n, _, _, _, hload, -⟩ := h.code_cases
    · rw [withCode_some (s := again s t) (hsame.trans hc)]
      exact hf c hfc
    · obtain rfl := Option.some.inj (hc₀.symm.trans hc)
      rw [withCode_some (s := again s t) hc', hbuilt _ _ hb]
      exact hf _ hfc
    · exact absurd hload (hi n)
  · rw [withCode_none]
    · rfl
    · exact hc

end Shared

/-! ### The build of the syndrome table (R190) -/

/-- The code with its syndrome table built, and H with it where it was not valid. -/
def buildTable (c : Code) : Code := { c with H := some (parityOf c), st := some (tableOf c) }

theorem withTable_of_none {c : Code} (h : c.st = none) : withTable c = buildTable c := by
  rw [withTable, h, buildTable]

/-- A rule that answers alike on a code and on that code with its table built repeats after the build. -/
theorem congr_of_builds_table {α : Type} {i : Instr} {g : Code → α}
    (hi : ∀ c c', Builds i c c' → c' = withTable c) (hg : ∀ c, c.st = none → g (buildTable c) = g c) (c c' : Code)
    (hb : Builds i c c') : g c' = g c := by
  rw [hi c c' hb]
  cases hst : c.st with
  | none => rw [withTable_of_none hst, hg c hst]
  | some st => rw [withTable_valid (Option.isSome_of_eq_some hst)]

/-! ### The commands repeat -/

section Commands

variable {s t : State}

theorem execGrow_repeats {len : Nat} (h : Effect s (.grow len) t) :
    Repeats s t (execGrow len s) (execGrow len (again s t)) := by
  refine repeats_withLatched fun a b => h.repeats_withWord fun w => ?_
  rw [h.again_cfg]
  refine repeats_withinRange (repeats_succeed (setStaged _ ⟨len, w.bits⟩) ?_)
  simp [setStaged, again, finish]

theorem installCode_repeats (hcfg : (again s t).cfg = s.cfg) (n k : Nat) (G : List (BitVec n)) :
    Repeats s t (installCode n k G s) (installCode n k G (again s t)) := by
  unfold installCode
  rw [hcfg]
  refine repeats_ite (repeats_raise _) (repeats_ite (repeats_raise _) ?_)
  split
  · exact repeats_raise _
  · exact repeats_succeed (setCode _) rfl

/-- A GLOAD stages no row, so it finds the same matrix again. -/
theorem execGload_repeats {len : Nat} (h : Effect s (.gload len) t) :
    Repeats s t (execGload len s) (execGload len (again s t)) := by
  have hgs : (again s t).gs = s.gs := h.gs_cases.resolve_right (by simp)
  refine repeats_withLatched fun a _ => ?_
  rw [h.again_cfg, hgs]
  refine repeats_ite (repeats_raise _) (repeats_ite (repeats_raise _) (repeats_ite (repeats_raise _) ?_))
  split
  · exact repeats_raise _
  · exact installCode_repeats h.again_cfg _ _ _

theorem execContains_repeats {len : Nat} (h : Effect s (.contains len) t) :
    Repeats s t (execContains len s) (execContains len (again s t)) := by
  refine repeats_withLatched fun a _ => h.repeats_withCode nofun (fun c => h.repeats_withWord fun w => ?_) ?_
  · split
    · exact repeats_succeed (fun u => setRes0 _ (setCode (withParity c) u)) rfl
    · exact repeats_succeed (setRes0 0) rfl
  · rintro c _ ⟨⟩
    rfl

theorem execDecodeSa_repeats {len : Nat} (h : Effect s (.decodeSa len) t) :
    Repeats s t (execDecodeSa len s) (execDecodeSa len (again s t)) := by
  refine repeats_withLatched fun a _ => h.repeats_withCode nofun (fun c => h.repeats_withWord fun w =>
    repeats_withLength fun r => repeats_withStandardArray (repeats_withEntry fun found => ?_)) ?_
  · exact repeats_ite (repeats_raise_built _ _)
      (repeats_succeed (fun u => setRes1 _ (setRes0 _ (setCode (withArray c) u))) rfl)
  · rintro c _ ⟨⟩
    rfl

theorem execDecodeSt_repeats {len : Nat} (h : Effect s (.decodeSt len) t) :
    Repeats s t (execDecodeSt len s) (execDecodeSt len (again s t)) := by
  refine repeats_withLatched fun a _ => h.repeats_withCode nofun (fun c => h.repeats_withWord fun w =>
    repeats_withLength fun r => ?_) ?_
  · rw [h.again_cfg]
    split
    · exact repeats_raise_built _ _
    · exact repeats_ite (repeats_raise_built _ _)
        (repeats_succeed (fun u => setRes1 _ (setRes0 _ (setCode (withTable c) u))) rfl)
  · refine congr_of_builds_table (by rintro _ _ ⟨⟩; rfl) fun c hst => ?_
    refine congrArg _ (funext fun w => congrArg (withLength w c.n (again s t)) (funext fun r => ?_))
    have hlookup : tableLookup (tableOf (buildTable c)) (syndromeOf (buildTable c) r) =
        tableLookup (tableOf c) (syndromeOf c r) := rfl
    rw [hlookup, withTable_of_none hst]
    cases tableLookup (tableOf c) (syndromeOf c r) <;> rfl

theorem execRdst_repeats (h : Effect s .rdst t) : Repeats s t (execRdst s) (execRdst (again s t)) := by
  refine repeats_withLatched fun a _ => h.repeats_withCode nofun (fun c => repeats_withinRange
    (repeats_withEntry fun _ => repeats_succeed (fun u => setRes0 _ (setCode (withTable c) u)) rfl)) ?_
  refine congr_of_builds_table (by rintro _ _ ⟨⟩; rfl) fun c hst => ?_
  rw [withTable_of_none hst]
  rfl

end Commands

/-- A command run once more in the state its first run left changes nothing but the bookkeeping. -/
theorem exec_repeats {i : Instr} {s t : State} (h : Effect s i t) : Repeats s t (exec i s) (exec i (again s t)) := by
  cases i with
  | nop => exact repeats_withLatched fun _ _ => repeats_succeed id rfl
  | grow len => exact execGrow_repeats h
  | gload len => exact execGload_repeats h
  | encode len =>
    exact repeats_withLatched fun _ _ => h.repeats_withCode nofun (fun _ => h.repeats_withWord fun _ =>
      repeats_withLength fun _ => repeats_succeed (setRes0 _) rfl) nofun
  | synd len =>
    refine repeats_withLatched fun _ _ => h.repeats_withCode nofun (fun c => h.repeats_withWord fun _ =>
      repeats_withLength fun _ => repeats_succeed (fun u => setRes0 _ (setCode (withParity c) u)) rfl) ?_
    rintro c _ ⟨⟩
    rfl
  | contains len => exact execContains_repeats h
  | decodeSa len => exact execDecodeSa_repeats h
  | decodeSt len => exact execDecodeSt_repeats h
  | props =>
    exact repeats_withLatched fun _ _ => h.repeats_withCode nofun
      (fun _ => repeats_succeed (fun u => setRes1 _ (setRes0 _ u)) rfl) nofun
  | rdg | rdcw =>
    exact repeats_withLatched fun _ _ => h.repeats_withCode nofun (fun _ => repeats_withinRange
      (repeats_withEntry fun _ => repeats_succeed (setRes0 _) rfl)) nofun
  | rdh =>
    refine repeats_withLatched fun _ _ => h.repeats_withCode nofun (fun c => repeats_withinRange
      (repeats_withEntry fun _ => repeats_succeed (fun u => setRes0 _ (setCode (withParity c) u)) rfl)) ?_
    rintro c _ ⟨⟩
    rfl
  | rdsa =>
    refine repeats_withLatched fun _ _ => h.repeats_withCode nofun (fun c => repeats_withinRange
      (repeats_withStandardArray
        (repeats_withEntry fun _ => repeats_succeed (fun u => setRes0 _ (setCode (withArray c) u)) rfl))) ?_
    rintro c _ ⟨⟩
    rfl
  | rdst => exact execRdst_repeats h
  | weight len => exact repeats_withLatched fun _ _ => h.repeats_withWord fun _ => repeats_succeed (setRes0 _) rfl
  | hdist len =>
    exact repeats_withLatched fun _ _ => h.repeats_withWord fun _ => h.repeats_withWord fun _ =>
      repeats_succeed (setRes0 _) rfl

/-- Settles O13: the second run leaves the report of the first. -/
theorem repetitionNeverChangesTheOutcome : Obligations.RepetitionNeverChangesTheOutcome := fun _ _ _ hexec =>
  ⟨_, exec_repeats (exec_effect hexec) hexec, rfl, rfl, rfl⟩

end Sys2Proof.Machine
end

section
/-! PROOFS. Reset and hazards (70_reset_and_hazards.md): a CTRL write (O24), what clears DONE (O31), and the `wait` for
a command in flight (O17). -/

namespace Sys2Proof.Machine

/-! ### The CTRL write (R24, R251) -/

theorem writeReg_ctrl_srst {v : Reg} (hv : v.getLsbD 1 = true) (s : State) :
    writeReg (regAt 0x04) v s = resetBlock s := if_pos hv

theorem writeReg_ctrl_enable {v : Reg} (hv : v.getLsbD 1 = false) (s : State) :
    writeReg (regAt 0x04) v s = { s with ie := v.getLsbD 0 } := if_neg (ne_true_of_eq_false hv)

theorem resetBlock_released {s : State} (hr : s.inReset = false) : resetBlock s = { State.resetWith s.cfg with
    tick := s.tick, inputs := s.inputs, lastRead := s.lastRead } := by
  rw [resetBlock, hr]
  rfl

/-- CTRL reads IE alone. -/
theorem ctrlWord_toNat (s : State) : (ctrlWord s).toNat = s.ie.toNat := by
  rw [ctrlWord, toNat_append_add, BitVec.toNat_ofBool]
  exact Nat.zero_add _

/-- Settles O24: the step is the register's write, which stores IE or is `resetBlock`. -/
theorem ctrlWritesEnableOrReset : Obligations.CtrlWritesEnableOrReset := by
  intro s v rest hm hr hi
  have hwrite := step_write hm hr rfl hi
  refine ⟨fun hv => ?_, fun hv => ?_⟩
  · exact ⟨_, _, hwrite.trans (congrArg _ (writeReg_ctrl_enable hv _)), rfl, ctrlWord_toNat _⟩
  · exact ⟨_, 0, s.tick, s.lastRead, hwrite.trans (congrArg _ (writeReg_ctrl_srst hv _)), resetBlock_released hr,
      isResetState_resetBlock _⟩

/-! ### DONE is sticky (R25, R263) -/

/-- The completion of a command word, legal or not, keeps the books of R220 and what is outside the block. -/
theorem complete_eq_completion {c : Reg} {s t : State} (h : complete c s = .next t) :
    t = { completion t.err s with gs := t.gs, code := t.code, res0 := t.res0, res1 := t.res1 } := by
  obtain ⟨i, -, hexec⟩ | ⟨-, hraise⟩ := complete_cases c s
  · exact (exec_effect (hexec.symm.trans h)).eq_completion
  · obtain rfl := raise_eq_next.mp (hraise.symm.trans h)
    rfl

theorem regAt_eq_status {off : BitVec 8} (h : regAt off = .status) : off = 0x08 := by
  unfold regAt at h
  split at h
  case h_3 hoff => exact BitVec.eq_of_toNat_eq hoff
  all_goals cases h

/-- The inputs that clear DONE: an acknowledging STATUS write (R25) and the resets (R250, R251). -/
inductive ClearsDone (s : State) : Input → Prop
  | asserted : ClearsDone s .assertReset
  | released (held : s.inReset = true) : ClearsDone s .releaseReset
  | acknowledged (v : Reg) (ack : v.getLsbD 1 = true) : ClearsDone s (.write 0x08 4 v)
  | soft (v : Reg) (srst : v.getLsbD 1 = true) : ClearsDone s (.write 0x04 4 v)

theorem submit_done (v : Reg) (s : State) : (submit v s).done = s.done := by
  unfold submit
  split <;> rfl

theorem writeReg_done {off : BitVec 8} {v : Reg} {s : State} :
    (writeReg (regAt off) v s).done = s.done ∨ ClearsDone s (.write off 4 v) := by
  obtain h | h | h | ⟨hstatus, h⟩ | ⟨-, -, h⟩ | ⟨hctrl, hv, -⟩ | ⟨-, h⟩ := writeReg_cases (regAt off) v s
  case inr.inr.inr.inl =>
    cases hv : v.getLsbD 1 with
    | true => exact .inr (regAt_eq_status hstatus ▸ .acknowledged v hv)
    | false => exact .inl (by rw [h, acknowledge_done, hv, Bool.not_false, Bool.and_true])
  case inr.inr.inr.inr.inr.inl => exact .inr (regAt_eq_ctrl hctrl ▸ .soft v hv)
  case inr.inr.inr.inr.inr.inr => exact .inl (h ▸ submit_done v s)
  all_goals exact .inl (by rw [h])

theorem perform_done {op : Input} {s t : State} (h : perform op s = .next t) : t.done = s.done ∨ ClearsDone s op := by
  obtain ⟨_, rfl, rfl⟩ | ⟨off, v, rfl, rfl⟩ | ⟨rfl, rfl⟩ | ⟨rfl, rfl⟩ | ⟨rfl, rfl⟩ := perform_cases h
  · exact .inl rfl
  · cases hr : s.inReset with
    | true => exact .inl (by rw [hostWrite_held hr])
    | false =>
      rw [hostWrite_released hr]
      exact writeReg_done
  · exact .inl rfl
  · exact .inr .asserted
  · cases hr : s.inReset with
    | true => exact .inr (.released hr)
    | false => exact .inl (by rw [releaseReset_released hr])

/-- Settles O31: a completion sets DONE, and of the inputs only those of `ClearsDone` change it. -/
theorem doneStaysUntilAcknowledged : Obligations.DoneStaysUntilAcknowledged := by
  intro s t hstep hs ht
  have hne : t.done ≠ s.done := by simp [hs, ht]
  obtain ⟨-, _, _, _, -, hcomplete⟩ | ⟨-, -, rfl⟩ | ⟨hm, op, rest, hi, hperform⟩ := step_cases hstep
  · have hset : t.done = true := by rw [complete_eq_completion hcomplete]; rfl
    exact absurd (hset.trans hs.symm) hne
  · exact absurd rfl hne
  · refine ⟨hm, rest, ?_⟩
    cases (perform_done hperform).resolve_left hne with
    | asserted => exact .inl hi
    | released held => exact .inr (.inl ⟨held, hi⟩)
    | acknowledged v ack => exact .inr (.inr (.inl ⟨v, hi, ack⟩))
    | soft v srst => exact .inr (.inr (.inr ⟨v, hi, srst⟩))

/-! ### The end of a `wait` (R91, R267) -/

/-- The `wait` is over: it has read BUSY = 0, and the inputs behind it are next. -/
def WaitOver (rest : List Input) (t : State) : Prop :=
  t.inputs = rest ∧ t.eng = .idle ∧ ∃ v, t.lastRead = some v ∧ v.getLsbD 0 = false

/-- The poll of STATUS. -/
theorem step_wait {s : State} {rest : List Input} (hm : engineMoves s = false) (hi : s.inputs = .wait :: rest) :
    step s = .next { s with
      lastRead := some (statusWord s), delay := s.delay - 1
      inputs := if busyFlag s then .wait :: rest else rest } := step_input hm hi

theorem step_wait_busy {s : State} {c a b : Reg} {rest : List Input} (hbusy : s.eng = .busy c a b)
    (hm : engineMoves s = false) (hi : s.inputs = .wait :: rest) :
    step s = .next { s with
      lastRead := some (statusWord s), delay := s.delay - 1, inputs := .wait :: rest } := by
  rw [step_wait hm hi, if_pos (busyFlag_iff.mpr ⟨c, a, b, hbusy⟩)]

theorem step_wait_idle {s : State} {rest : List Input} (hidle : s.eng = .idle) (hi : s.inputs = .wait :: rest) :
    ∃ t, step s = .next t ∧ WaitOver rest t := by
  have hflag : busyFlag s = false := by rw [busyFlag, hidle]
  obtain ⟨hread, -⟩ := statusWord_fields s
  exact ⟨_, step_wait (engineMoves_of_idle hidle) hi, by simp [hflag], hidle, _, rfl, hread.trans hflag⟩

/-- At the engine's turn the wait is two steps from its end: the completion, and the poll of the idle engine. -/
theorem wait_ends_after_turn {s : State} {c a b : Reg} {rest : List Input} (hs : StateInv s)
    (hsf : s.cfg.sfCheck = true) (hbusy : s.eng = .busy c a b) (hm : engineMoves s = true)
    (hi : s.inputs = .wait :: rest) : ∃ t, Host.Core.run Sys2Proof.core 2 s = .next t ∧ WaitOver rest t := by
  obtain ⟨u, hcomplete, hidle⟩ := complete_completes hs hsf hbusy c
  have hinputs : u.inputs = s.inputs := by rw [complete_eq_completion hcomplete]; rfl
  obtain ⟨t, hpoll, hover⟩ := step_wait_idle hidle (hinputs.trans hi)
  have hturn := run_succ_of_step (M := Sys2Proof.core) ((step_complete hbusy hm).trans hcomplete) 1
  exact ⟨t, hturn.trans (run_succ_of_step (M := Sys2Proof.core) hpoll 0), hover⟩

/-- Each poll of a busy engine makes the delay smaller, so the delay bounds the polls before the engine's turn. -/
theorem wait_ends {d : Nat} {s : State} {c a b : Reg} {rest : List Input} (hd : s.delay ≤ d) (hs : StateInv s)
    (hsf : s.cfg.sfCheck = true) (hbusy : s.eng = .busy c a b) (hi : s.inputs = .wait :: rest) :
    ∃ n ≤ d + 2, ∃ t, Host.Core.run Sys2Proof.core n s = .next t ∧ WaitOver rest t := by
  induction d generalizing s with
  | zero =>
    have hm : engineMoves s = true := engineMoves_iff.mpr ⟨⟨c, a, b, hbusy⟩, .inl (Nat.le_zero.mp hd)⟩
    exact ⟨2, le_rfl, wait_ends_after_turn hs hsf hbusy hm hi⟩
  | succ d ih =>
    cases hm : engineMoves s with
    | true => exact ⟨2, Nat.le_add_left 2 _, wait_ends_after_turn hs hsf hbusy hm hi⟩
    | false =>
      have hpoll := step_wait_busy hbusy hm hi
      obtain ⟨n, hn, t, hrun, hover⟩ :=
        ih (Nat.sub_le_of_le_add hd) (everyStepKeepsTheInvariant _ _ hs hpoll) hsf hbusy rfl
      exact ⟨n + 1, Nat.succ_le_succ hn, t, (run_succ_of_step (M := Sys2Proof.core) hpoll n).trans hrun, hover⟩

/-- Settles O17: the polls before the engine's turn use up the delay, and two steps are left from there. -/
theorem waitForACommandEnds : Obligations.WaitForACommandEnds := by
  intro s c a b rest hs hsf hbusy hi
  obtain ⟨n, hn, t, hrun, hinputs, hidle, v, hread, hv⟩ := wait_ends le_rfl hs hsf hbusy hi
  exact ⟨n, hn, t, v, hrun, hinputs, hidle, hread, hv⟩

end Sys2Proof.Machine
end
